-- ==== Sys2Proof/Word.lean ====
section
/-! DEFINITION. The word types of TWSFE: bytes, the two IEEE 754 formats and a value of either format held as its bit
pattern (rules R8, R121). Nothing here computes; the arithmetic stands in Machine/Float.lean. -/

namespace Sys2Proof

/-- `u8` of rule R8: a byte on the bus, a register address, an operand of a command. -/
abbrev Byte := BitVec 8

/-- `CFG.FPFMT`, the two formats D0 allows (rules R6, R121). -/
inductive FpFormat where
  | binary32
  | binary64
deriving DecidableEq, Repr

/-- A value of `F`, the set of values of a format, held as the bit pattern IEEE 754 gives it (rules R8, R121).
Two values are the same datum bit for bit when they are equal, so `-0` and `+0` differ (rule R128). -/
inductive Fp where
  | single (bits : BitVec 32)
  | double (bits : BitVec 64)
deriving DecidableEq, Repr

/-- The format a value is of. -/
def Fp.format : Fp → FpFormat
  | .single _ => .binary32
  | .double _ => .binary64

/-- `+0.0` of a format. -/
def Fp.zero : FpFormat → Fp
  | .binary32 => .single 0
  | .binary64 => .double 0

end Sys2Proof
end

