-- ==== Sys2Proof/Config.lean ====
section
/-! DEFINITION. The configuration of TWSFE (rule R6): the record of the OPEN fields, the constants D0 gives, the example
record the reset state takes, and the free values the spec leaves open (opaque constants with no body). -/

namespace Sys2Proof

/-- The OPEN fields of `CFG` (rule R6): D0 gives none of them a value, so the model takes them as data.
`State` carries one record and no step changes it (rule R23). -/
structure Cfg where
  /-- `FPFMT` -/
  fpfmt : FpFormat
  /-- `DEV_ADDR[0]`, pre-shifted, bit 0 clear in a well-formed record -/
  devAddr0 : Byte
  /-- `DEV_ADDR[1]` -/
  devAddr1 : Byte
  /-- `EXPECTED_ID` -/
  expectedId : Byte
  /-- `REG_ID` -/
  regId : Byte
  /-- `REG_RESET` -/
  regReset : Byte
  /-- `REG_CTRL` -/
  regCtrl : Byte
  /-- `CTRL_VALUE` -/
  ctrlValue : Byte
  /-- `REG_T1`, the address of the low byte -/
  regT1 : Byte
  /-- `REG_T2` -/
  regT2 : Byte
  /-- `REG_T3` -/
  regT3 : Byte
  /-- `REG_TEMP`, the address of the MSB -/
  regTemp : Byte
  /-- `T_SETTLE_MS` -/
  tSettleMs : Nat
deriving DecidableEq, Repr

/-- `RESET_CMD`, given by D0 (rule R6). -/
def Config.resetCmd : Byte := 0xB6#8
/-- `N_TICKS`, given by D0 (rule R6). -/
def Config.nTicks : Nat := 120
/-- `TICK_MS`, given by D0 (rule R6). -/
def Config.tickMs : Nat := 1000
/-- `PROGRESS_EVERY`, given by D0 (rule R6). -/
def Config.progressEvery : Nat := 10

/-- PRESUMED, UNSAFE (log 2). The record `State.reset` carries: `CFG_EXAMPLE` of 95_test_vectors.md, whose values are
those of the sensor family of GK3 and not D0's; `FPFMT = binary64` is the spec's own default (decision D11). Every
statement of the model quantifies over the record, so none rests on these numbers. -/
def Config.cfgExample : Cfg where
  fpfmt := .binary64
  devAddr0 := 0xEC#8
  devAddr1 := 0xEE#8
  expectedId := 0x58#8
  regId := 0xD0#8
  regReset := 0xE0#8
  regCtrl := 0xF4#8
  ctrlValue := 0x27#8
  regT1 := 0x88#8
  regT2 := 0x8A#8
  regT3 := 0x8C#8
  regTemp := 0xFA#8
  tSettleMs := 100

/-- FREE VALUE (log 3; rule R33). Whether the unconstrained environment ever completes its `n`-th phase (`false` is the
answer `never`). -/
opaque Config.phaseCompletes : Nat → Bool

/-- FREE VALUE (log 3; rules R33, R34). The ack bit the controller samples in the `n`-th phase. -/
opaque Config.ackBit : Nat → Bool

/-- FREE VALUE (log 3; rules R33, R34, R35). The byte the controller samples in the `n`-th phase. -/
opaque Config.rxByte : Nat → Byte

/-- FREE VALUE (log 8; rule R128). The sign and payload of a NaN result of an operation on two values: no rule chooses a
NaN, and no operand of `COMPENSATE` makes one. -/
opaque Config.nanBits : FpFormat → Fp → Fp → BitVec 64

/-- FREE VALUE (log 9; rule R125, U3). `floor_i32` of a NaN, an infinity or a value outside `s32`, for which the spec
gives no result. -/
opaque Config.floorUnstated : Fp → BitVec 32

/-- FREE VALUE (log 15; rules R12, R21, R24). What the host reads in bit `ACK` of `STATUS` before any byte has been sent, `n`
bus events into the run: the other bits hold values and the read goes on. -/
opaque Config.ackUnwritten : Nat → Bool

end Sys2Proof
end

