-- ==== Sys2Proof/Syntax.lean ====
section
/-! DEFINITION. The command set of TWSFE (rules R2, R56) and the two directions of the address byte (rule R51): one
constructor per row of spec/opcode_table.json. -/

namespace Sys2Proof

/-- The context index `x` of rule R59: `0` is device 1, `1` is device 2. -/
abbrev CtxIx := Fin 2

/-- One constructor per row of spec/opcode_table.json: the nine commands of rule R56, then the two `WIRE8` rows. -/
inductive Instr where
  /-- `START`, rule R72 -/
  | start
  /-- `SENDBYTE b`, rule R73 -/
  | sendbyte (b : Byte)
  /-- `RECVBYTE k`, rule R74; `true` is `ackBack = true` (rule R59) -/
  | recvbyte (k : Bool)
  /-- `STOP`, rule R75 -/
  | stop
  /-- `WRITEREG d, r, v`, rule R91 -/
  | writereg (d r v : Byte)
  /-- `READREG d, r`, rule R92 -/
  | readreg (d r : Byte)
  /-- `LOADCAL x`, rule R102 -/
  | loadcal (x : CtxIx)
  /-- `READRAW x`, rule R111 -/
  | readraw (x : CtxIx)
  /-- `COMPENSATE x`, rule R124 -/
  | compensate (x : CtxIx)
  /-- `ADDR_W`, the address byte with direction write, rule R51 (not a command; log 4) -/
  | addrW (a7 : BitVec 7)
  /-- `ADDR_R`, the address byte with direction read, rule R51 (not a command; log 4) -/
  | addrR (a7 : BitVec 7)
deriving DecidableEq, Repr

/-- What stands at the block's command side: a 32-bit command word (format `CW32`, rule R55) or a lone address byte
(format `WIRE8` of the opcode table, rule R51; log 4). -/
inductive PortWord where
  | cw (w : BitVec 32)
  | wire (b : Byte)
deriving DecidableEq, Repr

/-- Why a command word is reserved (rule R57). -/
inductive Reserved where
  /-- `OP = 0x0` or `OP = 0xA` to `0xF` -/
  | opcode
  /-- `Z != 0` -/
  | fieldZ
  /-- a nonzero bit in a field the table of rule R56 shows as 0 -/
  | zeroField
  /-- `A[0] = 1` in `WRITEREG` or `READREG` -/
  | oddDevice
deriving DecidableEq, Repr

end Sys2Proof
end

