-- ==== Sys2Proof/Machine/State.lean ====
section
/-! DEFINITION. The state of TWSFE as plain data (10_state.md), with the environment that answers the bus
(20_memory.md section 2, the simulated peripheral among it), the command side and the host program's state
(45_sampling_session_host.md), and `State.reset` (rule R24). -/

namespace Sys2Proof.Machine

/-- The bus engine's protocol state `PHASE` (rule R18). -/
inductive Phase where
  /-- the controller does not own the bus -/
  | idle
  /-- a start or repeated start has completed, the address byte is not yet sent -/
  | started
  /-- the address byte was sent with direction bit 0 -/
  | tx
  /-- the address byte was sent with direction bit 1 -/
  | rx
  /-- a byte was received and answered with no acknowledge -/
  | rxend
deriving DecidableEq, Repr

/-- A bus event of `TRACE` (rules R8, R17). -/
inductive BusEvent where
  /-- `S`, start -/
  | s
  /-- `Sr`, repeated start -/
  | sr
  /-- `W(b, a)`, a byte sent by the controller and the ack bit that answered it -/
  | w (b : Byte) (a : Bool)
  /-- `R(b, k)`, a byte sent by the device and the controller's ack-back -/
  | r (b : Byte) (k : Bool)
  /-- `P`, stop -/
  | p
deriving DecidableEq, Repr

/-- The sequencer position `SEQ = (cmd, k)` (rule R19). -/
structure Seq where
  cmd : Instr
  k : Nat
deriving DecidableEq, Repr

/-- Whether each register of a context holds a value, that is, has been written since reset (rule R12): model
bookkeeping, not valid bits of the hardware. -/
structure Held where
  t1 : Bool
  t2 : Bool
  t3 : Bool
  raw : Bool
  tfine : Bool
  temp : Bool
deriving DecidableEq, Repr

/-- One context of the context file (rule R11), with rule R12's marks. -/
structure Context where
  /-- `DEVADDR`, rule R20 -/
  devaddr : Byte
  /-- `T1`, `u16`, rule R13 -/
  t1 : BitVec 16
  /-- `T2`, `s16` in two's complement, rule R13 -/
  t2 : BitVec 16
  /-- `T3`, `s16` in two's complement, rule R13 -/
  t3 : BitVec 16
  /-- `RAW`, `u20`, rule R14 -/
  raw : BitVec 20
  /-- `TFINE`, `s32` in two's complement, rule R15 -/
  tfine : BitVec 32
  /-- `TEMP`, of the format `CFG.FPFMT`, rule R15 -/
  temp : Fp
  /-- which of the six hold a value, rule R12 -/
  held : Held
deriving DecidableEq, Repr

/-- A sparse memory: (address, byte) pairs in rising order of address, none equal to what an unlisted address reads as
(`Memory.wf`, Machine/Ops.lean). -/
abbrev Memory := List Host.Cell

/-- What the environment answers one phase (rule R33): whether the phase completes at all, the ack bit of a sent byte,
the byte of a received one. A start and a stop look at `completes` alone. -/
structure Reply where
  completes : Bool
  ack : Bool
  byte : Byte
deriving DecidableEq, Repr

/-- Which environment answers the bus. -/
inductive EnvKind where
  /-- the environment of rule R33: nothing is assumed of its answers -/
  | unconstrained
  /-- the reference simulated peripheral `SIM` of rule R36 -/
  | simulated
deriving DecidableEq, Repr

/-- `SEL_j` of `SIM` (rule R36). -/
inductive Sel where
  | off
  | wrPtr
  | wrData
  | wrDone
  | rd
  | rdDone
deriving DecidableEq, Repr

/-- One simulated device (rule R36): `REGS_j`, `PTR_j`, `SEL_j`, `RESETS_j`. -/
structure SimDevice where
  regs : Memory
  ptr : Byte
  sel : Sel
  resets : Nat
deriving DecidableEq, Repr

/-- The environment of the block (rule R33). The unconstrained environment's answers are those of `script`, in order,
while it lists any, and free values of Config after that; `draws` counts the phases asked so far. -/
structure Env where
  kind : EnvKind
  script : List Reply
  draws : Nat
  sim0 : SimDevice
  sim1 : SimDevice
deriving DecidableEq, Repr

/-- The host's session state (rule R141). -/
inductive SessState where
  | idle
  | calibrationPending
  | sampling
  | complete
  | fault
deriving DecidableEq, Repr

/-- What the host puts out: emissions on the text status channel as abstract events (rule R150) and its `sleep`s
(rule R140). -/
inductive HostEvent where
  | startupBanner
  | identity (b : Byte)
  | wiringFault
  | beginSession
  | progress (tick : Nat)
  | finalAverage (avg : Fp)
  | sleep (ms : Nat)
deriving DecidableEq, Repr

/-- The host program SamplingSession (rule R141): not part of the block. -/
structure Session where
  /-- whether the session start of rule R142 has been given -/
  running : Bool
  state : SessState
  /-- the next action in the list of the session state (Machine/Session.lean) -/
  pc : Nat
  id1 : Byte
  id2 : Byte
  temp1 : Fp
  temp2 : Fp
  /-- `sumOfAverages` -/
  sum : Fp
  /-- `sampleCount` -/
  count : Nat
  /-- the zero-based index of the current tick -/
  tick : Nat
  /-- everything emitted and slept so far, oldest first -/
  log : List HostEvent
deriving DecidableEq, Repr

/-- What a read of the host's read port returns, each register at its own type (rule R21). -/
inductive PortValue where
  | u8 (v : BitVec 8)
  | u16 (v : BitVec 16)
  | s16 (v : Int)
  | u20 (v : BitVec 20)
  | s32 (v : Int)
  | float (v : Fp)
deriving DecidableEq, Repr

/-- The state of the whole machine. -/
structure State where
  /-- `CFG` (rules R6, R23): fixed for a run, written by no step -/
  cfg : Cfg
  /-- `CTX[0]` (rule R11) -/
  ctx0 : Context
  /-- `CTX[1]` (rule R11) -/
  ctx1 : Context
  /-- `RXDATA` (rule R16) -/
  rxdata : Byte
  /-- whether `RXDATA` holds a value (rule R12) -/
  rxHeld : Bool
  /-- `STATUS` (rule R16): `BUSY` bit 0, `ACK` bit 1, `OWNED` bit 2, bits 7:3 reserved -/
  status : BitVec 8
  /-- whether `STATUS.ACK` holds a value (rule R12) -/
  ackHeld : Bool
  /-- `PHASE` (rule R18) -/
  phase : Phase
  /-- `SEQ` (rule R19), present while a command is in flight -/
  seq : Option Seq
  /-- `TRACE` (rule R17), oldest event first -/
  trace : List BusEvent
  /-- the bus and the devices on it (rule R33) -/
  env : Env
  /-- what the host offers at the command side (rules R55, R61) -/
  port : Option PortWord
  /-- the register number the host asks for at the read port (rules R21, R61, R140) -/
  readAsked : Option Byte
  /-- what the read port answered last (rules R21, R61), none before the first read -/
  readAnswer : Option PortValue
  /-- the host program (rule R141) -/
  session : Session
  /-- whether a use of a register that holds no value is refused, as rule R12 has the spec's model do, or runs on what the
  register holds, as it says the hardware does: the model's own field, changed by no step (log 17) -/
  guarded : Bool
  /-- rule R166's mark: the run has used a register that held no value, and nothing is claimed past it -/
  unwrittenUse : Bool
deriving DecidableEq, Repr

/-- A command's run so far: the state it has reached and whether every phase up to here completed (`false`: the
environment answered `never`, rule R163). -/
structure Ran where
  state : State
  done : Bool
deriving DecidableEq, Repr

/-- Faults: none. Raised by nobody: the block raises no exception and has no cause codes (rule R161), a hang is a state
and not a fault record (rule R163). Safe: with no constructor, nothing can end in a fault. -/
inductive Fault where
deriving DecidableEq, Repr

/-- The reasons a step is refused: the list of rule R166, the refusal of `SIM`, and the placeholder for an instruction
not modelled. A refusal marks the edge of what the spec defines (rule R160). -/
inductive Refusal where
  /-- Raised by an arm of `exec` whose instruction has no meaning yet (none). Safe. -/
  | notModelled (mnemonic : String)
  /-- `ReservedCommand`, raised by decode and by `WRITEREG`, `READREG` on an odd device operand (rules R57, R166).
  Safe: D0 defines no such input. -/
  | reservedCommand (why : Reserved)
  /-- `IllegalPhase`, raised by a hand-issued primitive in an empty cell of rule R71 (rule R166). Safe. -/
  | illegalPhase
  /-- `BusNotIdle`, raised by a composite command while `PHASE != IDLE` (rules R90, R166). Safe. -/
  | busNotIdle
  /-- `UnwrittenRegister`, raised under the spec's guard (`State.guarded`) alone: by `COMPENSATE` on a context whose `RAW` or
  triple holds no value, by the read port and the step that serves it, and by a step in which the host takes a register that holds none (rules R12, R124,
  R166, R184). Safe. Without the guard, as the hardware and `State.reset` are, all three go on (log 17). -/
  | unwrittenRegister
  /-- `ReservedRegisterNumber`, raised by the read port and the step that serves it (rules R21, R166). Safe. -/
  | reservedRegisterNumber
  /-- `IllFormedConfig`, raised by a step before any command (rules R6, R166). Safe. -/
  | illFormedConfig
  /-- `SIM` gives no answer and the test is refused (rule R36), raised by a hand-issued primitive under `SIM`. Safe: it
  stops a test, never a run of the hardware. -/
  | simNoAnswer
deriving DecidableEq, Repr

/-- No register of a context holds a value (rule R24). -/
def Held.none : Held where
  t1 := false
  t2 := false
  t3 := false
  raw := false
  tfine := false
  temp := false

/-- A context right after reset (rule R24). The spec gives `DEVADDR` its value and the other six none; they are zero
here, DESIGN CHOICE, UNSAFE (log 1). -/
def Context.reset (c : Cfg) (devaddr : Byte) : Context where
  devaddr := devaddr
  t1 := 0
  t2 := 0
  t3 := 0
  raw := 0
  tfine := 0
  temp := Fp.zero c.fpfmt
  held := Held.none

/-- A simulated device before a test sets it (rule R36): DESIGN CHOICE (log 7), nothing listed, pointer 0. -/
def SimDevice.fresh : SimDevice where
  regs := []
  ptr := 0
  sel := .off
  resets := 0

/-- The environment at the start of a run: unconstrained, every answer still free (rule R33; log 3). -/
def Env.reset : Env where
  kind := .unconstrained
  script := []
  draws := 0
  sim0 := SimDevice.fresh
  sim1 := SimDevice.fresh

/-- The host program before its session starts (rule R141): the accumulator starts at `+0.0` and 0. What the spec gives no
value before its first write is the model's, DESIGN CHOICE (log 12): `tick`, which rule R145 sets to 0 only at the entry to
`Sampling`, the two identity bytes and the two temperatures are zero. -/
def Session.reset (c : Cfg) : Session where
  running := false
  state := .idle
  pc := 0
  id1 := 0
  id2 := 0
  temp1 := Fp.zero c.fpfmt
  temp2 := Fp.zero c.fpfmt
  sum := Fp.zero c.fpfmt
  count := 0
  tick := 0
  log := []

/-- The machine right after reset under the configuration `c` (rules R24, R180), without the spec's guard, as the hardware is
(rule R12; DESIGN CHOICE, log 17). -/
def State.resetOf (c : Cfg) : State where
  cfg := c
  ctx0 := Context.reset c c.devAddr0
  ctx1 := Context.reset c c.devAddr1
  rxdata := 0
  rxHeld := false
  status := 0
  ackHeld := false
  phase := .idle
  seq := none
  trace := []
  env := Env.reset
  port := none
  readAsked := none
  readAnswer := none
  session := Session.reset c
  guarded := false
  unwrittenUse := false

/-- The machine right after reset, under the record of log 2. -/
def State.reset : State := State.resetOf Config.cfgExample

end Sys2Proof.Machine
end

