-- ==== Sys2Proof/Machine/Float.lean ====
section
/-! DEFINITION. IEEE 754 arithmetic in the two formats of rule R121, on bit patterns: a pattern is read as a datum (a
rational with a sign, an infinity, or not a number), the operation is done exactly on rationals, and the result is
rounded once, to nearest with ties to even. No operation is fused and none is carried out in a wider format. -/

namespace Sys2Proof.Machine

/-! ### The formats -/

/-- Significant bits of a format, the hidden one counted (rule R122). -/
def fpPrecision : FpFormat → Nat
  | .binary32 => 24
  | .binary64 => 53

/-- The width of a format. -/
def fpWidth : FpFormat → Nat
  | .binary32 => 32
  | .binary64 => 64

/-- The exponent of the least power of two a format represents (the unit of its subnormals). -/
def fpMinExp : FpFormat → Int
  | .binary32 => -149
  | .binary64 => -1074

/-- The pattern of `+infinity`: the least pattern above those of the finite magnitudes. -/
def fpInfPattern : FpFormat → Nat
  | .binary32 => 255 * 2 ^ 23
  | .binary64 => 2047 * 2 ^ 52

/-- The sign bit of a format, as a number. -/
def fpSignBit (f : FpFormat) : Nat := 2 ^ (fpWidth f - 1)

/-- The number of steps of one binade: `2^(precision - 1)`. -/
def fpBinade (f : FpFormat) : Nat := 2 ^ (fpPrecision f - 1)

/-! ### Reading a pattern -/

/-- A floating-point datum: what a pattern stands for. A zero keeps its sign (rule R128). -/
inductive Datum where
  | nan
  | inf (neg : Bool)
  | fin (neg : Bool) (mag : Rat)
deriving DecidableEq, Repr

/-- `2^e`. -/
def pow2 : Int → Rat
  | .ofNat n => ((2 ^ n : Nat) : Rat)
  | .negSucc n => mkRat 1 (2 ^ (n + 1))

/-- The magnitude a finite pattern below the sign bit stands for: subnormal in the lowest binade, else with the hidden
bit. -/
def magOfPattern (f : FpFormat) (n : Nat) : Rat :=
  let e := n / fpBinade f
  let m := n % fpBinade f
  if e = 0 then (m : Rat) * pow2 (fpMinExp f)
  else ((fpBinade f + m : Nat) : Rat) * pow2 (fpMinExp f + (e : Int) - 1)

/-- The datum of a pattern of a format. -/
def datumOfPattern (f : FpFormat) (n : Nat) : Datum :=
  let neg := decide (fpSignBit f ≤ n)
  let m := n % fpSignBit f
  if m < fpInfPattern f then .fin neg (magOfPattern f m)
  else if m = fpInfPattern f then .inf neg
  else .nan

/-- The datum a value stands for. -/
def fpDatum : Fp → Datum
  | .single b => datumOfPattern .binary32 b.toNat
  | .double b => datumOfPattern .binary64 b.toNat

/-! ### Rounding (rule R121) -/

/-- The integer part of the binary logarithm of a positive rational. -/
def log2Floor (q : Rat) : Int :=
  let k : Int := (q.num.natAbs.log2 : Int) - (q.den.log2 : Int)
  if pow2 k ≤ q then k else k - 1

/-- The nearest integer to a rational that is not negative, the even one of two equally near. -/
def nearestEven (x : Rat) : Nat :=
  let n := x.floor.toNat
  let r := x - (n : Rat)
  if r + r < 1 then n else if 1 < r + r then n + 1 else n + n % 2

/-- The exponent of the unit in the last place of a format at a positive magnitude. -/
def ulpExp (f : FpFormat) (q : Rat) : Int :=
  max (log2Floor q - ((fpPrecision f : Int) - 1)) (fpMinExp f)

/-- The pattern of a magnitude, rounded once to nearest, ties to even; one too great for the format is infinity. The
patterns of a format count its magnitudes in rising order, so a significand that rounds up to the next power of two
carries into the exponent by itself. -/
def roundPattern (f : FpFormat) (q : Rat) : Nat :=
  if q = 0 then 0
  else
    let e := ulpExp f q
    min ((e - fpMinExp f).toNat * fpBinade f + nearestEven (q / pow2 e)) (fpInfPattern f)

/-- A value of a format from its pattern. -/
def fpOfPattern (f : FpFormat) (n : Nat) : Fp :=
  match f with
  | .binary32 => .single (BitVec.ofNat 32 n)
  | .binary64 => .double (BitVec.ofNat 64 n)

/-- A pattern with a sign. -/
def signed (f : FpFormat) (neg : Bool) (n : Nat) : Nat := if neg then fpSignBit f + n else n

/-- The pattern of a NaN: a quiet one, whose sign and payload are the free bits given. -/
def nanPattern (f : FpFormat) (free : BitVec 64) : Nat :=
  signed f (free.getLsbD 63) (fpInfPattern f + fpBinade f / 2 + free.toNat % (fpBinade f / 2))

/-- The value of an exact result, rounded once. -/
def packDatum (f : FpFormat) (free : BitVec 64) : Datum → Fp
  | .nan => fpOfPattern f (nanPattern f free)
  | .inf neg => fpOfPattern f (signed f neg (fpInfPattern f))
  | .fin neg mag => fpOfPattern f (signed f neg (roundPattern f mag))

/-! ### The exact operations -/

/-- The rational a sign and a magnitude stand for. -/
def signedValue (neg : Bool) (mag : Rat) : Rat := if neg then -mag else mag

/-- The negative of a datum. -/
def Datum.neg : Datum → Datum
  | .nan => .nan
  | .inf n => .inf (!n)
  | .fin n q => .fin (!n) q

/-- The exact sum. A zero sum is `-0` when both operands are negative and `+0` otherwise (rule R128). -/
def Datum.add : Datum → Datum → Datum
  | .nan, _ => .nan
  | _, .nan => .nan
  | .inf a, .inf b => if a = b then .inf a else .nan
  | .inf a, .fin _ _ => .inf a
  | .fin _ _, .inf b => .inf b
  | .fin a p, .fin b q =>
    let v := signedValue a p + signedValue b q
    if v = 0 then .fin (a && b) 0 else .fin (decide (v < 0)) (if v < 0 then -v else v)

/-- The exact product. -/
def Datum.mul : Datum → Datum → Datum
  | .nan, _ => .nan
  | _, .nan => .nan
  | .inf a, .inf b => .inf (a != b)
  | .inf a, .fin b q => if q = 0 then .nan else .inf (a != b)
  | .fin a p, .inf b => if p = 0 then .nan else .inf (a != b)
  | .fin a p, .fin b q => .fin (a != b) (p * q)

/-- The exact quotient. -/
def Datum.div : Datum → Datum → Datum
  | .nan, _ => .nan
  | _, .nan => .nan
  | .inf _, .inf _ => .nan
  | .inf a, .fin b _ => .inf (a != b)
  | .fin a _, .inf b => .fin (a != b) 0
  | .fin a p, .fin b q =>
    if q = 0 then (if p = 0 then .nan else .inf (a != b)) else .fin (a != b) (p / q)

/-! ### The operations of rule R121 -/

/-- `fadd`. -/
def fadd (f : FpFormat) (x y : Fp) : Fp := packDatum f (Config.nanBits f x y) ((fpDatum x).add (fpDatum y))
/-- `fsub`. -/
def fsub (f : FpFormat) (x y : Fp) : Fp := packDatum f (Config.nanBits f x y) ((fpDatum x).add (fpDatum y).neg)
/-- `fmul`. -/
def fmul (f : FpFormat) (x y : Fp) : Fp := packDatum f (Config.nanBits f x y) ((fpDatum x).mul (fpDatum y))
/-- `fdiv`. -/
def fdiv (f : FpFormat) (x y : Fp) : Fp := packDatum f (Config.nanBits f x y) ((fpDatum x).div (fpDatum y))

/-- `of_int(n)` (rule R122). -/
def ofInt (f : FpFormat) (n : Int) : Fp := packDatum f 0 (.fin (decide (n < 0)) (n.natAbs : Rat))

/-- `floor_i32(s)` (rule R125): the greatest integer not greater than `s`, as an `s32`; where the spec gives no result
(a NaN, an infinity, a value outside `s32`), a free value (log 9). -/
def floorI32 (s : Fp) : BitVec 32 :=
  match fpDatum s with
  | .fin neg mag =>
    let n := (signedValue neg mag).floor
    if -(2 ^ 31) ≤ n ∧ n < 2 ^ 31 then BitVec.ofInt 32 n else Config.floorUnstated s
  | .nan => Config.floorUnstated s
  | .inf _ => Config.floorUnstated s

end Sys2Proof.Machine
end

