-- ==== Sys2Proof/Machine/Flags.lean ====
section
/-! DEFINITION. The fields of `STATUS` (rule R16): reads and writes of `BUSY`, `ACK`, `OWNED`, each leaving the other
bits of the register as they are. -/

namespace Sys2Proof.Machine

/-- Writes one bit of a status word. -/
def putBit (v : BitVec 8) (n : Nat) (b : Bool) : BitVec 8 :=
  if b then v ||| (1#8 <<< n) else v &&& ~~~(1#8 <<< n)

/-- `STATUS.BUSY`, bit 0 (rule R16). -/
def statusBusy (v : BitVec 8) : Bool := v.getLsbD 0
/-- `STATUS.ACK`, bit 1 (rule R16). -/
def statusAck (v : BitVec 8) : Bool := v.getLsbD 1
/-- `STATUS.OWNED`, bit 2 (rule R16). -/
def statusOwned (v : BitVec 8) : Bool := v.getLsbD 2
/-- The reserved bits 7:3 (rule R16). -/
def statusReserved (v : BitVec 8) : BitVec 5 := v.extractLsb' 3 5

/-- `STATUS.BUSY <- b`. -/
def setBusy (v : BitVec 8) (b : Bool) : BitVec 8 := putBit v 0 b
/-- `STATUS.ACK <- b`. -/
def setAck (v : BitVec 8) (b : Bool) : BitVec 8 := putBit v 1 b
/-- `STATUS.OWNED <- b`. -/
def setOwned (v : BitVec 8) (b : Bool) : BitVec 8 := putBit v 2 b

end Sys2Proof.Machine
end

