-- ==== Sys2Proof/WellFormed.lean ====
section
/-! DEFINITION. Which terms of `Instr` are commands of the spec: a device operand has bit 0 clear (rules R52, R57). -/

namespace Sys2Proof

/-- A `u8` is a device address when its bit 0 is clear (rules R20, R52). -/
def isDeviceAddr (d : Byte) : Bool := !d.getLsbD 0

/-- Well-formedness of an instruction (rule R57): every other operand form is admitted by its type. -/
def Instr.wellFormed : Instr → Bool
  | .start => true
  | .sendbyte _ => true
  | .recvbyte _ => true
  | .stop => true
  | .writereg d _ _ => isDeviceAddr d
  | .readreg d _ => isDeviceAddr d
  | .loadcal _ => true
  | .readraw _ => true
  | .compensate _ => true
  | .addrW _ => true
  | .addrR _ => true

end Sys2Proof
end

