-- ==== Sys2Proof/Machine/Operands.lean ====
section
/-! DEFINITION. The operand forms of the commands: the address byte (rules R51, R52), the context an index selects
(rule R59), the register addresses of multi-byte quantities (rules R31, R37), and the two combinations of bytes
(rules R100, R101, R112). -/

namespace Sys2Proof.Machine

/-- `device|write` (rule R52). -/
def addrWrite (d : Byte) : Byte := d ||| 0x00#8

/-- `device|read` (rule R52). -/
def addrRead (d : Byte) : Byte := d ||| 0x01#8

/-- The direction bit of an address byte: `true` is read (rule R51). -/
def directionRead (b : Byte) : Bool := b.getLsbD 0

/-- The 7-bit device address of an address byte (rule R51). -/
def addr7 (b : Byte) : BitVec 7 := b.extractLsb' 1 7

/-- The address byte with the given device address and direction (rule R51). -/
def addrByte (a7 : BitVec 7) (read : Bool) : Byte := a7 ++ (if read then 1#1 else 0#1)

/-- `CFG.DEV_ADDR[x]` (rule R6). -/
def devAddrOf (c : Cfg) (x : CtxIx) : Byte := if x = 0 then c.devAddr0 else c.devAddr1

/-- The address of the register `n` above `r`; a well-formed `CFG` never lets it wrap (rules R6, R31). -/
def regPlus (r : Byte) (n : Nat) : Byte := r + BitVec.ofNat 8 n

/-- `word16(low, high) = low | (high << 8)` (rule R100), evaluated 16 bits wide. -/
def word16 (low high : Byte) : BitVec 16 := low.setWidth 16 ||| (high.setWidth 16 <<< 8)

/-- `as_s16` (rules R8, R101): the same bits read as two's complement. -/
def asS16 (w : BitVec 16) : Int := if w.toNat < 32768 then (w.toNat : Int) else (w.toNat : Int) - 65536

/-- `raw20(msb, lsb, extra) = (msb << 12) | (lsb << 4) | (extra >> 4)` (rules R112, R113), evaluated 20 bits wide. -/
def raw20 (msb lsb extra : Byte) : BitVec 20 :=
  (msb.setWidth 20 <<< 12) ||| (lsb.setWidth 20 <<< 4) ||| (extra.setWidth 20 >>> 4)

end Sys2Proof.Machine
end

