-- ==== Sys2Proof/Machine/Ops.lean ====
section
/-! DEFINITION. The named operations over the state: the check of the configuration, the sparse memory of the simulated
devices, the context file, and how a command is accepted, advanced through its primitives and finished (rules R19, R70,
R90, R163). The block has no exception to take and none to return from (rules R161, R168). -/

namespace Sys2Proof.Machine

/-! ### The configuration -/

/-- Well-formedness of `CFG` (rule R6). -/
def cfgWellFormed (c : Cfg) : Bool :=
  c.devAddr0 != c.devAddr1 && isDeviceAddr c.devAddr0 && isDeviceAddr c.devAddr1
    && decide (c.regT1.toNat + 1 ≤ 0xFF) && decide (c.regT2.toNat + 1 ≤ 0xFF) && decide (c.regT3.toNat + 1 ≤ 0xFF)
    && decide (c.regTemp.toNat + 2 ≤ 0xFF)

/-! ### Memory: the registers of a simulated device -/

/-- What an address nothing has written reads as: DESIGN CHOICE (log 7), a byte of a simulated device the test has not
set. -/
def Memory.unlisted : Byte := 0#8

/-- The byte at an address. -/
def Memory.read : Memory → Nat → Byte
  | [], _ => Memory.unlisted
  | (k, v) :: m, a => if a = k then v else Memory.read m a

/-- Writes one byte, keeping the canonical form: an address given the unlisted value is not listed. -/
def Memory.write : Memory → Nat → Byte → Memory
  | [], a, v => if v = Memory.unlisted then [] else [(a, v)]
  | (k, w) :: m, a, v =>
    if a < k then (if v = Memory.unlisted then (k, w) :: m else (a, v) :: (k, w) :: m)
    else if a = k then (if v = Memory.unlisted then m else (a, v) :: m)
    else (k, w) :: Memory.write m a v

/-- Every listed address is at least `lo` and the addresses rise. -/
def Memory.rising : Memory → Nat → Bool
  | [], _ => true
  | (k, _) :: m, lo => decide (lo ≤ k) && Memory.rising m (k + 1)

/-- The canonical form: addresses strictly rising and below `0x100` (a register address is a `u8`, rule R30), no entry
equal to what an unlisted address reads as. -/
def Memory.wf (m : Memory) : Bool :=
  Memory.rising m 0 && m.all (fun c => decide (c.1 < 0x100) && c.2 != Memory.unlisted)

/-! ### The context file -/

/-- `CTX[x]` (rule R11). -/
def State.ctx (s : State) (x : CtxIx) : Context := if x = 0 then s.ctx0 else s.ctx1

/-- Replaces `CTX[x]`, leaving the other context alone (rule R11). -/
def State.setCtx (s : State) (x : CtxIx) (c : Context) : State :=
  if x = 0 then { s with ctx0 := c } else { s with ctx1 := c }

/-- The simulated device `j` (rule R36). -/
def Env.sim (e : Env) (j : CtxIx) : SimDevice := if j = 0 then e.sim0 else e.sim1

/-- `SIM`'s byte at register `r` of device `j`: the model's read of one byte of the device register space (rules R30,
R36). -/
def deviceByte (s : State) (j : CtxIx) (r : Byte) : Byte := Memory.read (s.env.sim j).regs r.toNat

/-! ### Registers that hold no value (rule R12) -/

/-- A use goes on: what it reads holds a value, or there is no guard before it (rules R12, R124). -/
def State.mayUse (s : State) (held : Bool) : Bool := held || !s.guarded

/-- Rule R166's mark after a use: set from the first one on of a register that held no value. -/
def State.used (s : State) (held : Bool) : State := { s with unwrittenUse := s.unwrittenUse || !held }

/-! ### Commands in flight -/

/-- A command is accepted: `BUSY <- 1`, and `SEQ` names its first primitive (rules R16, R19, R70). -/
def accept (i : Instr) (s : State) : State :=
  { s with status := setBusy s.status true, seq := some { cmd := i, k := 0 } }

/-- A primitive has completed: `SEQ` moves to the next one (rule R19). -/
def advance (s : State) : State :=
  { s with seq := s.seq.map fun q => { q with k := q.k + 1 } }

/-- The last primitive has completed: `BUSY <- 0`, and no command is in flight (rules R19, R70). -/
def finish (s : State) : State :=
  { s with status := setBusy s.status false, seq := none }

/-- Goes on with the next part of a command when every phase so far completed; a stuck command stays where it is
(rules R90, R163). -/
def Ran.andThen (r : Ran) (f : State → Ran) : Ran := if r.done then f r.state else r

/-- A whole command: accepted, run, and finished, or left in flight at the primitive that hangs (rules R70, R90, R160,
R163). -/
def runCommand (i : Instr) (body : State → Ran) (s : State) : State :=
  let r := body (accept i s)
  if r.done then finish r.state else r.state

end Sys2Proof.Machine
end

