-- ==== Sys2Proof/Machine/Compensation.lean ====
section
/-! DEFINITION. Level 2, the temperature compensator (rules R120 to R131): the polynomial of rule R123, operation by
operation, and `COMPENSATE`. -/

namespace Sys2Proof.Machine

/-- `s = var1 + var2` of rule R123, each line one rounded operation, `x^2` the one multiplication `fmul(x, x)`
(rule R121). -/
def compSum (f : FpFormat) (raw : BitVec 20) (t1 t2 t3 : BitVec 16) : Fp :=
  let r := ofInt f raw.toNat
  let c1 := ofInt f t1.toNat
  let c2 := ofInt f (asS16 t2)
  let c3 := ofInt f (asS16 t3)
  let a := fdiv f r (ofInt f 16384)
  let b := fdiv f c1 (ofInt f 1024)
  let d := fsub f a b
  let var1 := fmul f d c2
  let c := fdiv f r (ofInt f 131072)
  let e := fdiv f c1 (ofInt f 8192)
  let g := fsub f c e
  let sq := fmul f g g
  let var2 := fmul f sq c3
  fadd f var1 var2

/-- `comp(raw, T1, T2, T3)` of rule R123: the temperature and the fine temperature. A pure function of the four integers
and the format (rules R120, R129). -/
def comp (f : FpFormat) (raw : BitVec 20) (t1 t2 t3 : BitVec 16) : Fp × BitVec 32 :=
  let s := compSum f raw t1 t2 t3
  (fdiv f s (ofInt f 5120), floorI32 s)

/-- The registers `COMPENSATE` reads all hold a value (rules R12, R124). -/
def compensable (c : Context) : Bool := c.held.raw && c.held.t1 && c.held.t2 && c.held.t3

/-- The context after `COMPENSATE`: `TEMP` and `TFINE` written together, always (rule R124). -/
def compensated (f : FpFormat) (c : Context) : Context :=
  let r := comp f c.raw c.t1 c.t2 c.t3
  { c with temp := r.1, tfine := r.2, held := { c.held with temp := true, tfine := true } }

/-- The work of `COMPENSATE x`, on whatever its operands hold: no primitive, so nothing of it can hang (rules R12, R124). -/
def compBody (x : CtxIx) (s : State) : Ran :=
  { state := (s.setCtx x (compensated s.cfg.fpfmt (s.ctx x))).used (compensable (s.ctx x)), done := true }

/-- `COMPENSATE x` with no guard: what the hardware does whether or not the registers it reads have been written, "on
whatever bits are there" (rules R12, R184). -/
def compensateUnguarded (x : CtxIx) (s : State) : State := runCommand (.compensate x) (compBody x) s

/-- `COMPENSATE x` (rule R124): no bus phase, legal in any `PHASE`. On operands of which one holds no value it runs as the
hardware does and is marked, or under the spec's guard is refused with reason `UnwrittenRegister` and changes nothing (rules
R12, R166, R167, R184; log 17). -/
def execCompensate (x : CtxIx) (s : State) : Host.Outcome State Fault Refusal :=
  if s.mayUse (compensable (s.ctx x)) then .next (compensateUnguarded x s) else .refused .unwrittenRegister

end Sys2Proof.Machine
end

