-- ==== Sys2Proof/Machine/Environment.lean ====
section
/-! DEFINITION. The environment's four calls (rule R33): `none` is the answer `never`. The unconstrained environment
takes each answer from its script and, past the script, from the free values of Config; the simulated peripheral answers
as rule R36 says. -/

namespace Sys2Proof.Machine

/-! ### The unconstrained environment (rules R33 to R35) -/

/-- The next answer of the unconstrained environment: the head of the script, or the free values of this phase. -/
def Env.reply (e : Env) : Reply :=
  match e.script with
  | r :: _ => r
  | [] =>
    { completes := Config.phaseCompletes e.draws, ack := Config.ackBit e.draws, byte := Config.rxByte e.draws }

/-- The environment after it has answered. -/
def Env.taken (e : Env) : Env := { e with script := e.script.tail, draws := e.draws + 1 }

/-! ### The simulated peripheral (rule R36) -/

/-- `SIM`: a start or stop deselects the device and keeps its register pointer. -/
def simDeselect (d : SimDevice) : SimDevice := { d with sel := .off }

/-- `SIM`: the device hears an address byte. -/
def simAddress (own b : Byte) (d : SimDevice) : SimDevice :=
  if addr7 b = addr7 own then { d with sel := if directionRead b then .rd else .wrPtr } else d

/-- `SIM`: the register of a device a data byte in state `wrData` stores to: the measurement-control register alone. -/
def simStores (c : Cfg) (d : SimDevice) (b : Byte) : Bool :=
  d.sel = .wrData && !(d.ptr = c.regReset && b = Config.resetCmd) && d.ptr = c.regCtrl

/-- `SIM`: the device hears a data byte. A state `SIM` gives no rule for is left as it is (`simSendSilent` refuses it
first). -/
def simData (c : Cfg) (b : Byte) (d : SimDevice) : SimDevice :=
  match d.sel with
  | .wrPtr => { d with ptr := b, sel := .wrData }
  | .wrData =>
    if d.ptr = c.regReset ∧ b = Config.resetCmd then { d with resets := d.resets + 1, sel := .wrDone }
    else if simStores c d b then { d with regs := Memory.write d.regs d.ptr.toNat b, sel := .wrDone }
    else { d with sel := .wrDone }
  | .off => d
  | .wrDone => d
  | .rd => d
  | .rdDone => d

/-- `SIM`: a device is selected. -/
def simSelected (d : SimDevice) : Bool := d.sel != .off

/-- `SIM` gives no answer to a data byte: a third byte after a write address, or a data byte to a device that sends
(rule R36; log 10). -/
def simSendSilent (e : Env) (p : Phase) : Bool :=
  p = .tx && (e.sim0.sel = .wrDone || e.sim0.sel = .rd || e.sim0.sel = .rdDone
    || e.sim1.sel = .wrDone || e.sim1.sel = .rd || e.sim1.sel = .rdDone)

/-- `SIM` gives no answer to a second byte received (rule R36). -/
def simRecvSilent (e : Env) : Bool := e.sim0.sel = .rdDone || e.sim1.sel = .rdDone

/-- `SIM`: the device has sent its byte. -/
def simSent (d : SimDevice) : SimDevice := if d.sel = .rd then { d with sel := .rdDone } else d

/-- `SIM`: the byte received: the addressed register of the selected device, or `0xFF` from an empty bus. -/
def simByte (e : Env) : Byte :=
  if e.sim0.sel = .rd then Memory.read e.sim0.regs e.sim0.ptr.toNat
  else if e.sim1.sel = .rd then Memory.read e.sim1.regs e.sim1.ptr.toNat
  else 0xFF#8

/-- `SIM`'s two devices, both changed at once. -/
def Env.withSim (e : Env) (d0 d1 : SimDevice) : Env := { e with sim0 := d0, sim1 := d1 }

/-- `SIM` answers `env.send(b)` (rule R36): an address byte in `STARTED`, a data byte otherwise. -/
def simSend (c : Cfg) (p : Phase) (b : Byte) (e : Env) : Bool × Env :=
  match p with
  | .started =>
    let d0 := simAddress c.devAddr0 b e.sim0
    let d1 := simAddress c.devAddr1 b e.sim1
    (simSelected d0 || simSelected d1, e.withSim d0 d1)
  | _ => (simSelected e.sim0 || simSelected e.sim1, e.withSim (simData c b e.sim0) (simData c b e.sim1))

/-! ### The four calls (rule R33) -/

/-- `env.start()`. -/
def Env.onStart (e : Env) : Option Env :=
  match e.kind with
  | .unconstrained => if e.reply.completes then some e.taken else none
  | .simulated => some (e.withSim (simDeselect e.sim0) (simDeselect e.sim1))

/-- `env.stop()`. -/
def Env.onStop (e : Env) : Option Env :=
  match e.kind with
  | .unconstrained => if e.reply.completes then some e.taken else none
  | .simulated => some (e.withSim (simDeselect e.sim0) (simDeselect e.sim1))

/-- `env.send(b)`: the ack bit, and the environment after. -/
def Env.onSend (c : Cfg) (p : Phase) (b : Byte) (e : Env) : Option (Bool × Env) :=
  match e.kind with
  | .unconstrained => if e.reply.completes then some (e.reply.ack, e.taken) else none
  | .simulated => some (simSend c p b e)

/-- `env.recv(k)`: the byte, and the environment after. `SIM` answers the same byte whichever `k` is. -/
def Env.onRecv (_k : Bool) (e : Env) : Option (Byte × Env) :=
  match e.kind with
  | .unconstrained => if e.reply.completes then some (e.reply.byte, e.taken) else none
  | .simulated => some (simByte e, e.withSim (simSent e.sim0) (simSent e.sim1))

/-- `SIM` refuses the test for a data byte it has no answer to (rule R36); the unconstrained environment refuses
nothing. -/
def Env.refusesSend (e : Env) (p : Phase) : Bool := e.kind = .simulated && simSendSilent e p

/-- `SIM` refuses the test for a received byte it has no answer to (rule R36). -/
def Env.refusesRecv (e : Env) : Bool := e.kind = .simulated && simRecvSilent e

end Sys2Proof.Machine
end

