-- ==== Sys2Proof/Machine/Primitives.lean ====
section
/-! DEFINITION. Level 0 (rules R70 to R77): the effect of each bus primitive, the table of which primitive is legal in
which `PHASE` (rule R71), the four hand-issued primitives, and the two directions of the address byte (rule R51). -/

namespace Sys2Proof.Machine

/-! ### The table of rule R71 -/

/-- `START` is legal in `IDLE`, `TX` and `RXEND` (rules R71, R72). -/
def startLegal (p : Phase) : Bool := p = .idle || p = .tx || p = .rxend
/-- `SENDBYTE` is legal in `STARTED` and `TX` (rules R71, R73). -/
def sendLegal (p : Phase) : Bool := p = .started || p = .tx
/-- `RECVBYTE` is legal in `RX` (rules R71, R74). -/
def recvLegal (p : Phase) : Bool := p = .rx
/-- `STOP` is legal in `TX` and `RXEND` (rules R71, R75). -/
def stopLegal (p : Phase) : Bool := p = .tx || p = .rxend

/-- `PHASE` after a byte has been sent (rules R71, R73): an address byte fixes the direction by its bit 0, and the ack
bit is not consulted (rule R76). -/
def phaseAfterSend (p : Phase) (b : Byte) : Phase :=
  if p = .started then (if directionRead b then .rx else .tx) else p

/-! ### The effects -/

/-- The effect of `START` (rule R72): `S` from `IDLE`, `Sr` when the bus is owned. -/
def phaseStart (s : State) : Ran :=
  match s.env.onStart with
  | none => { state := s, done := false }
  | some e =>
    { state := advance { s with
        env := e
        trace := s.trace ++ [if s.phase = .idle then .s else .sr]
        phase := .started
        status := setOwned s.status true }
      done := true }

/-- The effect of `SENDBYTE b` (rule R73): the ack bit is recorded in `STATUS.ACK` (rule R76). -/
def phaseSend (b : Byte) (s : State) : Ran :=
  match s.env.onSend s.cfg s.phase b with
  | none => { state := s, done := false }
  | some (a, e) =>
    { state := advance { s with
        env := e
        trace := s.trace ++ [.w b a]
        phase := phaseAfterSend s.phase b
        status := setAck s.status a
        ackHeld := true }
      done := true }

/-- The effect of `RECVBYTE k` (rule R74). -/
def phaseRecv (k : Bool) (s : State) : Ran :=
  match s.env.onRecv k with
  | none => { state := s, done := false }
  | some (b, e) =>
    { state := advance { s with
        env := e
        trace := s.trace ++ [.r b k]
        phase := if k then .rx else .rxend
        rxdata := b
        rxHeld := true }
      done := true }

/-- The effect of `STOP` (rule R75). -/
def phaseStop (s : State) : Ran :=
  match s.env.onStop with
  | none => { state := s, done := false }
  | some e =>
    { state := advance { s with
        env := e
        trace := s.trace ++ [.p]
        phase := .idle
        status := setOwned s.status false }
      done := true }

/-! ### The instructions -/

/-- `START` (rule R72). -/
def execStart (s : State) : Host.Outcome State Fault Refusal :=
  if startLegal s.phase then .next (runCommand .start phaseStart s) else .refused .illegalPhase

/-- `SENDBYTE b` (rule R73). -/
def execSendbyte (b : Byte) (s : State) : Host.Outcome State Fault Refusal :=
  if sendLegal s.phase then
    if s.env.refusesSend s.phase then .refused .simNoAnswer
    else .next (runCommand (.sendbyte b) (phaseSend b) s)
  else .refused .illegalPhase

/-- `RECVBYTE k` (rule R74). -/
def execRecvbyte (k : Bool) (s : State) : Host.Outcome State Fault Refusal :=
  if recvLegal s.phase then
    if s.env.refusesRecv then .refused .simNoAnswer
    else .next (runCommand (.recvbyte k) (phaseRecv k) s)
  else .refused .illegalPhase

/-- `STOP` (rule R75). -/
def execStop (s : State) : Host.Outcome State Fault Refusal :=
  if stopLegal s.phase then .next (runCommand .stop phaseStop s) else .refused .illegalPhase

/-- `ADDR_W` (rule R51; log 4): the address+direction phase with direction write, which exists only as the first byte
after a start, so in `STARTED` alone; its effect is `SENDBYTE`'s. -/
def execAddrW (a7 : BitVec 7) (s : State) : Host.Outcome State Fault Refusal :=
  if s.phase = .started then .next (runCommand (.addrW a7) (phaseSend (addrByte a7 false)) s)
  else .refused .illegalPhase

/-- `ADDR_R` (rule R51; log 4): the address+direction phase with direction read. -/
def execAddrR (a7 : BitVec 7) (s : State) : Host.Outcome State Fault Refusal :=
  if s.phase = .started then .next (runCommand (.addrR a7) (phaseSend (addrByte a7 true)) s)
  else .refused .illegalPhase

end Sys2Proof.Machine
end

