-- ==== Sys2Proof/Machine/RegisterAccess.lean ====
section
/-! DEFINITION. Level 1 (rules R90 to R94): the write frame and the read frame, and `WRITEREG`, `READREG`. -/

namespace Sys2Proof.Machine

/-- The five primitives of the write frame (rules R53, R91). -/
def writeFrame (d r v : Byte) (s : State) : Ran :=
  (phaseStart s).andThen fun s =>
  (phaseSend (addrWrite d) s).andThen fun s =>
  (phaseSend r s).andThen fun s =>
  (phaseSend v s).andThen fun s =>
  phaseStop s

/-- The seven primitives of the read frame (rules R54, R92): no stop before the repeated start, one byte, received with
no acknowledge. The result is left in `RXDATA`. -/
def readFrame (d r : Byte) (s : State) : Ran :=
  (phaseStart s).andThen fun s =>
  (phaseSend (addrWrite d) s).andThen fun s =>
  (phaseSend r s).andThen fun s =>
  (phaseStart s).andThen fun s =>
  (phaseSend (addrRead d) s).andThen fun s =>
  (phaseRecv false s).andThen fun s =>
  phaseStop s

/-- A composite command is accepted in `IDLE` alone (rule R90). -/
def execComposite (i : Instr) (body : State → Ran) (s : State) : Host.Outcome State Fault Refusal :=
  if s.phase = .idle then .next (runCommand i body s) else .refused .busNotIdle

/-- `WRITEREG d, r, v` (rule R91); the checks in the order of rule R167 (log 13). -/
def execWritereg (d r v : Byte) (s : State) : Host.Outcome State Fault Refusal :=
  if isDeviceAddr d then execComposite (.writereg d r v) (writeFrame d r v) s
  else .refused (.reservedCommand .oddDevice)

/-- `READREG d, r` (rule R92); the checks in the order of rule R167 (log 13). -/
def execReadreg (d r : Byte) (s : State) : Host.Outcome State Fault Refusal :=
  if isDeviceAddr d then execComposite (.readreg d r) (readFrame d r) s
  else .refused (.reservedCommand .oddDevice)

end Sys2Proof.Machine
end

