-- ==== Sys2Proof/Machine/SensorRead.lean ====
section
/-! DEFINITION. Level 2 over the bus: the calibration register reader `LOADCAL` (rules R100 to R104) and the 20-bit ADC
assembler `READRAW` (rules R111 to R115). -/

namespace Sys2Proof.Machine

/-- One `READREG` of a longer command (rule R93): the frame, then what is done with the byte it left in `RXDATA`. -/
def readThen (d r : Byte) (s : State) (f : Byte → State → Ran) : Ran :=
  (readFrame d r s).andThen fun t => f t.rxdata t

/-- The three registers of a context are written together (rule R102). -/
def writeTriple (x : CtxIx) (t1 t2 t3 : BitVec 16) (s : State) : State :=
  let c := s.ctx x
  s.setCtx x { c with t1 := t1, t2 := t2, t3 := t3, held := { c.held with t1 := true, t2 := true, t3 := true } }

/-- `RAW` of a context is written (rule R111). -/
def writeRaw (x : CtxIx) (raw : BitVec 20) (s : State) : State :=
  let c := s.ctx x
  s.setCtx x { c with raw := raw, held := { c.held with raw := true } }

/-- The six frames of `LOADCAL` and the write at their end (rule R102). `T2` and `T3` keep the bits of `word16`; reading
them as two's complement is `asS16` (rule R101). -/
def loadCalBody (x : CtxIx) (s : State) : Ran :=
  let d := (s.ctx x).devaddr
  readThen d s.cfg.regT1 s fun l1 s =>
  readThen d (regPlus s.cfg.regT1 1) s fun h1 s =>
  readThen d s.cfg.regT2 s fun l2 s =>
  readThen d (regPlus s.cfg.regT2 1) s fun h2 s =>
  readThen d s.cfg.regT3 s fun l3 s =>
  readThen d (regPlus s.cfg.regT3 1) s fun h3 s =>
  { state := writeTriple x (word16 l1 h1) (word16 l2 h2) (word16 l3 h3) s, done := true }

/-- The three frames of `READRAW` and the write at their end (rule R111): three transactions, each byte from whatever the
device holds at that moment (rule R35). -/
def readRawBody (x : CtxIx) (s : State) : Ran :=
  let d := (s.ctx x).devaddr
  readThen d s.cfg.regTemp s fun msb s =>
  readThen d (regPlus s.cfg.regTemp 1) s fun lsb s =>
  readThen d (regPlus s.cfg.regTemp 2) s fun extra s =>
  { state := writeRaw x (raw20 msb lsb extra) s, done := true }

/-- `LOADCAL x` (rule R102). -/
def execLoadcal (x : CtxIx) (s : State) : Host.Outcome State Fault Refusal :=
  execComposite (.loadcal x) (loadCalBody x) s

/-- `READRAW x` (rule R111). -/
def execReadraw (x : CtxIx) (s : State) : Host.Outcome State Fault Refusal :=
  execComposite (.readraw x) (readRawBody x) s

end Sys2Proof.Machine
end

