-- ==== Sys2Proof/Machine/Dispatch.lean ====
section
/-! DEFINITION. One arm per constructor of Instr. -/

namespace Sys2Proof.Machine

def exec (i : Instr) (s : State) : Host.Outcome State Fault Refusal :=
  match i with
  | .start => Sys2Proof.Machine.execStart s
  | .sendbyte b => Sys2Proof.Machine.execSendbyte b s
  | .recvbyte k => Sys2Proof.Machine.execRecvbyte k s
  | .stop => Sys2Proof.Machine.execStop s
  | .writereg d r v => Sys2Proof.Machine.execWritereg d r v s
  | .readreg d r => Sys2Proof.Machine.execReadreg d r s
  | .loadcal x => Sys2Proof.Machine.execLoadcal x s
  | .readraw x => Sys2Proof.Machine.execReadraw x s
  | .compensate x => Sys2Proof.Machine.execCompensate x s
  | .addrW a7 => Sys2Proof.Machine.execAddrW a7 s
  | .addrR a7 => Sys2Proof.Machine.execAddrR a7 s

end Sys2Proof.Machine
end

