-- ==== Sys2Proof/Decode.lean ====
section
/-! DEFINITION. The decoder of the command word (rules R55 to R57, R59) and of the address byte (rule R51), and the
encoder written from the same tables. The decoder is total and refuses every reserved word by name. -/

namespace Sys2Proof

/-- Field `OP`, bits 31:28 of the command word (rule R55). -/
def fieldOp (w : BitVec 32) : BitVec 4 := w.extractLsb' 28 4
/-- Field `Z`, bits 27:24 (rule R55). -/
def fieldZ (w : BitVec 32) : BitVec 4 := w.extractLsb' 24 4
/-- Field `A`, bits 23:16 (rule R55). -/
def fieldA (w : BitVec 32) : Byte := w.extractLsb' 16 8
/-- Field `B`, bits 15:8 (rule R55). -/
def fieldB (w : BitVec 32) : Byte := w.extractLsb' 8 8
/-- Field `C`, bits 7:0 (rule R55). -/
def fieldC (w : BitVec 32) : Byte := w.extractLsb' 0 8

/-- The command word with the given `OP`, `A`, `B`, `C` and `Z = 0` (rule R55). -/
def commandWord (op : BitVec 4) (a b c : Byte) : BitVec 32 := op ++ (0#4 ++ (a ++ (b ++ c)))

/-- A one-bit operand in `C[0]` with `C[7:1] = 0` (rule R56): `none` when a higher bit is set. -/
def bitOperand (c : Byte) : Option Bool :=
  if c = 0#8 then some false else if c = 1#8 then some true else none

/-- The context index a one-bit operand selects (rule R59). -/
def ctxOfBit (k : Bool) : CtxIx := if k then 1 else 0

/-- `C` of a command with a one-bit operand. -/
def byteOfBit (k : Bool) : Byte := if k then 1#8 else 0#8

/-- `C` of a command with a context operand. -/
def byteOfCtx (x : CtxIx) : Byte := if x = 0 then 0#8 else 1#8

/-- Reads fields `A`, `B`, `C` of a word whose `OP` is known and whose `Z` is 0 (the table of rule R56). -/
def decodeFields (op : BitVec 4) (a b c : Byte) : Except Reserved Instr :=
  if op = 0x1#4 then
    if a = 0 ∧ b = 0 ∧ c = 0 then .ok .start else .error .zeroField
  else if op = 0x2#4 then
    if a = 0 ∧ b = 0 then .ok (.sendbyte c) else .error .zeroField
  else if op = 0x3#4 then
    if a = 0 ∧ b = 0 then
      match bitOperand c with
      | some k => .ok (.recvbyte k)
      | none => .error .zeroField
    else .error .zeroField
  else if op = 0x4#4 then
    if a = 0 ∧ b = 0 ∧ c = 0 then .ok .stop else .error .zeroField
  else if op = 0x5#4 then
    if isDeviceAddr a then .ok (.writereg a b c) else .error .oddDevice
  else if op = 0x6#4 then
    if c = 0 then
      if isDeviceAddr a then .ok (.readreg a b) else .error .oddDevice
    else .error .zeroField
  else if op = 0x7#4 then
    if a = 0 ∧ b = 0 then
      match bitOperand c with
      | some k => .ok (.loadcal (ctxOfBit k))
      | none => .error .zeroField
    else .error .zeroField
  else if op = 0x8#4 then
    if a = 0 ∧ b = 0 then
      match bitOperand c with
      | some k => .ok (.readraw (ctxOfBit k))
      | none => .error .zeroField
    else .error .zeroField
  else if op = 0x9#4 then
    if a = 0 ∧ b = 0 then
      match bitOperand c with
      | some k => .ok (.compensate (ctxOfBit k))
      | none => .error .zeroField
    else .error .zeroField
  else .error .opcode

/-- Decodes a command word (rules R55 to R57): `Z` must be 0, and the rest is `decodeFields`. -/
def decodeCommand (w : BitVec 32) : Except Reserved Instr :=
  if fieldZ w = 0 then decodeFields (fieldOp w) (fieldA w) (fieldB w) (fieldC w) else .error .fieldZ

/-- Decodes an address byte (rule R51): bit 0 is the direction, bits 7:1 the device address; no address byte is
reserved. -/
def decodeWire (b : Byte) : Instr :=
  if b.getLsbD 0 then .addrR (b.extractLsb' 1 7) else .addrW (b.extractLsb' 1 7)

/-- The decoder, total on whatever stands at the command side. -/
def decode : PortWord → Except Reserved Instr
  | .cw w => decodeCommand w
  | .wire b => .ok (decodeWire b)

/-- The encoder, from the table of rule R56 and from rule R51. -/
def encode : Instr → PortWord
  | .start => .cw (commandWord 0x1#4 0 0 0)
  | .sendbyte b => .cw (commandWord 0x2#4 0 0 b)
  | .recvbyte k => .cw (commandWord 0x3#4 0 0 (byteOfBit k))
  | .stop => .cw (commandWord 0x4#4 0 0 0)
  | .writereg d r v => .cw (commandWord 0x5#4 d r v)
  | .readreg d r => .cw (commandWord 0x6#4 d r 0)
  | .loadcal x => .cw (commandWord 0x7#4 0 0 (byteOfCtx x))
  | .readraw x => .cw (commandWord 0x8#4 0 0 (byteOfCtx x))
  | .compensate x => .cw (commandWord 0x9#4 0 0 (byteOfCtx x))
  | .addrW a7 => .wire (a7 ++ 0#1)
  | .addrR a7 => .wire (a7 ++ 1#1)

/-- What `nbits` bits `w`, numbered as spec/opcode_table.json numbers them, are at the command side: 32 bits are a
command word, 8 bits an address byte, and the table has no other width. -/
def portWordOf (nbits w : Nat) : Option PortWord :=
  if nbits = 32 then some (.cw (BitVec.ofNat 32 w))
  else if nbits = 8 then some (.wire (BitVec.ofNat 8 w))
  else none

/-- The instruction the decoder reads from the `nbits` bits `w` of a row of the opcode table; `none` where it refuses. -/
def decodeTableWord (nbits w : Nat) : Option Instr :=
  match portWordOf nbits w with
  | none => none
  | some p =>
    match decode p with
    | .ok i => some i
    | .error _ => none

end Sys2Proof
end

