-- ==== Sys2Proof/Machine/ReadPort.lean ====
section
/-! DEFINITION. The host's read port (rules R21, R61): a register number to the register at its own type. A read has no
side effect. -/

namespace Sys2Proof.Machine

/-- `STATUS` as the host reads it: the reserved bits read as 0 (rule R16). `BUSY` and `OWNED` always hold a value; `ACK`, the
one bit rule R12 marks, is a free value while nothing has written it (log 15). -/
def statusRead (s : State) : BitVec 8 :=
  let v := s.status &&& 0x07#8
  if s.ackHeld then v else setAck v (Config.ackUnwritten s.trace.length)

/-- The register at offset `n` of a context (rule R21); offset 7 names none. -/
def readContext (c : Context) (n : Nat) : Except Refusal PortValue :=
  match n with
  | 0 => .ok (.u8 c.devaddr)
  | 1 => .ok (.u16 c.t1)
  | 2 => .ok (.s16 (asS16 c.t2))
  | 3 => .ok (.s16 (asS16 c.t3))
  | 4 => .ok (.u20 c.raw)
  | 5 => .ok (.s32 c.tfine.toInt)
  | 6 => .ok (.float c.temp)
  | _ => .error .reservedRegisterNumber

/-- The register a number names, at its own type (rule R21): `0x00 STATUS`, `0x01 RXDATA`, context `i` at `0x10 + 8*i`;
every other number is reserved and refused. -/
def portRegister (n : Byte) (s : State) : Except Refusal PortValue :=
  if n = 0x00#8 then .ok (.u8 (statusRead s))
  else if n = 0x01#8 then .ok (.u8 s.rxdata)
  else if 0x10 ≤ n.toNat ∧ n.toNat < 0x18 then readContext s.ctx0 (n.toNat - 0x10)
  else if 0x18 ≤ n.toNat ∧ n.toNat < 0x20 then readContext s.ctx1 (n.toNat - 0x18)
  else .error .reservedRegisterNumber

/-- Whether the register at offset `n` of a context holds a value (rule R12); `DEVADDR` always does. -/
def contextHeld (c : Context) (n : Nat) : Bool :=
  match n with
  | 0 => true
  | 1 => c.held.t1
  | 2 => c.held.t2
  | 3 => c.held.t3
  | 4 => c.held.raw
  | 5 => c.held.tfine
  | 6 => c.held.temp
  | _ => false

/-- Whether the register of a number holds a value (rule R12). `STATUS` always does: rule R12 marks its bit `ACK` alone, which
`statusRead` leaves open. -/
def portHeld (n : Byte) (s : State) : Bool :=
  if n = 0x00#8 then true
  else if n = 0x01#8 then s.rxHeld
  else if 0x10 ≤ n.toNat ∧ n.toNat < 0x18 then contextHeld s.ctx0 (n.toNat - 0x10)
  else if 0x18 ≤ n.toNat ∧ n.toNat < 0x20 then contextHeld s.ctx1 (n.toNat - 0x18)
  else false

/-- The read port (rules R21, R166): the register of the number. One that holds no value reads as what is there, or under the
spec's guard is refused with reason `UnwrittenRegister` (rule R12; log 17); `portHeld` says which. -/
def readPort (n : Byte) (s : State) : Except Refusal PortValue :=
  match portRegister n s with
  | .ok v => if s.mayUse (portHeld n s) then .ok v else .error .unwrittenRegister
  | .error r => .error r

/-- The state after a read has been answered: the answer stands at the read port, and rule R166's mark is set when the register
held no value. A read has no side effect on the block (rule R21). -/
def answerRead (n : Byte) (v : PortValue) (s : State) : State :=
  ({ s with readAsked := none, readAnswer := some v }).used (portHeld n s)

/-- A read the host has asked for is served, or refused and the run with it (rules R21, R61, R140, R166; log 15). -/
def readStep (n : Byte) (s : State) : Host.Outcome State Fault Refusal :=
  match readPort n s with
  | .ok v => .next (answerRead n v s)
  | .error r => .refused r

/-- The host asks for a register at the read port, an event from outside the machine (rule R140; log 15). -/
def askRead (n : Byte) (s : State) : State := { s with readAsked := some n }

end Sys2Proof.Machine
end

