-- ==== Sys2Proof/Machine/Session.lean ====
section
/-! DEFINITION. The host program SamplingSession (45_sampling_session_host.md), which drives the block through the
command port and is not part of it (rule R4): one action of the host is one step of the machine in which no command is
offered. -/

namespace Sys2Proof.Machine

/-- What the host does in one action (rule R140). -/
inductive HostAct where
  /-- put out an event on the status channel, or sleep -/
  | emit (e : HostEvent)
  /-- hand the block a command word -/
  | issue (i : Instr)
  /-- `id <- RXDATA`, and emit it (rule R142) -/
  | takeId (x : CtxIx)
  /-- compare both identities with `EXPECTED_ID` (rule R142) -/
  | compareIds
  /-- enter `Sampling` (rule R145) -/
  | enterSampling
  /-- `temp <- CTX[x].TEMP` (rule R146) -/
  | takeTemp (x : CtxIx)
  /-- add the mean of the two temperatures to `sumOfAverages`, count the sample (rule R146) -/
  | accumulate
  /-- emit the progress line on every 10th tick (rules R146, R147) -/
  | progress
  /-- go to the next tick, or finish after the last one (rules R146, R148) -/
  | nextTick
deriving DecidableEq, Repr

/-- The actions of `Idle` (rule R142). -/
def idleProgram (s : State) : List HostAct :=
  [.emit .startupBanner,
   .issue (.readreg s.ctx0.devaddr s.cfg.regId), .takeId 0,
   .issue (.readreg s.ctx1.devaddr s.cfg.regId), .takeId 1,
   .compareIds]

/-- The actions of `CalibrationPending` (rule R145). -/
def calibrationProgram (s : State) : List HostAct :=
  [.issue (.writereg s.ctx0.devaddr s.cfg.regReset Config.resetCmd),
   .issue (.writereg s.ctx1.devaddr s.cfg.regReset Config.resetCmd),
   .emit (.sleep s.cfg.tSettleMs),
   .issue (.writereg s.ctx0.devaddr s.cfg.regCtrl s.cfg.ctrlValue),
   .issue (.writereg s.ctx1.devaddr s.cfg.regCtrl s.cfg.ctrlValue),
   .issue (.loadcal 0), .issue (.loadcal 1),
   .emit .beginSession,
   .enterSampling]

/-- The actions of one tick of `Sampling` (rule R146). -/
def tickProgram : List HostAct :=
  [.issue (.readraw 0), .issue (.compensate 0), .takeTemp 0,
   .issue (.readraw 1), .issue (.compensate 1), .takeTemp 1,
   .accumulate, .progress,
   .emit (.sleep Config.tickMs),
   .nextTick]

/-- The actions of the current session state; `Complete` and `Fault` are terminal (rules R141, R149). -/
def hostProgram (s : State) : List HostAct :=
  match s.session.state with
  | .idle => idleProgram s
  | .calibrationPending => calibrationProgram s
  | .sampling => tickProgram
  | .complete => []
  | .fault => []

/-- The host goes on to its next action. -/
def nextAct (h : Session) : Session := { h with pc := h.pc + 1 }

/-- The host enters a session state at its first action. -/
def enterState (st : SessState) (h : Session) : Session := { h with state := st, pc := 0 }

/-- The host puts out an event. -/
def putEvent (e : HostEvent) (h : Session) : Session := { h with log := h.log ++ [e] }

/-- Both identity bytes are the expected one (rule R142). -/
def idsMatch (c : Cfg) (h : Session) : Bool := h.id1 = c.expectedId && h.id2 = c.expectedId

/-- `sumOfAverages <- fadd(sumOfAverages, fdiv(fadd(temp1, temp2), 2.0))` and `sampleCount <- sampleCount + 1`, in the
format of `CFG.FPFMT` (rules R141, R146). -/
def accumulated (f : FpFormat) (h : Session) : Session :=
  { h with sum := fadd f h.sum (fdiv f (fadd f h.temp1 h.temp2) (ofInt f 2)), count := h.count + 1 }

/-- The final value `fdiv(sumOfAverages, of_int(sampleCount))` (rule R148). -/
def finalAverage (f : FpFormat) (h : Session) : Fp := fdiv f h.sum (ofInt f h.count)

/-- The session after one action of the host that hands the block nothing. -/
def sessionAct (s : State) (a : HostAct) : Session :=
  let h := s.session
  match a with
  | .emit e => nextAct (putEvent e h)
  | .issue _ => nextAct h
  | .takeId x =>
    if x = 0 then nextAct (putEvent (.identity s.rxdata) { h with id1 := s.rxdata })
    else nextAct (putEvent (.identity s.rxdata) { h with id2 := s.rxdata })
  | .compareIds =>
    if idsMatch s.cfg h then enterState .calibrationPending h
    else enterState .fault (putEvent .wiringFault h)
  | .enterSampling =>
    enterState .sampling { h with tick := 0, sum := Fp.zero s.cfg.fpfmt, count := 0 }
  | .takeTemp x =>
    if x = 0 then nextAct { h with temp1 := s.ctx0.temp } else nextAct { h with temp2 := s.ctx1.temp }
  | .accumulate => nextAct (accumulated s.cfg.fpfmt h)
  | .progress =>
    if h.tick % Config.progressEvery = 0 then nextAct (putEvent (.progress h.tick) h) else nextAct h
  | .nextTick =>
    if h.tick + 1 < Config.nTicks then enterState .sampling { h with tick := h.tick + 1 }
    else enterState .complete
      (putEvent (.finalAverage (finalAverage s.cfg.fpfmt h)) { h with tick := h.tick + 1 })

/-- The command word an action puts on the command port. -/
def offeredBy : HostAct → Option PortWord
  | .emit _ => none
  | .issue i => some (encode i)
  | .takeId _ => none
  | .compareIds => none
  | .enterSampling => none
  | .takeTemp _ => none
  | .accumulate => none
  | .progress => none
  | .nextTick => none

/-- The register of the block an action reads, by its number at the read port (rules R21, R140): `RXDATA`, or `TEMP` of a
context. -/
def numberRead : HostAct → Option Byte
  | .emit _ => none
  | .issue _ => none
  | .takeId _ => some 0x01#8
  | .compareIds => none
  | .enterSampling => none
  | .takeTemp x => some (if x = 0 then 0x16#8 else 0x1E#8)
  | .accumulate => none
  | .progress => none
  | .nextTick => none

/-- Every register an action reads holds a value (rules R12, R166). -/
def readsHeld (s : State) (a : HostAct) : Bool :=
  match numberRead a with
  | some n => portHeld n s
  | none => true

/-- The state after an action of the host: it changes its own state and offers at most one command word (log 12). -/
def afterAct (s : State) (a : HostAct) : State :=
  ({ s with session := sessionAct s a, port := offeredBy a }).used (readsHeld s a)

/-- One action of the host. One that reads a register that holds no value takes what is there and is marked, or under the
spec's guard is refused with reason `UnwrittenRegister` (rules R12, R166; log 17). A host whose session has not been started,
or that has reached a terminal state, does nothing. -/
def hostStep (s : State) : Host.Outcome State Fault Refusal :=
  if s.session.running then
    match (hostProgram s)[s.session.pc]? with
    | some a => if s.mayUse (readsHeld s a) then .next (afterAct s a) else .refused .unwrittenRegister
    | none => .next s
  else .next s

/-- The session start of rule R142, an event from outside the machine (log 5). -/
def startSession (s : State) : State := { s with session := { s.session with running := true } }

end Sys2Proof.Machine
end

