-- ==== Sys2Proof/Machine/Step.lean ====
section
/-! DEFINITION. One step of the machine: an ill-formed configuration is refused before any command (rule R6), a hung
block waits for ever (rule R163; log 6), a word at the command port is taken, decoded and run (rules R55, R57), a read asked at
the read port is served (rule R21), and otherwise the host acts (rule R10). -/

namespace Sys2Proof.Machine

/-- The instruction step fetches is the word offered at the command side, taken off the port as the block accepts it
(rules R55, R61). -/
def step (s : State) : Host.Outcome State Fault Refusal :=
  if cfgWellFormed s.cfg then
    if statusBusy s.status then .next s
    else
      match s.port with
      | some p =>
        match decode p with
        | .ok i => exec i { s with port := none }
        | .error why => .refused (.reservedCommand why)
      | none =>
        match s.readAsked with
        | some n => readStep n s
        | none => hostStep s
  else .refused .illFormedConfig

/-- The `nbits` bits `w` of a row of the opcode table offered at the command side (log 5). -/
def State.withFetchWord (s : State) (nbits w : Nat) : State :=
  match portWordOf nbits w with
  | some p => { s with port := some p }
  | none => s

end Sys2Proof.Machine
end

