-- ==== Sys2Proof/Safety.lean ====
section
/-! DEFINITION. The terms claims about TWSFE are stated in: the answers of the environment to a frame and the events of a
frame (rules R53, R54), the named premises on the environment (rule R34), where the spec refuses a command (rules R166,
R167), the invariant of the machine, and what one run may share with another (rule R164). -/

namespace Sys2Proof.Safety

open Sys2Proof.Machine

/-! ### Frames -/

/-- What the environment answered to a read frame (rule R54): the three ack bits and the byte received. -/
structure ReadReply where
  a1 : Bool
  a2 : Bool
  a3 : Bool
  byte : Byte
deriving DecidableEq, Repr

/-- What the environment answered to a write frame (rule R53). -/
structure WriteReply where
  a1 : Bool
  a2 : Bool
  a3 : Bool
deriving DecidableEq, Repr

/-- The environment's answers to the seven calls of a read frame, and the environment after them; `none` when one of
them is `never` (rules R33, R92). -/
def readAnswers (c : Cfg) (d r : Byte) (e : Env) : Option (ReadReply × Env) :=
  match e.onStart with
  | none => none
  | some e1 =>
    match e1.onSend c .started (addrWrite d) with
    | none => none
    | some (a1, e2) =>
      match e2.onSend c .tx r with
      | none => none
      | some (a2, e3) =>
        match e3.onStart with
        | none => none
        | some e4 =>
          match e4.onSend c .started (addrRead d) with
          | none => none
          | some (a3, e5) =>
            match e5.onRecv false with
            | none => none
            | some (b, e6) =>
              match e6.onStop with
              | none => none
              | some e7 => some ({ a1 := a1, a2 := a2, a3 := a3, byte := b }, e7)

/-- The environment's answers to the five calls of a write frame (rules R33, R91). -/
def writeAnswers (c : Cfg) (d r v : Byte) (e : Env) : Option (WriteReply × Env) :=
  match e.onStart with
  | none => none
  | some e1 =>
    match e1.onSend c .started (addrWrite d) with
    | none => none
    | some (a1, e2) =>
      match e2.onSend c .tx r with
      | none => none
      | some (a2, e3) =>
        match e3.onSend c .tx v with
        | none => none
        | some (a3, e4) =>
          match e4.onStop with
          | none => none
          | some e5 => some ({ a1 := a1, a2 := a2, a3 := a3 }, e5)

/-- The seven events of a read frame (the table of rule R54). -/
def readEvents (d r : Byte) (f : ReadReply) : List BusEvent :=
  [.s, .w (d ||| 0#8) f.a1, .w r f.a2, .sr, .w (d ||| 1#8) f.a3, .r f.byte false, .p]

/-- The five events of a write frame (the table of rule R53). -/
def writeEvents (d r v : Byte) (f : WriteReply) : List BusEvent :=
  [.s, .w (d ||| 0#8) f.a1, .w r f.a2, .w v f.a3, .p]

/-! ### Premises on the environment (rule R34) -/

/-- `Responsive`: no call answers `never`: neither one the script answers nor one after it, whose number is the number of
calls asked so far (log 3). -/
def Responsive (e : Env) : Prop :=
  e.kind = .simulated ∨
    ((∀ r ∈ e.script, r.completes = true) ∧ ∀ n, e.draws + e.script.length ≤ n → Config.phaseCompletes n = true)

/-- Where a watcher of the bus stands with one device: whether the next byte sent is an address byte, whether the device
is addressed and in which direction (`true` is read), its register pointer where the frame so far settles it, and whether
the next data byte sets it. -/
structure Watch where
  address : Bool
  selected : Option Bool
  pointer : Option Byte
  expectsPointer : Bool
deriving DecidableEq, Repr

/-- A watcher before any event. -/
def Watch.fresh : Watch where
  address := false
  selected := none
  pointer := none
  expectsPointer := false

/-- The watcher of the device at bus address `own` after one event. The register a device addresses is settled from the
register-address byte of a frame, through a repeated start, to the first byte received, data byte written or stop after it.
Past that the spec leaves it open (whether the pointer moves on or outlives a stop: N7, U19), and so does the watcher: it
knows no pointer, and `presentAnswer` admits any byte. DESIGN CHOICE, safe (log 16). -/
def watchNext (own : Byte) (w : Watch) : BusEvent → Watch
  | .s => { w with address := true, selected := none, pointer := none }
  | .sr => { w with address := true, selected := none }
  | .w b _ =>
    if w.address then
      { w with
        address := false
        selected := if addr7 b = addr7 own then some (directionRead b) else none
        expectsPointer := true }
    else if w.selected = some false then
      { w with pointer := if w.expectsPointer then some b else none, expectsPointer := false }
    else w
  | .r _ _ => if w.selected = some true then { w with pointer := none } else w
  | .p => { w with address := false, selected := none, pointer := none }

/-- What a present device's answer to one event is (rule R34): it acknowledges its own address byte and every byte sent
to it, and a byte received from it is the content of its addressed register at that moment. Where the spec leaves open
which register that is (a second byte of one read, a read in a later frame that sends no register address), any byte is
admitted (log 16). -/
def presentAnswer (own : Byte) (content : Byte → Byte) (w : Watch) : BusEvent → Prop
  | .s => True
  | .sr => True
  | .w b a =>
    if w.address then (addr7 b = addr7 own → a = true) else (w.selected = some false → a = true)
  | .r b _ => ∀ q, w.selected = some true → w.pointer = some q → b = content q
  | .p => True

/-- `Present(i)` over a stretch of the history (rule R34): the device at `own` answers as a present one, `content n q`
being what its register `q` holds at the `n`-th event, which the device may change on its own (rule R35). -/
def Present (own : Byte) (content : Nat → Byte → Byte) : Nat → Watch → List BusEvent → Prop
  | _, _, [] => True
  | n, w, e :: es => presentAnswer own (content n) w e ∧ Present own content (n + 1) (watchNext own w e) es

/-! ### Refusals (rules R166, R167) -/

/-- The refusal the spec gives a command in a state, the checks in the order of rule R167: the command word, then the
state of the bus, then the operands. `UnwrittenRegister` stands under the spec's guard; without it the command runs, as on
the hardware, and is marked (log 17). The two address bytes are no commands of the spec's; their `IllegalPhase` is the
model's (DEDUCED, log 4). -/
def specRefusal (i : Instr) (s : State) : Option Refusal :=
  match i with
  | .start => if startLegal s.phase then none else some .illegalPhase
  | .sendbyte _ => if sendLegal s.phase then none else some .illegalPhase
  | .recvbyte _ => if recvLegal s.phase then none else some .illegalPhase
  | .stop => if stopLegal s.phase then none else some .illegalPhase
  | .writereg d _ _ =>
    if isDeviceAddr d then (if s.phase = .idle then none else some .busNotIdle)
    else some (.reservedCommand .oddDevice)
  | .readreg d _ =>
    if isDeviceAddr d then (if s.phase = .idle then none else some .busNotIdle)
    else some (.reservedCommand .oddDevice)
  | .loadcal _ => if s.phase = .idle then none else some .busNotIdle
  | .readraw _ => if s.phase = .idle then none else some .busNotIdle
  | .compensate x => if compensable (s.ctx x) then none else some .unwrittenRegister
  | .addrW _ => if s.phase = .started then none else some .illegalPhase
  | .addrR _ => if s.phase = .started then none else some .illegalPhase

/-- A state the spec backs claims about: nothing in its run used a register that held no value (rule R166). -/
def Backed (s : State) : Prop := s.unwrittenUse = false

/-! ### The invariant -/

/-- How many primitives a command is made of (rules R50, R91, R92, R102, R111, R124). -/
def primitiveCount : Instr → Nat
  | .start => 1
  | .sendbyte _ => 1
  | .recvbyte _ => 1
  | .stop => 1
  | .writereg _ _ _ => 5
  | .readreg _ _ => 7
  | .loadcal _ => 42
  | .readraw _ => 21
  | .compensate _ => 0
  | .addrW _ => 1
  | .addrR _ => 1

/-- The events of a read frame as they stand before the bus has returned anything: ack bits and byte left out (rule R54). -/
def readShapes (d r : Byte) : List BusEvent :=
  [.s, .w (addrWrite d) false, .w r false, .sr, .w (addrRead d) false, .r 0 false, .p]

/-- The events of a command, one for each of its primitives, fixed when it is accepted but for what the bus returns, which is
left out (rule R164; rules R72 to R75, R91, R92, R102, R111, R124). -/
def commandShapes (i : Instr) (s : State) : List BusEvent :=
  match i with
  | .start => [if s.phase = .idle then .s else .sr]
  | .sendbyte b => [.w b false]
  | .recvbyte k => [.r 0 k]
  | .stop => [.p]
  | .writereg d r v => [.s, .w (addrWrite d) false, .w r false, .w v false, .p]
  | .readreg d r => readShapes d r
  | .loadcal x =>
    let d := (s.ctx x).devaddr
    readShapes d s.cfg.regT1 ++ (readShapes d (regPlus s.cfg.regT1 1)
      ++ (readShapes d s.cfg.regT2 ++ (readShapes d (regPlus s.cfg.regT2 1)
      ++ (readShapes d s.cfg.regT3 ++ readShapes d (regPlus s.cfg.regT3 1)))))
  | .readraw x =>
    let d := (s.ctx x).devaddr
    readShapes d s.cfg.regTemp ++ (readShapes d (regPlus s.cfg.regTemp 1) ++ readShapes d (regPlus s.cfg.regTemp 2))
  | .compensate _ => []
  | .addrW a7 => [.w (addrByte a7 false) false]
  | .addrR a7 => [.w (addrByte a7 true) false]

/-- `PHASE` after an event (the table of rule R71). -/
def phaseAfter (p : Phase) : BusEvent → Phase
  | .s => .started
  | .sr => .started
  | .w b _ => if p = .started then (if b.getLsbD 0 then .rx else .tx) else p
  | .r _ k => if k then .rx else .rxend
  | .p => .idle

/-- `PHASE` as the history alone tells it. -/
def phaseOfTrace (t : List BusEvent) : Phase := t.foldl phaseAfter .idle

/-- The bus side of the invariant: `PHASE` is what `TRACE` tells, `OWNED` says whether the bus is owned (rules R16, R18),
the reserved bits of `STATUS` are 0 (rule R16), and `SEQ` is there just while `BUSY = 1` and names a primitive of its
command (rule R19). -/
def BusInv (s : State) : Prop :=
  phaseOfTrace s.trace = s.phase
  ∧ statusOwned s.status = decide (s.phase ≠ .idle)
  ∧ statusReserved s.status = 0
  ∧ statusBusy s.status = s.seq.isSome
  ∧ ∀ q, s.seq = some q → q.k < primitiveCount q.cmd

/-- The registers' side: `DEVADDR` is the configuration's (rule R20), `TEMP` and the host's accumulator are values of the
format `CFG.FPFMT` (rules R11, R141), the constants of a triple are held together (rule R102) and so are the two results
(rule R124). -/
def RegInv (s : State) : Prop :=
  (∀ x, (s.ctx x).devaddr = devAddrOf s.cfg x)
  ∧ (∀ x, (s.ctx x).temp.format = s.cfg.fpfmt)
  ∧ s.session.temp1.format = s.cfg.fpfmt ∧ s.session.temp2.format = s.cfg.fpfmt ∧ s.session.sum.format = s.cfg.fpfmt
  ∧ (∀ x, (s.ctx x).held.t2 = (s.ctx x).held.t1 ∧ (s.ctx x).held.t3 = (s.ctx x).held.t1
      ∧ (s.ctx x).held.temp = (s.ctx x).held.tfine)

/-- The memory's side: the registers of both simulated devices are in canonical form. -/
def MemInv (s : State) : Prop := ∀ j, Memory.wf (s.env.sim j).regs = true

/-- The invariant of the machine. -/
def Inv (s : State) : Prop := BusInv s ∧ RegInv s ∧ MemInv s

/-- The host's count of samples is the number of its completed ticks, and one more once the tick at hand has accumulated
(rule R141: "`sampleCount` equals number of completed ticks"). -/
def SampleInv (s : State) : Prop :=
  match s.session.state with
  | .idle => s.session.count = 0
  | .calibrationPending => s.session.count = 0
  | .sampling =>
    s.session.tick < Config.nTicks ∧ s.session.count = s.session.tick + (if 7 ≤ s.session.pc then 1 else 0)
  | .complete => s.session.tick = Config.nTicks ∧ s.session.count = Config.nTicks
  | .fault => s.session.count = 0

/-! ### Two runs (rule R164) -/

/-- An event with everything the bus returned taken out of it. -/
def eventShape : BusEvent → BusEvent
  | .s => .s
  | .sr => .sr
  | .w b _ => .w b false
  | .r _ k => .r 0 k
  | .p => .p

/-- Two states that differ only in what the bus has returned and will return: the ack bits, the bytes received and what
was computed from them. Both face an unconstrained environment whose calls complete alike. -/
def SameButReturned (s t : State) : Prop :=
  s.cfg = t.cfg
  ∧ s.ctx0.devaddr = t.ctx0.devaddr ∧ s.ctx1.devaddr = t.ctx1.devaddr
  ∧ s.ctx0.held = t.ctx0.held ∧ s.ctx1.held = t.ctx1.held ∧ s.rxHeld = t.rxHeld ∧ s.ackHeld = t.ackHeld
  ∧ s.readAsked = t.readAsked ∧ s.guarded = t.guarded ∧ s.unwrittenUse = t.unwrittenUse
  ∧ s.phase = t.phase ∧ s.seq = t.seq
  ∧ statusBusy s.status = statusBusy t.status ∧ statusOwned s.status = statusOwned t.status
  ∧ s.trace.map eventShape = t.trace.map eventShape
  ∧ s.env.kind = .unconstrained ∧ t.env.kind = .unconstrained
  ∧ s.env.draws = t.env.draws
  ∧ s.env.script.map Reply.completes = t.env.script.map Reply.completes

/-! ### Sequences of commands -/

/-- Runs commands one after the other, each when the one before it has completed; `none` when one is refused or hangs. -/
def execAll : List Instr → State → Option State
  | [], s => some s
  | i :: is, s =>
    match exec i s with
    | .next t => if statusBusy t.status then none else execAll is t
    | .fault _ => none
    | .refused _ => none

end Sys2Proof.Safety
end

