-- ==== Sys2Proof/Certificates/Slice0/Obligations.lean ====
section
/-! DEFINITION. The statements for the provers, one per numbered rule or group of rules of the spec: encodings, the step,
reset, the four primitives, the register accesses, the sensor functions, the compensator, frames, refusals, hangs,
invariants, the host program and the read port. OBLIGATIONS.json lists them. -/

open Sys2Proof Sys2Proof.Machine Sys2Proof.Safety

/-! ### Encoding -/

/-- Rules R51, R55, R56, R59: no bit of an encoding is dropped. -/
def Obligations.EncodedInstructionDecodesBack : Prop :=
  ∀ i : Instr, i.wellFormed = true → decode (encode i) = .ok i

/-- Rules R55 to R57: a word has one meaning at most, and no other word has it. -/
def Obligations.DecodedWordEncodesBack : Prop :=
  ∀ (p : PortWord) (i : Instr), decode p = .ok i → encode i = p ∧ i.wellFormed = true

/-- Rule R57, whole: which command words are reserved, and that each is refused with reason `ReservedCommand`. -/
def Obligations.ReservedWordsAreRefused : Prop :=
  ∀ w : BitVec 32,
    ((∃ why, decode (.cw w) = .error why) ↔
      (w.extractLsb' 28 4 = 0 ∨ 0xA ≤ (w.extractLsb' 28 4).toNat
        ∨ w.extractLsb' 24 4 ≠ 0
        ∨ ((w.extractLsb' 28 4 = 1 ∨ w.extractLsb' 28 4 = 4) ∧ w.extractLsb' 0 24 ≠ 0)
        ∨ (w.extractLsb' 28 4 = 2 ∧ w.extractLsb' 8 16 ≠ 0)
        ∨ ((w.extractLsb' 28 4 = 3 ∨ 7 ≤ (w.extractLsb' 28 4).toNat) ∧ w.extractLsb' 1 23 ≠ 0)
        ∨ ((w.extractLsb' 28 4 = 5 ∨ w.extractLsb' 28 4 = 6) ∧ w.getLsbD 16 = true)
        ∨ (w.extractLsb' 28 4 = 6 ∧ w.extractLsb' 0 8 ≠ 0)))
    ∧ ∀ (s : State) (why : Reserved), cfgWellFormed s.cfg = true → statusBusy s.status = false →
        s.port = some (.cw w) → decode (.cw w) = .error why → step s = .refused (.reservedCommand why)

/-- Each row of spec/opcode_table.json, its mask and match against the decoder. -/
def Obligations.OpcodeTableRowsDecode : Prop :=
  ∀ (w : BitVec 32) (b : Byte),
    (w &&& 0xFFFFFFFF#32 = 0x10000000#32 ↔ decode (.cw w) = .ok .start)
    ∧ (w &&& 0xFFFFFF00#32 = 0x20000000#32 ↔ ∃ v, decode (.cw w) = .ok (.sendbyte v))
    ∧ (w &&& 0xFFFFFFFE#32 = 0x30000000#32 ↔ ∃ k, decode (.cw w) = .ok (.recvbyte k))
    ∧ (w &&& 0xFFFFFFFF#32 = 0x40000000#32 ↔ decode (.cw w) = .ok .stop)
    ∧ (w &&& 0xFF010000#32 = 0x50000000#32 ↔ ∃ d r v, decode (.cw w) = .ok (.writereg d r v))
    ∧ (w &&& 0xFF0100FF#32 = 0x60000000#32 ↔ ∃ d r, decode (.cw w) = .ok (.readreg d r))
    ∧ (w &&& 0xFFFFFFFE#32 = 0x70000000#32 ↔ ∃ x, decode (.cw w) = .ok (.loadcal x))
    ∧ (w &&& 0xFFFFFFFE#32 = 0x80000000#32 ↔ ∃ x, decode (.cw w) = .ok (.readraw x))
    ∧ (w &&& 0xFFFFFFFE#32 = 0x90000000#32 ↔ ∃ x, decode (.cw w) = .ok (.compensate x))
    ∧ (b &&& 0x01#8 = 0x00#8 ↔ ∃ a7, decode (.wire b) = .ok (.addrW a7))
    ∧ (b &&& 0x01#8 = 0x01#8 ↔ ∃ a7, decode (.wire b) = .ok (.addrR a7))

/-- Vectors V1 to V10 of 95_test_vectors.md and two address bytes of its section 2.1: words written out from rules R51
and R56. -/
def Obligations.WordsOfTheVectorsDecode : Prop :=
  decode (.cw 0x10000000#32) = .ok .start
  ∧ decode (.cw 0x200000EC#32) = .ok (.sendbyte 0xEC#8)
  ∧ decode (.cw 0x30000000#32) = .ok (.recvbyte false)
  ∧ decode (.cw 0x30000001#32) = .ok (.recvbyte true)
  ∧ decode (.cw 0x40000000#32) = .ok .stop
  ∧ decode (.cw 0x50ECE0B6#32) = .ok (.writereg 0xEC#8 0xE0#8 0xB6#8)
  ∧ decode (.cw 0x60EED000#32) = .ok (.readreg 0xEE#8 0xD0#8)
  ∧ decode (.cw 0x70000001#32) = .ok (.loadcal 1)
  ∧ decode (.cw 0x80000000#32) = .ok (.readraw 0)
  ∧ decode (.cw 0x90000001#32) = .ok (.compensate 1)
  ∧ decode (.wire 0xEC#8) = .ok (.addrW 0x76#7)
  ∧ decode (.wire 0xEF#8) = .ok (.addrR 0x77#7)

/-! ### The step -/

/-- The command transport of 30_encoding.md: a word offered while no command is in flight is accepted and its instruction
run. That the port is empty from then on is the model's choice (log 5), and so is that a lone address byte can be offered
and is run (log 4, DEDUCED, unsafe for just such a claim). -/
def Obligations.StepRunsTheDecodedInstruction : Prop :=
  ∀ (s : State) (p : PortWord) (i : Instr), cfgWellFormed s.cfg = true → statusBusy s.status = false →
    s.port = some p → decode p = .ok i → step s = exec i { s with port := none }

/-- The model's choice, log 5 (the spec has no fetch), and log 4 for the address bytes: the word `withFetchWord` places is
the one the very next step runs. -/
def Obligations.PlacedTableWordRunsNext : Prop :=
  ∀ (s : State) (nbits w : Nat) (i : Instr), cfgWellFormed s.cfg = true → statusBusy s.status = false →
    decodeTableWord nbits w = some i → step (s.withFetchWord nbits w) = exec i { s with port := none }

/-- Rules R6, R166: an ill-formed configuration is refused before any command, whatever else holds. -/
def Obligations.IllFormedConfigurationIsRefused : Prop :=
  ∀ s : State,
    (s.cfg.devAddr0 = s.cfg.devAddr1 ∨ s.cfg.devAddr0.getLsbD 0 = true ∨ s.cfg.devAddr1.getLsbD 0 = true
      ∨ s.cfg.regT1 = 0xFF#8 ∨ s.cfg.regT2 = 0xFF#8 ∨ s.cfg.regT3 = 0xFF#8
      ∨ s.cfg.regTemp = 0xFE#8 ∨ s.cfg.regTemp = 0xFF#8) ↔
    step s = .refused .illFormedConfig

/-- Rule R163: a hung block waits for ever: no run of any length moves it. That a state with `BUSY = 1` is a hung one, and
that its step answers that same state and not nothing, is the model's reading (log 6, DEDUCED: one step is one whole command,
so no state lies inside a command that completes). -/
def Obligations.HungBlockWaitsForEver : Prop :=
  ∀ (s : State) (n : Nat), cfgWellFormed s.cfg = true → statusBusy s.status = true →
    Host.Core.run core n s = .next s

/-- Rules R142, R149, R180: with no command handed to it and no read asked, a block whose host has not started, or has
reached `Complete` or `Fault`, does nothing for ever: no further command is issued and nothing changes any more. -/
def Obligations.NothingHappensWithoutACommand : Prop :=
  ∀ (s : State) (n : Nat), cfgWellFormed s.cfg = true → s.port = none → s.readAsked = none →
    s.session.running = false ∨ s.session.state = .complete ∨ s.session.state = .fault →
    Host.Core.run core n s = .next s

/-! ### Reset -/

/-- Rule R24, whole: the reset value of every piece of state, for every configuration; a register the table gives `none`
is marked as holding no value. (The devices' registers are the environment's and no state of the block.) -/
def Obligations.ResetStateOfTheTable : Prop :=
  ∀ c : Cfg,
    (∀ x, ((State.resetOf c).ctx x).devaddr = devAddrOf c x ∧ ((State.resetOf c).ctx x).held = Held.none)
    ∧ (State.resetOf c).rxHeld = false
    ∧ statusBusy (State.resetOf c).status = false
    ∧ (State.resetOf c).ackHeld = false
    ∧ statusOwned (State.resetOf c).status = false
    ∧ (State.resetOf c).phase = .idle
    ∧ (State.resetOf c).seq = none
    ∧ (State.resetOf c).trace = []

/-- The model's choices, where the spec gives no value at reset: the registers hold zero (log 1), `State.reset` carries the
example record (log 2), the environment is the unconstrained one with nothing listed and no call asked (log 3), no word is
offered, no read asked or answered and the session not started (logs 5, 15), the simulated devices are as no test has set them (log 7), the host's `tick`,
identity bytes and temperatures are zero (log 12), and the machine is the hardware, without the spec's guard (log 17). -/
def Obligations.ResetValuesTheModelChose : Prop :=
  ∀ (c : Cfg) (x : CtxIx),
    ((State.resetOf c).ctx x).t1 = 0 ∧ ((State.resetOf c).ctx x).t2 = 0 ∧ ((State.resetOf c).ctx x).t3 = 0
    ∧ ((State.resetOf c).ctx x).raw = 0 ∧ ((State.resetOf c).ctx x).tfine = 0
    ∧ ((State.resetOf c).ctx x).temp = Fp.zero c.fpfmt
    ∧ (State.resetOf c).rxdata = 0 ∧ statusAck (State.resetOf c).status = false
    ∧ State.reset = State.resetOf Config.cfgExample
    ∧ (State.resetOf c).env.kind = .unconstrained ∧ (State.resetOf c).env.script = [] ∧ (State.resetOf c).env.draws = 0
    ∧ (State.resetOf c).port = none ∧ (State.resetOf c).readAsked = none ∧ (State.resetOf c).readAnswer = none ∧ (State.resetOf c).session.running = false ∧ (State.resetOf c).guarded = false
    ∧ ((State.resetOf c).env.sim x) = { regs := [], ptr := 0, sel := .off, resets := 0 }
    ∧ (State.resetOf c).session.tick = 0 ∧ (State.resetOf c).session.id1 = 0 ∧ (State.resetOf c).session.id2 = 0
    ∧ (State.resetOf c).session.temp1 = Fp.zero c.fpfmt ∧ (State.resetOf c).session.temp2 = Fp.zero c.fpfmt

/-- The invariant, the host's count and the backing of rule R166 hold at reset, for every configuration. -/
def Obligations.ResetMeetsEveryInvariant : Prop :=
  ∀ c : Cfg, Inv (State.resetOf c) ∧ SampleInv (State.resetOf c) ∧ Backed (State.resetOf c)

/-! ### The bus primitives -/

/-- Rule R72: `START` completes in a legal `PHASE` when the environment answers. -/
def Obligations.StartCompletes : Prop :=
  ∀ (s : State) (e : Env), s.phase = .idle ∨ s.phase = .tx ∨ s.phase = .rxend → s.env.onStart = some e →
    exec .start s = .next { s with
      env := e
      trace := s.trace ++ [if s.phase = .idle then .s else .sr]
      phase := .started
      status := setOwned (setBusy s.status false) true
      seq := none }

/-- Rule R73: `SENDBYTE b` completes in `STARTED` and `TX` when the environment answers (under `SIM`, when `SIM` has an
answer); the ack bit goes to `STATUS.ACK` and nowhere else (rule R76). -/
def Obligations.SendbyteCompletes : Prop :=
  ∀ (s : State) (b : Byte) (a : Bool) (e : Env), s.phase = .started ∨ s.phase = .tx →
    s.env.refusesSend s.phase = false → s.env.onSend s.cfg s.phase b = some (a, e) →
    exec (.sendbyte b) s = .next { s with
      env := e
      trace := s.trace ++ [.w b a]
      phase := if s.phase = .started then (if b.getLsbD 0 then .rx else .tx) else .tx
      status := setAck (setBusy s.status false) a
      ackHeld := true
      seq := none }

/-- Rule R74: `RECVBYTE k` completes in `RX` when the environment answers. -/
def Obligations.RecvbyteCompletes : Prop :=
  ∀ (s : State) (k : Bool) (b : Byte) (e : Env), s.phase = .rx → s.env.refusesRecv = false →
    s.env.onRecv k = some (b, e) →
    exec (.recvbyte k) s = .next { s with
      env := e
      trace := s.trace ++ [.r b k]
      phase := if k then .rx else .rxend
      rxdata := b
      rxHeld := true
      status := setBusy s.status false
      seq := none }

/-- Rule R75: `STOP` completes in `TX` and `RXEND` when the environment answers. -/
def Obligations.StopCompletes : Prop :=
  ∀ (s : State) (e : Env), s.phase = .tx ∨ s.phase = .rxend → s.env.onStop = some e →
    exec .stop s = .next { s with
      env := e
      trace := s.trace ++ [.p]
      phase := .idle
      status := setOwned (setBusy s.status false) false
      seq := none }

/-- The model's choice, log 4 (DEDUCED: the spec says the two rows are no commands), after rules R51, R73 and R76: an address
byte completes as the byte a `SENDBYTE` of the same bits sends first, and its direction bit alone fixes the direction of the
transaction. -/
def Obligations.AddressBytesComplete : Prop :=
  ∀ (s : State) (a7 : BitVec 7) (a : Bool) (e : Env), s.phase = .started →
    (s.env.onSend s.cfg .started (a7 ++ 0#1) = some (a, e) →
      exec (.addrW a7) s = .next { s with
        env := e
        trace := s.trace ++ [.w (a7 ++ 0#1) a]
        phase := .tx
        status := setAck (setBusy s.status false) a
        ackHeld := true
        seq := none })
    ∧ (s.env.onSend s.cfg .started (a7 ++ 1#1) = some (a, e) →
      exec (.addrR a7) s = .next { s with
        env := e
        trace := s.trace ++ [.w (a7 ++ 1#1) a]
        phase := .rx
        status := setAck (setBusy s.status false) a
        ackHeld := true
        seq := none })

/-- Rule R71, whole: the empty cells of the table are refused with reason `IllegalPhase`, and a primitive that completes
in any other cell leaves the `PHASE` the cell names. -/
def Obligations.PhaseTableIsKept : Prop :=
  ∀ s : State,
    (s.phase = .started ∨ s.phase = .rx → exec .start s = .refused .illegalPhase)
    ∧ (∀ b, s.phase = .idle ∨ s.phase = .rx ∨ s.phase = .rxend → exec (.sendbyte b) s = .refused .illegalPhase)
    ∧ (∀ k, s.phase = .idle ∨ s.phase = .started ∨ s.phase = .tx ∨ s.phase = .rxend →
        exec (.recvbyte k) s = .refused .illegalPhase)
    ∧ (s.phase = .idle ∨ s.phase = .started ∨ s.phase = .rx → exec .stop s = .refused .illegalPhase)
    ∧ (s.phase = .idle ∨ s.phase = .tx ∨ s.phase = .rxend →
        ∃ t, exec .start s = .next t ∧ (statusBusy t.status = false → t.phase = .started
          ∧ t.trace = s.trace ++ [if s.phase = .idle then .s else .sr]))
    ∧ (∀ b, s.phase = .started ∨ s.phase = .tx → s.env.refusesSend s.phase = false →
        ∃ t, exec (.sendbyte b) s = .next t ∧ (statusBusy t.status = false →
          (t.phase = if s.phase = .tx then .tx else if b.getLsbD 0 then .rx else .tx)
          ∧ ∃ a, t.trace = s.trace ++ [.w b a]))
    ∧ (∀ k, s.phase = .rx → s.env.refusesRecv = false →
        ∃ t, exec (.recvbyte k) s = .next t ∧ (statusBusy t.status = false →
          (t.phase = if k then .rx else .rxend) ∧ ∃ b, t.trace = s.trace ++ [.r b k]))
    ∧ (s.phase = .tx ∨ s.phase = .rxend →
        ∃ t, exec .stop s = .next t ∧ (statusBusy t.status = false → t.phase = .idle ∧ t.trace = s.trace ++ [.p]))

/-- Rule R70: a primitive the environment never answers changes nothing but `BUSY` and `SEQ`, and appends no event. -/
def Obligations.UnansweredPrimitiveHangs : Prop :=
  ∀ s : State,
    let stuck := fun i => { s with status := setBusy s.status true, seq := some { cmd := i, k := 0 } }
    (s.phase = .idle ∨ s.phase = .tx ∨ s.phase = .rxend → s.env.onStart = none → exec .start s = .next (stuck .start))
    ∧ (∀ b, s.phase = .started ∨ s.phase = .tx → s.env.onSend s.cfg s.phase b = none →
        exec (.sendbyte b) s = .next (stuck (.sendbyte b)))
    ∧ (∀ k, s.phase = .rx → s.env.onRecv k = none → exec (.recvbyte k) s = .next (stuck (.recvbyte k)))
    ∧ (s.phase = .tx ∨ s.phase = .rxend → s.env.onStop = none → exec .stop s = .next (stuck .stop))

/-! ### Register access -/

/-- Rules R53, R91: `WRITEREG` on an idle bus, every call answered. -/
def Obligations.WriteregCompletes : Prop :=
  ∀ (s : State) (d r v : Byte) (f : WriteReply) (e : Env), d.getLsbD 0 = false → s.phase = .idle →
    writeAnswers s.cfg d r v s.env = some (f, e) →
    exec (.writereg d r v) s = .next { s with
      env := e
      trace := s.trace ++ [.s, .w d f.a1, .w r f.a2, .w v f.a3, .p]
      status := setOwned (setAck (setBusy s.status false) f.a3) false
      ackHeld := true
      seq := none }

/-- Rules R54, R92: `READREG` on an idle bus, every call answered; the byte is left in `RXDATA`. -/
def Obligations.ReadregCompletes : Prop :=
  ∀ (s : State) (d r : Byte) (f : ReadReply) (e : Env), d.getLsbD 0 = false → s.phase = .idle →
    readAnswers s.cfg d r s.env = some (f, e) →
    exec (.readreg d r) s = .next { s with
      env := e
      trace := s.trace ++ [.s, .w d f.a1, .w r f.a2, .sr, .w (d ||| 0x01#8) f.a3, .r f.byte false, .p]
      rxdata := f.byte
      rxHeld := true
      status := setOwned (setAck (setBusy s.status false) f.a3) false
      ackHeld := true
      seq := none }

/-- Rules R90, R92: `READREG` completes exactly when its seven primitives issued by hand all complete, and in the same state. -/
def Obligations.ReadregIsItsSevenPrimitives : Prop :=
  ∀ (s t : State) (d r : Byte), d.getLsbD 0 = false → s.phase = .idle →
    ((exec (.readreg d r) s = .next t ∧ statusBusy t.status = false) ↔
      execAll [.start, .sendbyte (d ||| 0x00#8), .sendbyte r, .start, .sendbyte (d ||| 0x01#8), .recvbyte false, .stop] s
        = some t)

/-- Rules R90, R91: `WRITEREG` completes exactly when its five primitives issued by hand all complete, and in the same state. -/
def Obligations.WriteregIsItsFivePrimitives : Prop :=
  ∀ (s t : State) (d r v : Byte), d.getLsbD 0 = false → s.phase = .idle →
    ((exec (.writereg d r v) s = .next t ∧ statusBusy t.status = false) ↔
      execAll [.start, .sendbyte (d ||| 0x00#8), .sendbyte r, .sendbyte v, .stop] s = some t)

/-- Rules R34, R54, R92: a present device is read: whatever its register holds when the byte is sent is what `RXDATA`
takes, and its acknowledge is what `STATUS.ACK` takes. -/
def Obligations.PresentDeviceIsRead : Prop :=
  ∀ (s t : State) (d r : Byte) (content : Nat → Byte → Byte), d.getLsbD 0 = false →
    exec (.readreg d r) s = .next t → statusBusy t.status = false →
    Present d content 0 Watch.fresh (t.trace.drop s.trace.length) →
    t.rxdata = content 5 r ∧ statusAck t.status = true

/-! ### The sensor functions -/

/-- Rule R102: `LOADCAL x` on an idle bus, every call of its six frames answered: 42 events in the order T1, T2, T3, low
byte before high byte, and the triple written at the end. -/
def Obligations.LoadcalCompletes : Prop :=
  ∀ (s : State) (x : CtxIx) (f1 f2 f3 f4 f5 f6 : ReadReply) (e1 e2 e3 e4 e5 e6 : Env),
    let c := s.ctx x
    let d := c.devaddr
    d.getLsbD 0 = false → s.phase = .idle →
    readAnswers s.cfg d s.cfg.regT1 s.env = some (f1, e1) →
    readAnswers s.cfg d (s.cfg.regT1 + 1) e1 = some (f2, e2) →
    readAnswers s.cfg d s.cfg.regT2 e2 = some (f3, e3) →
    readAnswers s.cfg d (s.cfg.regT2 + 1) e3 = some (f4, e4) →
    readAnswers s.cfg d s.cfg.regT3 e4 = some (f5, e5) →
    readAnswers s.cfg d (s.cfg.regT3 + 1) e5 = some (f6, e6) →
    exec (.loadcal x) s = .next { s.setCtx x { c with
          t1 := f2.byte ++ f1.byte
          t2 := f4.byte ++ f3.byte
          t3 := f6.byte ++ f5.byte
          held := { c.held with t1 := true, t2 := true, t3 := true } } with
      env := e6
      trace := s.trace ++ (readEvents d s.cfg.regT1 f1 ++ readEvents d (s.cfg.regT1 + 1) f2
        ++ readEvents d s.cfg.regT2 f3 ++ readEvents d (s.cfg.regT2 + 1) f4
        ++ readEvents d s.cfg.regT3 f5 ++ readEvents d (s.cfg.regT3 + 1) f6)
      rxdata := f6.byte
      rxHeld := true
      status := setOwned (setAck (setBusy s.status false) f6.a3) false
      ackHeld := true
      seq := none }

/-- Rule R111: `READRAW x` on an idle bus, every call of its three frames answered: 21 events in the order MSB, LSB, extra
byte, and `RAW` written at the end. -/
def Obligations.ReadrawCompletes : Prop :=
  ∀ (s : State) (x : CtxIx) (f1 f2 f3 : ReadReply) (e1 e2 e3 : Env),
    let c := s.ctx x
    let d := c.devaddr
    d.getLsbD 0 = false → s.phase = .idle →
    readAnswers s.cfg d s.cfg.regTemp s.env = some (f1, e1) →
    readAnswers s.cfg d (s.cfg.regTemp + 1) e1 = some (f2, e2) →
    readAnswers s.cfg d (s.cfg.regTemp + 2) e2 = some (f3, e3) →
    exec (.readraw x) s = .next { s.setCtx x { c with
          raw := f1.byte ++ f2.byte ++ f3.byte.extractLsb' 4 4
          held := { c.held with raw := true } } with
      env := e3
      trace := s.trace ++ (readEvents d s.cfg.regTemp f1 ++ readEvents d (s.cfg.regTemp + 1) f2
        ++ readEvents d (s.cfg.regTemp + 2) f3)
      rxdata := f3.byte
      rxHeld := true
      status := setOwned (setAck (setBusy s.status false) f3.a3) false
      ackHeld := true
      seq := none }

/-- Rule R35: a torn read is admitted: whatever three bytes, some answers of the environment make `READRAW` assemble
them, whether or not one count ever held them. -/
def Obligations.AnyThreeBytesCanBeRead : Prop :=
  ∀ (s : State) (x : CtxIx) (msb lsb extra : Byte), (s.ctx x).devaddr.getLsbD 0 = false → s.phase = .idle →
    ∃ (script : List Reply) (t : State),
      exec (.readraw x) { s with env := { s.env with kind := .unconstrained, script := script } } = .next t
      ∧ statusBusy t.status = false ∧ (t.ctx x).raw = msb ++ lsb ++ extra.extractLsb' 4 4

/-- Rule R100: `word16` is `low + 256 * high`, as a bit string `high` above `low`. -/
def Obligations.CalibrationWordCombinesBytes : Prop :=
  ∀ low high : Byte,
    (word16 low high).toNat = low.toNat + 256 * high.toNat ∧ word16 low high = high ++ low

/-- Rule R101, whole: T1 is read as it stands, T2 and T3 are the same bits read as two's complement, and no bit changes. -/
def Obligations.CalibrationWordReadsSigned : Prop :=
  ∀ (w : BitVec 16) (c : Context),
    (asS16 w = if w.toNat < 32768 then (w.toNat : Int) else (w.toNat : Int) - 65536)
    ∧ asS16 w = w.toInt ∧ -32768 ≤ asS16 w ∧ asS16 w ≤ 32767 ∧ BitVec.ofInt 16 (asS16 w) = w
    ∧ readContext c 1 = .ok (.u16 c.t1)
    ∧ readContext c 2 = .ok (.s16 (asS16 c.t2)) ∧ readContext c 3 = .ok (.s16 (asS16 c.t3))

/-- Rule R112, whole: the three parts do not overlap, and the low nibble of the extra byte cannot affect the result. -/
def Obligations.RawCountAssemblesBytes : Prop :=
  ∀ msb lsb extra : Byte,
    (raw20 msb lsb extra).toNat = 4096 * msb.toNat + 16 * lsb.toNat + extra.toNat / 16
    ∧ raw20 msb lsb extra = msb ++ lsb ++ extra.extractLsb' 4 4
    ∧ ∀ other : Byte, other.extractLsb' 4 4 = extra.extractLsb' 4 4 → raw20 msb lsb other = raw20 msb lsb extra

/-- Rules R103 and R114, D0's worked examples of the two combinations. -/
def Obligations.WorkedByteExamples : Prop :=
  (word16 0x10#8 0x6B#8).toNat = 27408 ∧ asS16 (word16 0x10#8 0x6B#8) = 27408
  ∧ (word16 0x18#8 0xFC#8).toNat = 64536 ∧ asS16 (word16 0x18#8 0xFC#8) = -1000
  ∧ (raw20 0x5A#8 0x3C#8 0xD0#8).toNat = 369613

/-! ### The compensator -/

/-- Rules R12, R123, R124, R184: `COMPENSATE x` completes whenever its four operands hold a value, in any `PHASE`, and writes
`TEMP` and `TFINE` by the steps of the polynomial and nothing else of the block. When one of the four holds none, the hardware,
which has no guard, does the same on whatever is there, and the run is marked; under the spec's guard the command is refused
with reason `UnwrittenRegister`. That the state says which of the two is the model's choice (log 17). -/
def Obligations.CompensateCompletes : Prop :=
  ∀ (s : State) (x : CtxIx),
    let c := s.ctx x
    let f := s.cfg.fpfmt
    let r := ofInt f c.raw.toNat
    let t1 := ofInt f c.t1.toNat
    let t2 := ofInt f c.t2.toInt
    let t3 := ofInt f c.t3.toInt
    let d := fsub f (fdiv f r (ofInt f 16384)) (fdiv f t1 (ofInt f 1024))
    let var1 := fmul f d t2
    let g := fsub f (fdiv f r (ofInt f 131072)) (fdiv f t1 (ofInt f 8192))
    let var2 := fmul f (fmul f g g) t3
    let sum := fadd f var1 var2
    let result := { s.setCtx x { c with
          temp := fdiv f sum (ofInt f 5120)
          tfine := floorI32 sum
          held := { c.held with temp := true, tfine := true } } with
      status := setBusy s.status false
      seq := none }
    (c.held.raw = true → c.held.t1 = true → c.held.t2 = true → c.held.t3 = true →
      exec (.compensate x) s = .next result)
    ∧ (c.held.raw = false ∨ c.held.t1 = false ∨ c.held.t2 = false ∨ c.held.t3 = false →
      (s.guarded = false → exec (.compensate x) s = .next { result with unwrittenUse := true })
      ∧ (s.guarded = true → exec (.compensate x) s = .refused .unwrittenRegister))
    ∧ compensateUnguarded x s = { result with unwrittenUse := s.unwrittenUse || !compensable (s.ctx x) }

/-- Rule R129, whole (and rule R120): the results depend on the four registers and the format alone. -/
def Obligations.CompensationIsPure : Prop :=
  ∀ (s t s' t' : State) (x y : CtxIx), s.cfg.fpfmt = t.cfg.fpfmt → (s.ctx x).raw = (t.ctx y).raw →
    (s.ctx x).t1 = (t.ctx y).t1 → (s.ctx x).t2 = (t.ctx y).t2 → (s.ctx x).t3 = (t.ctx y).t3 →
    exec (.compensate x) s = .next s' → exec (.compensate y) t = .next t' →
    (s'.ctx x).temp = (t'.ctx y).temp ∧ (s'.ctx x).tfine = (t'.ctx y).tfine

/-- Rule R122: every operand and constant of the polynomial is converted exactly, in both formats. -/
def Obligations.OperandsConvertExactly : Prop :=
  ∀ (f : FpFormat) (n : Int), n.natAbs < 2 ^ 20 →
    fpDatum (ofInt f n) = .fin (decide (n < 0)) (n.natAbs : Rat)

/-- Rule R121: each operation on finite operands is the exact rational result with the sign IEEE 754 gives it (rule R128),
rounded once; that rounding is to nearest: of all finite magnitudes of the format none is nearer, and of two equally near the
one chosen has an even significand (an even pattern); and it is to infinity exactly from half a step above the greatest finite
magnitude. -/
def Obligations.RoundingIsToNearestEven : Prop :=
  ∀ f : FpFormat,
    let limit : Rat := match f with
      | .binary32 => 2 ^ 128 - 2 ^ 103
      | .binary64 => 2 ^ 1024 - 2 ^ 970
    let rounded : Bool → Rat → Fp := fun neg q => fpOfPattern f (signed f neg (roundPattern f q))
    (∀ (x y : Fp) (a b : Bool) (p q : Rat), fpDatum x = .fin a p → fpDatum y = .fin b q →
      let u := signedValue a p
      let v := signedValue b q
      fadd f x y = rounded (if u + v = 0 then a && b else decide (u + v < 0)) |u + v|
      ∧ fsub f x y = rounded (if u - v = 0 then a && !b else decide (u - v < 0)) |u - v|
      ∧ fmul f x y = rounded (a != b) (p * q)
      ∧ (q ≠ 0 → fdiv f x y = rounded (a != b) (p / q)))
    ∧ ∀ q : Rat, 0 ≤ q →
      (q < limit → roundPattern f q < fpInfPattern f
        ∧ (∀ neg, fpDatum (rounded neg q) = .fin neg (magOfPattern f (roundPattern f q)))
        ∧ ∀ n, n < fpInfPattern f →
          |magOfPattern f (roundPattern f q) - q| ≤ |magOfPattern f n - q|
          ∧ (|magOfPattern f (roundPattern f q) - q| = |magOfPattern f n - q| → n ≠ roundPattern f q →
              roundPattern f q % 2 = 0))
      ∧ (limit ≤ q → ∀ neg, fpDatum (rounded neg q) = .inf neg)

/-- Rule R126, first two points: `a`, `b`, `c`, `e`, and both differences `d` and `g`, are exact in both formats, and
`g = d / 8`. -/
def Obligations.DifferencesAreExact : Prop :=
  ∀ (f : FpFormat) (raw : BitVec 20) (t1 : BitVec 16),
    let value : Fp → Option Rat := fun x =>
      match fpDatum x with
      | .fin neg mag => some (signedValue neg mag)
      | .inf _ => none
      | .nan => none
    let a := fdiv f (ofInt f raw.toNat) (ofInt f 16384)
    let b := fdiv f (ofInt f t1.toNat) (ofInt f 1024)
    let c := fdiv f (ofInt f raw.toNat) (ofInt f 131072)
    let e := fdiv f (ofInt f t1.toNat) (ofInt f 8192)
    value a = some ((raw.toNat : Rat) / 16384) ∧ value b = some ((t1.toNat : Rat) / 1024)
    ∧ value c = some ((raw.toNat : Rat) / 131072) ∧ value e = some ((t1.toNat : Rat) / 8192)
    ∧ value (fsub f a b) = some ((raw.toNat : Rat) / 16384 - (t1.toNat : Rat) / 1024)
    ∧ value (fsub f c e) = some (((raw.toNat : Rat) / 16384 - (t1.toNat : Rat) / 1024) / 8)

/-- Rules R125, R126, R128: for every operand in range the sum is finite and at most `2^22` in magnitude, the temperature
is finite and at most `819.2`, and the fine temperature is the mathematical floor of the rounded sum. -/
def Obligations.CompensationStaysInRange : Prop :=
  ∀ (f : FpFormat) (raw : BitVec 20) (t1 t2 t3 : BitVec 16),
    (∃ neg mag, fpDatum (compSum f raw t1 t2 t3) = .fin neg mag ∧ 0 ≤ mag ∧ mag ≤ 2 ^ 22
      ∧ (comp f raw t1 t2 t3).2.toInt = ⌊signedValue neg mag⌋)
    ∧ ∃ neg mag, fpDatum (comp f raw t1 t2 t3).1 = .fin neg mag ∧ 0 ≤ mag ∧ mag ≤ 8192 / 10

/-- Rule R125: `floor_i32` of every finite value whose floor is an `s32`. -/
def Obligations.FloorIsTowardMinusInfinity : Prop :=
  ∀ (x : Fp) (neg : Bool) (mag : Rat), fpDatum x = .fin neg mag →
    -(2 ^ 31) ≤ ⌊signedValue neg mag⌋ → ⌊signedValue neg mag⌋ < 2 ^ 31 →
    (floorI32 x).toInt = ⌊signedValue neg mag⌋

/-- Rule R130, whole: D0's reference example in both formats, bit for bit and every step of the table; the exact value of
each step, which `binary64` represents; and the corrected reference temperature, 25.08 within `1e-2`, which 24.99 is not. -/
def Obligations.ReferenceExampleSteps : Prop :=
  let steps := fun f =>
    let r := ofInt f 519888
    let t1 := ofInt f 27504
    let a := fdiv f r (ofInt f 16384)
    let b := fdiv f t1 (ofInt f 1024)
    let d := fsub f a b
    let var1 := fmul f d (ofInt f 26435)
    let c := fdiv f r (ofInt f 131072)
    let e := fdiv f t1 (ofInt f 8192)
    let g := fsub f c e
    let sq := fmul f g g
    let var2 := fmul f sq (ofInt f (-1000))
    [a, b, d, var1, c, e, g, sq, var2, fadd f var1 var2]
  let value : Fp → Option Rat := fun x =>
    match fpDatum x with
    | .fin neg mag => some (signedValue neg mag)
    | .inf _ => none
    | .nan => none
  let near := fun (x : Fp) (q : Rat) => (value x).any fun v => decide (-(1 / 100) < v - q) && decide (v - q < 1 / 100)
  let result := fun f => comp f 519888#20 27504#16 26435#16 0xFC18#16
  steps .binary64 = [.double 0x403FBB4000000000#64, .double 0x403ADC0000000000#64, .double 0x40137D0000000000#64,
      .double 0x40FF7192DC000000#64, .double 0x400FBB4000000000#64, .double 0x400ADC0000000000#64,
      .double 0x3FE37D0000000000#64, .double 0x3FD7BCB090000000#64, .double 0xC0772E446CA00000#64,
      .double 0x40FF5A6497936000#64]
  ∧ (steps .binary64).map value = [some (32493 / 1024), some (1719 / 64), some (4989 / 1024), some (131884215 / 1024),
      some (32493 / 8192), some (1719 / 512), some (4989 / 8192), some (24890121 / 67108864),
      some (-3111265125 / 8388608), some (1077284224155 / 8388608)]
  ∧ result .binary64 = (.double 0x4039151D460F8000#64, 128422#32)
  ∧ value (result .binary64).1 = some (215456844831 / 8589934592)
  ∧ steps .binary32 = [.single 0x41FDDA00#32, .single 0x41D6E000#32, .single 0x409BE800#32, .single 0x47FB8C97#32,
      .single 0x407DDA00#32, .single 0x4056E000#32, .single 0x3F1BE800#32, .single 0x3EBDE584#32,
      .single 0xC3B97223#32, .single 0x47FAD325#32]
  ∧ result .binary32 = (.single 0x41C8A8EA#32, 128422#32)
  ∧ near (result .binary64).1 (2508 / 100) = true ∧ near (result .binary32).1 (2508 / 100) = true
  ∧ near (result .binary64).1 (2499 / 100) = false ∧ near (result .binary32).1 (2499 / 100) = false

/-- Rule R128 and vectors V65, V67: a zero temperature keeps its sign, and a small negative sum floors to -1. -/
def Obligations.SignedZeroAndSmallNegative : Prop :=
  comp .binary64 0#20 0#16 0xFFFB#16 0xFFF9#16 = (.double 0x8000000000000000#64, 0#32)
  ∧ comp .binary32 0#20 0#16 0xFFFB#16 0xFFF9#16 = (.single 0x80000000#32, 0#32)
  ∧ comp .binary64 0#20 1#16 1#16 0#16 = (.double 0xBE8999999999999A#64, 0xFFFFFFFF#32)
  ∧ comp .binary32 0#20 1#16 1#16 0#16 = (.single 0xB44CCCCD#32, 0xFFFFFFFF#32)

/-- Rule R131, whole: `COMPENSATE` writes `TFINE`, and no command reads it: two states that differ in `TFINE` alone answer
every command alike, up to `TFINE`. -/
def Obligations.FineTemperatureIsNeverRead : Prop :=
  let withTfine : State → BitVec 32 → BitVec 32 → State := fun s v0 v1 =>
    { s with ctx0 := { s.ctx0 with tfine := v0 }, ctx1 := { s.ctx1 with tfine := v1 } }
  ∀ (i : Instr) (s : State) (v0 v1 : BitVec 32),
    (∀ t, exec i s = .next t → ∃ w0 w1, exec i (withTfine s v0 v1) = .next (withTfine t w0 w1))
    ∧ (∀ r, exec i s = .refused r → exec i (withTfine s v0 v1) = .refused r)
    ∧ ∀ x t, exec (.compensate x) s = .next t →
        (t.ctx x).tfine = (comp s.cfg.fpfmt (s.ctx x).raw (s.ctx x).t1 (s.ctx x).t2 (s.ctx x).t3).2

/-! ### Frames -/

/-- What a hand-issued primitive and an address byte leave unchanged (rules R72 to R76): the configuration, both contexts,
the command side, the read port, the host, the guard and rule R166's mark; `RXDATA` but for `RECVBYTE`; `ACK` but for a byte sent; `OWNED` but for
`START` and `STOP`; the reserved bits; and every byte of the simulated devices but the one a data byte stores to. -/
def Obligations.FrameOfPrimitives : Prop :=
  ∀ (i : Instr) (s t : State), exec i s = .next t →
    (∃ b k a7, i = .start ∨ i = .sendbyte b ∨ i = .recvbyte k ∨ i = .stop ∨ i = .addrW a7 ∨ i = .addrR a7) →
    t.cfg = s.cfg ∧ t.ctx0 = s.ctx0 ∧ t.ctx1 = s.ctx1 ∧ t.port = s.port ∧ t.session = s.session
    ∧ statusReserved t.status = statusReserved s.status
    ∧ t.guarded = s.guarded ∧ t.unwrittenUse = s.unwrittenUse
    ∧ t.readAsked = s.readAsked ∧ t.readAnswer = s.readAnswer
    ∧ ((∀ k, i ≠ .recvbyte k) → t.rxdata = s.rxdata ∧ t.rxHeld = s.rxHeld)
    ∧ ((∃ k, i = .start ∨ i = .stop ∨ i = .recvbyte k) →
        statusAck t.status = statusAck s.status ∧ t.ackHeld = s.ackHeld)
    ∧ (i ≠ .start → i ≠ .stop → statusOwned t.status = statusOwned s.status)
    ∧ (MemInv s → ∀ (j : CtxIx) (r : Byte),
        (∀ b, i = .sendbyte b → s.env.kind = .simulated → s.phase = .tx → simStores s.cfg (s.env.sim j) b = true →
          r ≠ (s.env.sim j).ptr) →
        deviceByte t j r = deviceByte s j r)

/-- What `WRITEREG` and `READREG` leave unchanged (rules R91, R92): as above, `WRITEREG` leaves `RXDATA` too; the one byte
of the simulated devices `WRITEREG d, r, v` may store to is register `r` of the device `d` addresses, and only when `r` is
the measurement-control register; `READREG` stores nothing. -/
def Obligations.FrameOfRegisterAccess : Prop :=
  ∀ (s t : State) (d r v : Byte),
    (exec (.writereg d r v) s = .next t →
      t.cfg = s.cfg ∧ t.ctx0 = s.ctx0 ∧ t.ctx1 = s.ctx1 ∧ t.port = s.port ∧ t.session = s.session
      ∧ statusReserved t.status = statusReserved s.status
      ∧ t.guarded = s.guarded ∧ t.unwrittenUse = s.unwrittenUse
      ∧ t.readAsked = s.readAsked ∧ t.readAnswer = s.readAnswer
      ∧ t.rxdata = s.rxdata ∧ t.rxHeld = s.rxHeld
      ∧ (MemInv s → ∀ (j : CtxIx) (q : Byte),
          ¬(addr7 d = addr7 (devAddrOf s.cfg j) ∧ q = r ∧ r = s.cfg.regCtrl) → deviceByte t j q = deviceByte s j q))
    ∧ (exec (.readreg d r) s = .next t →
      t.cfg = s.cfg ∧ t.ctx0 = s.ctx0 ∧ t.ctx1 = s.ctx1 ∧ t.port = s.port ∧ t.session = s.session
      ∧ statusReserved t.status = statusReserved s.status
      ∧ t.guarded = s.guarded ∧ t.unwrittenUse = s.unwrittenUse
      ∧ t.readAsked = s.readAsked ∧ t.readAnswer = s.readAnswer
      ∧ ∀ (j : CtxIx) (q : Byte), deviceByte t j q = deviceByte s j q)

/-- What `LOADCAL x` and `READRAW x` leave unchanged (rules R102, R111): the other context; in context `x` everything but
the triple and its marks, or but `RAW` and its mark; and every byte of the simulated devices. A command that hangs leaves
context `x` whole. -/
def Obligations.FrameOfSensorReads : Prop :=
  ∀ (s t : State) (x y : CtxIx), y ≠ x →
    (exec (.loadcal x) s = .next t →
      t.cfg = s.cfg ∧ t.ctx y = s.ctx y ∧ t.port = s.port ∧ t.session = s.session
      ∧ statusReserved t.status = statusReserved s.status
      ∧ t.guarded = s.guarded ∧ t.unwrittenUse = s.unwrittenUse
      ∧ t.readAsked = s.readAsked ∧ t.readAnswer = s.readAnswer
      ∧ (t.ctx x).devaddr = (s.ctx x).devaddr ∧ (t.ctx x).raw = (s.ctx x).raw
      ∧ (t.ctx x).tfine = (s.ctx x).tfine ∧ (t.ctx x).temp = (s.ctx x).temp
      ∧ (t.ctx x).held.raw = (s.ctx x).held.raw ∧ (t.ctx x).held.tfine = (s.ctx x).held.tfine
      ∧ (t.ctx x).held.temp = (s.ctx x).held.temp
      ∧ (statusBusy t.status = true → t.ctx x = s.ctx x)
      ∧ ∀ (j : CtxIx) (q : Byte), deviceByte t j q = deviceByte s j q)
    ∧ (exec (.readraw x) s = .next t →
      t.cfg = s.cfg ∧ t.ctx y = s.ctx y ∧ t.port = s.port ∧ t.session = s.session
      ∧ statusReserved t.status = statusReserved s.status
      ∧ t.guarded = s.guarded ∧ t.unwrittenUse = s.unwrittenUse
      ∧ t.readAsked = s.readAsked ∧ t.readAnswer = s.readAnswer
      ∧ (t.ctx x).devaddr = (s.ctx x).devaddr ∧ (t.ctx x).t1 = (s.ctx x).t1 ∧ (t.ctx x).t2 = (s.ctx x).t2
      ∧ (t.ctx x).t3 = (s.ctx x).t3 ∧ (t.ctx x).tfine = (s.ctx x).tfine ∧ (t.ctx x).temp = (s.ctx x).temp
      ∧ (t.ctx x).held = { (s.ctx x).held with raw := (t.ctx x).held.raw }
      ∧ (statusBusy t.status = true → t.ctx x = s.ctx x)
      ∧ ∀ (j : CtxIx) (q : Byte), deviceByte t j q = deviceByte s j q)

/-- What `COMPENSATE x` leaves unchanged (rule R124): the bus, its history and its devices, the other context, and in
context `x` everything but `TEMP`, `TFINE` and their marks; and rule R166's mark, when its operands hold a value. -/
def Obligations.FrameOfCompensate : Prop :=
  ∀ (s t : State) (x y : CtxIx), y ≠ x → exec (.compensate x) s = .next t →
    t.cfg = s.cfg ∧ t.ctx y = s.ctx y ∧ t.rxdata = s.rxdata ∧ t.rxHeld = s.rxHeld ∧ t.ackHeld = s.ackHeld
    ∧ t.phase = s.phase ∧ t.trace = s.trace ∧ t.env = s.env ∧ t.port = s.port ∧ t.session = s.session
    ∧ statusAck t.status = statusAck s.status ∧ statusOwned t.status = statusOwned s.status
    ∧ statusReserved t.status = statusReserved s.status ∧ t.guarded = s.guarded
    ∧ t.readAsked = s.readAsked ∧ t.readAnswer = s.readAnswer
    ∧ (compensable (s.ctx x) = true → t.unwrittenUse = s.unwrittenUse)
    ∧ (t.ctx x).devaddr = (s.ctx x).devaddr ∧ (t.ctx x).t1 = (s.ctx x).t1 ∧ (t.ctx x).t2 = (s.ctx x).t2
    ∧ (t.ctx x).t3 = (s.ctx x).t3 ∧ (t.ctx x).raw = (s.ctx x).raw
    ∧ (t.ctx x).held.t1 = (s.ctx x).held.t1 ∧ (t.ctx x).held.t2 = (s.ctx x).held.t2
    ∧ (t.ctx x).held.t3 = (s.ctx x).held.t3 ∧ (t.ctx x).held.raw = (s.ctx x).held.raw

/-! ### Refusals, hangs and what is never consulted -/

/-- Rules R12, R166, R167: under the spec's guard a command is refused exactly where the spec refuses it and with the reason the
spec's order of checks gives; without the guard, as on the hardware, the same but for `UnwrittenRegister`, where it runs and
the run is marked. The one other refusal is that of a `SIM` with no answer. A step in which no word is offered and no
read asked is refused exactly when, under the guard, the host then reads a register that holds no value; without the guard it goes on and is marked.
A run that has met a refusal is refused at every later length: nothing is claimed past it. (That the state says whether there
is a guard is the model's choice, log 17. The address bytes are no commands of the spec's: their `IllegalPhase` outside
`STARTED` is the model's choice, log 4, DEDUCED.) -/
def Obligations.RefusalsAreThoseOfTheSpec : Prop :=
  (∀ (i : Instr) (s : State),
    (∀ r, specRefusal i s = some r → (r = .unwrittenRegister → s.guarded = true) → exec i s = .refused r)
    ∧ (∀ r, exec i s = .refused r → (specRefusal i s = some r ∧ (r = .unwrittenRegister → s.guarded = true))
        ∨ (r = .simNoAnswer ∧ s.env.kind = .simulated))
    ∧ (specRefusal i s = none → s.env.kind = .unconstrained → ∃ t, exec i s = .next t)
    ∧ (specRefusal i s = some .unwrittenRegister → s.guarded = false →
        ∃ t, exec i s = .next t ∧ t.unwrittenUse = true))
  ∧ (∀ s : State, cfgWellFormed s.cfg = true → statusBusy s.status = false → s.port = none → s.readAsked = none →
      let reads := s.session.running = true
        ∧ ∃ x, ((hostProgram s)[s.session.pc]? = some (.takeId x) ∧ s.rxHeld = false)
          ∨ ((hostProgram s)[s.session.pc]? = some (.takeTemp x) ∧ (s.ctx x).held.temp = false)
      (∀ r, step s = .refused r ↔ r = .unwrittenRegister ∧ s.guarded = true ∧ reads)
      ∧ (s.guarded = false → reads → ∃ t, step s = .next t ∧ t.unwrittenUse = true))
  ∧ ∀ (s : State) (r : Refusal) (m n : Nat), Host.Core.run core m s = .refused r → m ≤ n →
      Host.Core.run core n s = .refused r

/-- Rules R19, R90, R163, R164: a command that is not refused finishes with all its events, or hangs at one of its primitives
with exactly the events of those before it: the events of the command's rule, one for each primitive, up to the ack bits and
bytes the bus returned. What was in the history stays there. -/
def Obligations.EveryCommandFinishesOrHangs : Prop :=
  ∀ (i : Instr) (s t : State), exec i s = .next t →
    (commandShapes i s).length = primitiveCount i
    ∧ ∃ es, t.trace = s.trace ++ es
      ∧ ((statusBusy t.status = false ∧ t.seq = none ∧ es.map eventShape = commandShapes i s)
        ∨ (statusBusy t.status = true ∧ ∃ k < primitiveCount i, t.seq = some { cmd := i, k := k }
            ∧ es.map eventShape = (commandShapes i s).take k))

/-- Rules R34, R163: under the premise `Responsive` no command hangs, and the premise goes on holding. -/
def Obligations.ResponsiveBusNeverHangs : Prop :=
  ∀ (i : Instr) (s t : State), Responsive s.env → exec i s = .next t →
    statusBusy t.status = false ∧ Responsive t.env

/-- Rules R76, R164: no command consults anything the bus returned except to store it: two runs that differ in the ack
bits and the bytes alone take the same primitives and stop for the same reason. -/
def Obligations.NothingReturnedIsConsulted : Prop :=
  ∀ (i : Instr) (s t : State), SameButReturned s t →
    (∀ s', exec i s = .next s' → ∃ t', exec i t = .next t' ∧ SameButReturned s' t')
    ∧ ∀ r, exec i s = .refused r → exec i t = .refused r

/-! ### The simulated peripheral (rule R36; no claim about the hardware) -/

/-- Rule R36: under `SIM` a `READREG` of a device's register returns its byte, every byte sent is acknowledged, and no
register changes. -/
def Obligations.SimulatedReadReturnsTheRegister : Prop :=
  ∀ (s : State) (j : CtxIx) (r : Byte), cfgWellFormed s.cfg = true → s.env.kind = .simulated → s.phase = .idle →
    let d := devAddrOf s.cfg j
    ∃ t, exec (.readreg d r) s = .next t ∧ t.rxdata = deviceByte s j r
      ∧ t.trace = s.trace
          ++ [.s, .w d true, .w r true, .sr, .w (d ||| 0x01#8) true, .r (deviceByte s j r) false, .p]
      ∧ ∀ (k : CtxIx) (q : Byte), deviceByte t k q = deviceByte s k q

/-- Rule R36: under `SIM` a value written to the measurement-control register of a device is read back from it, and no
register of either device but that one changes. -/
def Obligations.SimulatedWriteIsReadBack : Prop :=
  ∀ (s : State) (j : CtxIx) (v : Byte), cfgWellFormed s.cfg = true → s.cfg.regReset ≠ s.cfg.regCtrl →
    s.env.kind = .simulated → s.phase = .idle → MemInv s →
    let d := devAddrOf s.cfg j
    ∃ t u, exec (.writereg d s.cfg.regCtrl v) s = .next t ∧ exec (.readreg d s.cfg.regCtrl) t = .next u
      ∧ u.rxdata = v
      ∧ ∀ (k : CtxIx) (q : Byte), ¬(k = j ∧ q = s.cfg.regCtrl) → deviceByte t k q = deviceByte s k q

/-! ### Invariants -/

/-- Rules R11, R16, R18, R19, R20: every step keeps the invariant: `PHASE` is what the history tells, `OWNED` says whether
the bus is owned, the reserved bits of `STATUS` are 0, `SEQ` names a primitive of the command in flight just while `BUSY`
is 1, `DEVADDR` is the configuration's, the floating registers are of the configured format, and the memories of the
simulated devices are canonical. -/
def Obligations.EveryStepKeepsTheInvariant : Prop :=
  ∀ s t : State, Inv s → step s = .next t → Inv t

/-- Rules R12, R17, R20, R23, R166: no step changes the configuration, the guard or a `DEVADDR`, none takes an event out of the
history or clears the mark of rule R166, and a register that holds a value goes on holding one. -/
def Obligations.ConfigurationAndHistoryAreKept : Prop :=
  ∀ s t : State, step s = .next t →
    t.cfg = s.cfg ∧ (∀ x, (t.ctx x).devaddr = (s.ctx x).devaddr) ∧ s.trace <+: t.trace
    ∧ t.guarded = s.guarded ∧ (s.unwrittenUse = true → t.unwrittenUse = true)
    ∧ (s.rxHeld = true → t.rxHeld = true) ∧ (s.ackHeld = true → t.ackHeld = true)
    ∧ ∀ x, ((s.ctx x).held.t1 = true → (t.ctx x).held.t1 = true) ∧ ((s.ctx x).held.t2 = true → (t.ctx x).held.t2 = true)
      ∧ ((s.ctx x).held.t3 = true → (t.ctx x).held.t3 = true) ∧ ((s.ctx x).held.raw = true → (t.ctx x).held.raw = true)
      ∧ ((s.ctx x).held.tfine = true → (t.ctx x).held.tfine = true)
      ∧ ((s.ctx x).held.temp = true → (t.ctx x).held.temp = true)

/-- Rule R141: every step keeps the host's invariant that `sampleCount` is the number of completed ticks. -/
def Obligations.SampleCountIsCompletedTicks : Prop :=
  ∀ s t : State, SampleInv s → step s = .next t → SampleInv t

/-! ### The host program -/

/-- Rules R142, R165: the identity comparison leads to `CalibrationPending` when both bytes are the expected one, and to
`Fault` otherwise. -/
def Obligations.IdentityCheckDecides : Prop :=
  ∀ s : State, cfgWellFormed s.cfg = true → statusBusy s.status = false → s.port = none →
    s.readAsked = none → s.session.running = true → s.session.state = .idle → s.session.pc = 5 →
    ∃ t, step s = .next t ∧ t.port = none ∧ t.session.pc = 0
      ∧ (s.session.id1 = s.cfg.expectedId ∧ s.session.id2 = s.cfg.expectedId →
          t.session.state = .calibrationPending ∧ t.session.log = s.session.log)
      ∧ (s.session.id1 ≠ s.cfg.expectedId ∨ s.session.id2 ≠ s.cfg.expectedId →
          t.session.state = .fault ∧ t.session.log = s.session.log ++ [.wiringFault])

/-- The model's choice, logs 12 and 5, for the host that issues commands (rules R140, R142, R145, R146) over the command port
(rules R55, R61): an issued command is put on the port in one step and is the very next thing the block runs, and the port is
empty once it has been accepted. -/
def Obligations.IssuedCommandRunsNext : Prop :=
  ∀ (s : State) (i : Instr), cfgWellFormed s.cfg = true → statusBusy s.status = false → s.port = none →
    s.readAsked = none → s.session.running = true → (hostProgram s)[s.session.pc]? = some (.issue i) → i.wellFormed = true →
    ∃ t, step s = .next t ∧ t.session = { s.session with pc := s.session.pc + 1 }
      ∧ t.trace = s.trace ∧ t.status = s.status ∧ t.ctx0 = s.ctx0 ∧ t.ctx1 = s.ctx1
      ∧ step t = exec i { s with session := t.session, port := none }

/-- Rule R146: what a tick does with the two temperatures: the mean is added to the sum and the sample counted. -/
def Obligations.TickAccumulatesTheMean : Prop :=
  ∀ s : State, cfgWellFormed s.cfg = true → statusBusy s.status = false → s.port = none →
    s.readAsked = none → s.session.running = true → s.session.state = .sampling → s.session.pc = 6 →
    step s = .next { s with session := { s.session with
      pc := 7
      sum := fadd s.cfg.fpfmt s.session.sum
        (fdiv s.cfg.fpfmt (fadd s.cfg.fpfmt s.session.temp1 s.session.temp2) (ofInt s.cfg.fpfmt 2))
      count := s.session.count + 1 } }

/-- Rules R147, R148: a progress line on every tick whose index is divisible by 10, the next tick or, after the 120th, the
final average and `Complete`. -/
def Obligations.TickEndsInProgressOrCompletion : Prop :=
  ∀ s : State, cfgWellFormed s.cfg = true → statusBusy s.status = false → s.port = none →
    s.readAsked = none → s.session.running = true → s.session.state = .sampling →
    (s.session.pc = 7 → ∃ t, step s = .next t ∧
      t.session.log = s.session.log ++ (if s.session.tick % 10 = 0 then [.progress s.session.tick] else []))
    ∧ (s.session.pc = 9 → s.session.tick < 119 → ∃ t, step s = .next t ∧ t.session.state = .sampling
        ∧ t.session.pc = 0 ∧ t.session.tick = s.session.tick + 1 ∧ t.session.log = s.session.log)
    ∧ (s.session.pc = 9 → s.session.tick = 119 → ∃ t, step s = .next t ∧ t.session.state = .complete
        ∧ t.session.log = s.session.log
            ++ [.finalAverage (fdiv s.cfg.fpfmt s.session.sum (ofInt s.cfg.fpfmt s.session.count))])

/-! ### The read port -/

/-- Rules R12, R21, R166: the register each number names, at its own type, read when it holds a value; when it holds none, read
as what is there, or under the spec's guard refused as `UnwrittenRegister` (log 17); and the refusal of every other number.
`STATUS` is read always: its `BUSY` and `OWNED` are those of the register, its reserved bits 0, and its `ACK` that of the
register once a byte has been sent; before that the bit is a free value (log 15), of which nothing is said. `portHeld` says
which numbers name a register that holds a value. A step that serves a read does just that: the answer stands at the read
port, the run is marked when the register held no value, and nothing else changes; a read that is refused refuses the step. -/
def Obligations.ReadPortNumbers : Prop :=
  ∀ (s : State) (n : Byte),
    let guarded : Bool → PortValue → Except Refusal PortValue := fun held v =>
      if held = false ∧ s.guarded = true then .error .unwrittenRegister else .ok v
    (∃ v, readPort 0x00#8 s = .ok (.u8 v) ∧ statusBusy v = statusBusy s.status ∧ statusOwned v = statusOwned s.status
      ∧ statusReserved v = 0 ∧ (s.ackHeld = true → statusAck v = statusAck s.status))
    ∧ readPort 0x01#8 s = guarded s.rxHeld (.u8 s.rxdata)
    ∧ (∀ x : CtxIx,
        let c := s.ctx x
        readPort (BitVec.ofNat 8 (0x10 + 8 * x.val)) s = .ok (.u8 c.devaddr)
        ∧ readPort (BitVec.ofNat 8 (0x11 + 8 * x.val)) s = guarded c.held.t1 (.u16 c.t1)
        ∧ readPort (BitVec.ofNat 8 (0x12 + 8 * x.val)) s = guarded c.held.t2 (.s16 c.t2.toInt)
        ∧ readPort (BitVec.ofNat 8 (0x13 + 8 * x.val)) s = guarded c.held.t3 (.s16 c.t3.toInt)
        ∧ readPort (BitVec.ofNat 8 (0x14 + 8 * x.val)) s = guarded c.held.raw (.u20 c.raw)
        ∧ readPort (BitVec.ofNat 8 (0x15 + 8 * x.val)) s = guarded c.held.tfine (.s32 c.tfine.toInt)
        ∧ readPort (BitVec.ofNat 8 (0x16 + 8 * x.val)) s = guarded c.held.temp (.float c.temp))
    ∧ (readPort n s = .error .reservedRegisterNumber ↔
        (2 ≤ n.toNat ∧ n.toNat < 0x10) ∨ n.toNat = 0x17 ∨ 0x1F ≤ n.toNat)
    ∧ (portHeld n s = true → ∃ v, readPort n s = .ok v)
    ∧ (s.guarded = true → (portHeld n s = true ↔ ∃ v, readPort n s = .ok v))
    ∧ (cfgWellFormed s.cfg = true → statusBusy s.status = false → s.port = none → s.readAsked = some n →
        (∀ v, readPort n s = .ok v → step s = .next { s with
          readAsked := none
          readAnswer := some v
          unwrittenUse := s.unwrittenUse || !portHeld n s })
        ∧ ∀ r, readPort n s = .error r → step s = .refused r)
end

