-- ==== Sys2Proof/Laws/Flags.lean ====
section
/-! SUPPORT. The fields of `STATUS`: each read after each write (rule R16). -/

namespace Sys2Proof.Machine

@[simp] theorem statusBusy_setBusy (v : BitVec 8) (b : Bool) : statusBusy (setBusy v b) = b := by
  cases b <;> simp [statusBusy, setBusy, putBit]
@[simp] theorem statusBusy_setAck (v : BitVec 8) (b : Bool) : statusBusy (setAck v b) = statusBusy v := by
  cases b <;> simp [statusBusy, setAck, putBit]
@[simp] theorem statusBusy_setOwned (v : BitVec 8) (b : Bool) : statusBusy (setOwned v b) = statusBusy v := by
  cases b <;> simp [statusBusy, setOwned, putBit]
@[simp] theorem statusAck_setBusy (v : BitVec 8) (b : Bool) : statusAck (setBusy v b) = statusAck v := by
  cases b <;> simp [statusAck, setBusy, putBit]
@[simp] theorem statusAck_setAck (v : BitVec 8) (b : Bool) : statusAck (setAck v b) = b := by
  cases b <;> simp [statusAck, setAck, putBit]
@[simp] theorem statusAck_setOwned (v : BitVec 8) (b : Bool) : statusAck (setOwned v b) = statusAck v := by
  cases b <;> simp [statusAck, setOwned, putBit]
@[simp] theorem statusOwned_setBusy (v : BitVec 8) (b : Bool) : statusOwned (setBusy v b) = statusOwned v := by
  cases b <;> simp [statusOwned, setBusy, putBit]
@[simp] theorem statusOwned_setAck (v : BitVec 8) (b : Bool) : statusOwned (setAck v b) = statusOwned v := by
  cases b <;> simp [statusOwned, setAck, putBit]
@[simp] theorem statusOwned_setOwned (v : BitVec 8) (b : Bool) : statusOwned (setOwned v b) = b := by
  cases b <;> simp [statusOwned, setOwned, putBit]

/-- A write below bit 3 leaves the reserved bits alone. -/
theorem statusReserved_putBit (v : BitVec 8) (n : Nat) (b : Bool) (h : n < 3) :
    statusReserved (putBit v n b) = statusReserved v := by
  have hn : n = 0 ∨ n = 1 ∨ n = 2 := by omega
  apply BitVec.eq_of_getLsbD_eq
  intro i hi
  have hi' : i = 0 ∨ i = 1 ∨ i = 2 ∨ i = 3 ∨ i = 4 := by omega
  rcases hn with rfl | rfl | rfl <;> cases b <;> rcases hi' with rfl | rfl | rfl | rfl | rfl <;>
    simp [statusReserved, putBit]

@[simp] theorem statusReserved_setBusy (v : BitVec 8) (b : Bool) : statusReserved (setBusy v b) = statusReserved v :=
  statusReserved_putBit v 0 b (by omega)
@[simp] theorem statusReserved_setAck (v : BitVec 8) (b : Bool) : statusReserved (setAck v b) = statusReserved v :=
  statusReserved_putBit v 1 b (by omega)
@[simp] theorem statusReserved_setOwned (v : BitVec 8) (b : Bool) : statusReserved (setOwned v b) = statusReserved v :=
  statusReserved_putBit v 2 b (by omega)

/-- A status word is its three fields and its reserved bits. -/
theorem status_ext (v w : BitVec 8) (h0 : statusBusy v = statusBusy w) (h1 : statusAck v = statusAck w)
    (h2 : statusOwned v = statusOwned w) (h3 : statusReserved v = statusReserved w) : v = w := by
  apply BitVec.eq_of_getLsbD_eq
  intro i hi
  have r (j : Nat) (hj : j < 5) : v.getLsbD (3 + j) = w.getLsbD (3 + j) := by
    have := congrArg (fun x => BitVec.getLsbD x j) h3
    simpa [statusReserved, hj] using this
  have hi' : i = 0 ∨ i = 1 ∨ i = 2 ∨ i = 3 ∨ i = 4 ∨ i = 5 ∨ i = 6 ∨ i = 7 := by omega
  rcases hi' with rfl | rfl | rfl | rfl | rfl | rfl | rfl | rfl
  · exact h0
  · exact h1
  · exact h2
  · exact r 0 (by omega)
  · exact r 1 (by omega)
  · exact r 2 (by omega)
  · exact r 3 (by omega)
  · exact r 4 (by omega)

end Sys2Proof.Machine
end

