-- ==== Sys2Proof/Laws/State.lean ====
section
/-! SUPPORT. One lemma per field per update of the state, so that no later proof unfolds a record update: accepting,
advancing and finishing a command, and writing the context file. -/

namespace Sys2Proof.Machine

/-! ### accept, advance, finish -/

@[simp] theorem accept_cfg (i : Instr) (s : State) : (accept i s).cfg = s.cfg := rfl
@[simp] theorem accept_ctx0 (i : Instr) (s : State) : (accept i s).ctx0 = s.ctx0 := rfl
@[simp] theorem accept_ctx1 (i : Instr) (s : State) : (accept i s).ctx1 = s.ctx1 := rfl
@[simp] theorem accept_rxdata (i : Instr) (s : State) : (accept i s).rxdata = s.rxdata := rfl
@[simp] theorem accept_rxHeld (i : Instr) (s : State) : (accept i s).rxHeld = s.rxHeld := rfl
@[simp] theorem accept_status (i : Instr) (s : State) : (accept i s).status = setBusy s.status true := rfl
@[simp] theorem accept_ackHeld (i : Instr) (s : State) : (accept i s).ackHeld = s.ackHeld := rfl
@[simp] theorem accept_phase (i : Instr) (s : State) : (accept i s).phase = s.phase := rfl
@[simp] theorem accept_seq (i : Instr) (s : State) : (accept i s).seq = some { cmd := i, k := 0 } := rfl
@[simp] theorem accept_trace (i : Instr) (s : State) : (accept i s).trace = s.trace := rfl
@[simp] theorem accept_env (i : Instr) (s : State) : (accept i s).env = s.env := rfl
@[simp] theorem accept_port (i : Instr) (s : State) : (accept i s).port = s.port := rfl
@[simp] theorem accept_session (i : Instr) (s : State) : (accept i s).session = s.session := rfl
@[simp] theorem accept_guarded (i : Instr) (s : State) : (accept i s).guarded = s.guarded := rfl
@[simp] theorem accept_unwrittenUse (i : Instr) (s : State) : (accept i s).unwrittenUse = s.unwrittenUse := rfl
@[simp] theorem accept_readAsked (i : Instr) (s : State) : (accept i s).readAsked = s.readAsked := rfl
@[simp] theorem accept_readAnswer (i : Instr) (s : State) : (accept i s).readAnswer = s.readAnswer := rfl
@[simp] theorem accept_ctx (i : Instr) (s : State) (x : CtxIx) : (accept i s).ctx x = s.ctx x := rfl

@[simp] theorem advance_cfg (s : State) : (advance s).cfg = s.cfg := rfl
@[simp] theorem advance_ctx0 (s : State) : (advance s).ctx0 = s.ctx0 := rfl
@[simp] theorem advance_ctx1 (s : State) : (advance s).ctx1 = s.ctx1 := rfl
@[simp] theorem advance_rxdata (s : State) : (advance s).rxdata = s.rxdata := rfl
@[simp] theorem advance_rxHeld (s : State) : (advance s).rxHeld = s.rxHeld := rfl
@[simp] theorem advance_status (s : State) : (advance s).status = s.status := rfl
@[simp] theorem advance_ackHeld (s : State) : (advance s).ackHeld = s.ackHeld := rfl
@[simp] theorem advance_phase (s : State) : (advance s).phase = s.phase := rfl
@[simp] theorem advance_seq (s : State) : (advance s).seq = s.seq.map fun q => { q with k := q.k + 1 } := rfl
@[simp] theorem advance_trace (s : State) : (advance s).trace = s.trace := rfl
@[simp] theorem advance_env (s : State) : (advance s).env = s.env := rfl
@[simp] theorem advance_port (s : State) : (advance s).port = s.port := rfl
@[simp] theorem advance_session (s : State) : (advance s).session = s.session := rfl
@[simp] theorem advance_guarded (s : State) : (advance s).guarded = s.guarded := rfl
@[simp] theorem advance_unwrittenUse (s : State) : (advance s).unwrittenUse = s.unwrittenUse := rfl
@[simp] theorem advance_readAsked (s : State) : (advance s).readAsked = s.readAsked := rfl
@[simp] theorem advance_readAnswer (s : State) : (advance s).readAnswer = s.readAnswer := rfl
@[simp] theorem advance_ctx (s : State) (x : CtxIx) : (advance s).ctx x = s.ctx x := rfl

@[simp] theorem finish_cfg (s : State) : (finish s).cfg = s.cfg := rfl
@[simp] theorem finish_ctx0 (s : State) : (finish s).ctx0 = s.ctx0 := rfl
@[simp] theorem finish_ctx1 (s : State) : (finish s).ctx1 = s.ctx1 := rfl
@[simp] theorem finish_rxdata (s : State) : (finish s).rxdata = s.rxdata := rfl
@[simp] theorem finish_rxHeld (s : State) : (finish s).rxHeld = s.rxHeld := rfl
@[simp] theorem finish_status (s : State) : (finish s).status = setBusy s.status false := rfl
@[simp] theorem finish_ackHeld (s : State) : (finish s).ackHeld = s.ackHeld := rfl
@[simp] theorem finish_phase (s : State) : (finish s).phase = s.phase := rfl
@[simp] theorem finish_seq (s : State) : (finish s).seq = none := rfl
@[simp] theorem finish_trace (s : State) : (finish s).trace = s.trace := rfl
@[simp] theorem finish_env (s : State) : (finish s).env = s.env := rfl
@[simp] theorem finish_port (s : State) : (finish s).port = s.port := rfl
@[simp] theorem finish_session (s : State) : (finish s).session = s.session := rfl
@[simp] theorem finish_guarded (s : State) : (finish s).guarded = s.guarded := rfl
@[simp] theorem finish_unwrittenUse (s : State) : (finish s).unwrittenUse = s.unwrittenUse := rfl
@[simp] theorem finish_readAsked (s : State) : (finish s).readAsked = s.readAsked := rfl
@[simp] theorem finish_readAnswer (s : State) : (finish s).readAnswer = s.readAnswer := rfl
@[simp] theorem finish_ctx (s : State) (x : CtxIx) : (finish s).ctx x = s.ctx x := rfl

/-! ### The mark of rule R166 -/

@[simp] theorem used_cfg (s : State) (h : Bool) : (s.used h).cfg = s.cfg := rfl
@[simp] theorem used_ctx0 (s : State) (h : Bool) : (s.used h).ctx0 = s.ctx0 := rfl
@[simp] theorem used_ctx1 (s : State) (h : Bool) : (s.used h).ctx1 = s.ctx1 := rfl
@[simp] theorem used_rxdata (s : State) (h : Bool) : (s.used h).rxdata = s.rxdata := rfl
@[simp] theorem used_rxHeld (s : State) (h : Bool) : (s.used h).rxHeld = s.rxHeld := rfl
@[simp] theorem used_status (s : State) (h : Bool) : (s.used h).status = s.status := rfl
@[simp] theorem used_ackHeld (s : State) (h : Bool) : (s.used h).ackHeld = s.ackHeld := rfl
@[simp] theorem used_phase (s : State) (h : Bool) : (s.used h).phase = s.phase := rfl
@[simp] theorem used_seq (s : State) (h : Bool) : (s.used h).seq = s.seq := rfl
@[simp] theorem used_trace (s : State) (h : Bool) : (s.used h).trace = s.trace := rfl
@[simp] theorem used_env (s : State) (h : Bool) : (s.used h).env = s.env := rfl
@[simp] theorem used_port (s : State) (h : Bool) : (s.used h).port = s.port := rfl
@[simp] theorem used_session (s : State) (h : Bool) : (s.used h).session = s.session := rfl
@[simp] theorem used_guarded (s : State) (h : Bool) : (s.used h).guarded = s.guarded := rfl
@[simp] theorem used_readAsked (s : State) (h : Bool) : (s.used h).readAsked = s.readAsked := rfl
@[simp] theorem used_readAnswer (s : State) (h : Bool) : (s.used h).readAnswer = s.readAnswer := rfl
@[simp] theorem used_ctx (s : State) (h : Bool) (x : CtxIx) : (s.used h).ctx x = s.ctx x := rfl
@[simp] theorem used_unwrittenUse (s : State) (h : Bool) : (s.used h).unwrittenUse = (s.unwrittenUse || !h) := rfl
/-- A use of a register that holds a value leaves no mark. -/
@[simp] theorem used_true (s : State) : s.used true = s := by simp [State.used]
/-- A use of a register that holds a value goes on; any other where there is no guard. -/
@[simp] theorem mayUse_true (s : State) : s.mayUse true = true := rfl
@[simp] theorem mayUse_false (s : State) : s.mayUse false = !s.guarded := rfl

/-! ### The context file -/

@[simp] theorem ctx_zero (s : State) : s.ctx 0 = s.ctx0 := rfl
@[simp] theorem ctx_one (s : State) : s.ctx 1 = s.ctx1 := rfl

@[simp] theorem setCtx_cfg (s : State) (x : CtxIx) (c : Context) : (s.setCtx x c).cfg = s.cfg := by
  unfold State.setCtx; split <;> rfl
@[simp] theorem setCtx_rxdata (s : State) (x : CtxIx) (c : Context) : (s.setCtx x c).rxdata = s.rxdata := by
  unfold State.setCtx; split <;> rfl
@[simp] theorem setCtx_rxHeld (s : State) (x : CtxIx) (c : Context) : (s.setCtx x c).rxHeld = s.rxHeld := by
  unfold State.setCtx; split <;> rfl
@[simp] theorem setCtx_status (s : State) (x : CtxIx) (c : Context) : (s.setCtx x c).status = s.status := by
  unfold State.setCtx; split <;> rfl
@[simp] theorem setCtx_ackHeld (s : State) (x : CtxIx) (c : Context) : (s.setCtx x c).ackHeld = s.ackHeld := by
  unfold State.setCtx; split <;> rfl
@[simp] theorem setCtx_phase (s : State) (x : CtxIx) (c : Context) : (s.setCtx x c).phase = s.phase := by
  unfold State.setCtx; split <;> rfl
@[simp] theorem setCtx_seq (s : State) (x : CtxIx) (c : Context) : (s.setCtx x c).seq = s.seq := by
  unfold State.setCtx; split <;> rfl
@[simp] theorem setCtx_trace (s : State) (x : CtxIx) (c : Context) : (s.setCtx x c).trace = s.trace := by
  unfold State.setCtx; split <;> rfl
@[simp] theorem setCtx_env (s : State) (x : CtxIx) (c : Context) : (s.setCtx x c).env = s.env := by
  unfold State.setCtx; split <;> rfl
@[simp] theorem setCtx_port (s : State) (x : CtxIx) (c : Context) : (s.setCtx x c).port = s.port := by
  unfold State.setCtx; split <;> rfl
@[simp] theorem setCtx_session (s : State) (x : CtxIx) (c : Context) : (s.setCtx x c).session = s.session := by
  unfold State.setCtx; split <;> rfl
@[simp] theorem setCtx_readAnswer (s : State) (x : CtxIx) (c : Context) : (s.setCtx x c).readAnswer = s.readAnswer := by
  unfold State.setCtx; split <;> rfl
@[simp] theorem setCtx_readAsked (s : State) (x : CtxIx) (c : Context) : (s.setCtx x c).readAsked = s.readAsked := by
  unfold State.setCtx; split <;> rfl
@[simp] theorem setCtx_guarded (s : State) (x : CtxIx) (c : Context) : (s.setCtx x c).guarded = s.guarded := by
  unfold State.setCtx; split <;> rfl
@[simp] theorem setCtx_unwrittenUse (s : State) (x : CtxIx) (c : Context) : (s.setCtx x c).unwrittenUse = s.unwrittenUse := by
  unfold State.setCtx; split <;> rfl

/-- Reading a context after writing one. -/
theorem ctx_setCtx (s : State) (x y : CtxIx) (c : Context) : (s.setCtx x c).ctx y = if y = x then c else s.ctx y := by
  match x, y with
  | 0, 0 => rfl
  | 0, 1 => rfl
  | 1, 0 => rfl
  | 1, 1 => rfl

@[simp] theorem ctx_setCtx_self (s : State) (x : CtxIx) (c : Context) : (s.setCtx x c).ctx x = c := by
  simp [ctx_setCtx]

theorem ctx_setCtx_ne (s : State) (x y : CtxIx) (c : Context) (h : y ≠ x) : (s.setCtx x c).ctx y = s.ctx y := by
  simp [ctx_setCtx, h]

/-- A state is its fields, the context file read through its accessor. -/
theorem state_ctx_ext (s t : State) (h : ∀ x, s.ctx x = t.ctx x) : s.ctx0 = t.ctx0 ∧ s.ctx1 = t.ctx1 :=
  ⟨h 0, h 1⟩

@[simp] theorem writeTriple_cfg (x : CtxIx) (t1 t2 t3 : BitVec 16) (s : State) : (writeTriple x t1 t2 t3 s).cfg = s.cfg := by
  simp [writeTriple]
@[simp] theorem writeTriple_rxdata (x : CtxIx) (t1 t2 t3 : BitVec 16) (s : State) : (writeTriple x t1 t2 t3 s).rxdata = s.rxdata := by
  simp [writeTriple]
@[simp] theorem writeTriple_rxHeld (x : CtxIx) (t1 t2 t3 : BitVec 16) (s : State) : (writeTriple x t1 t2 t3 s).rxHeld = s.rxHeld := by
  simp [writeTriple]
@[simp] theorem writeTriple_status (x : CtxIx) (t1 t2 t3 : BitVec 16) (s : State) : (writeTriple x t1 t2 t3 s).status = s.status := by
  simp [writeTriple]
@[simp] theorem writeTriple_ackHeld (x : CtxIx) (t1 t2 t3 : BitVec 16) (s : State) : (writeTriple x t1 t2 t3 s).ackHeld = s.ackHeld := by
  simp [writeTriple]
@[simp] theorem writeTriple_phase (x : CtxIx) (t1 t2 t3 : BitVec 16) (s : State) : (writeTriple x t1 t2 t3 s).phase = s.phase := by
  simp [writeTriple]
@[simp] theorem writeTriple_seq (x : CtxIx) (t1 t2 t3 : BitVec 16) (s : State) : (writeTriple x t1 t2 t3 s).seq = s.seq := by
  simp [writeTriple]
@[simp] theorem writeTriple_trace (x : CtxIx) (t1 t2 t3 : BitVec 16) (s : State) : (writeTriple x t1 t2 t3 s).trace = s.trace := by
  simp [writeTriple]
@[simp] theorem writeTriple_env (x : CtxIx) (t1 t2 t3 : BitVec 16) (s : State) : (writeTriple x t1 t2 t3 s).env = s.env := by
  simp [writeTriple]
@[simp] theorem writeTriple_port (x : CtxIx) (t1 t2 t3 : BitVec 16) (s : State) : (writeTriple x t1 t2 t3 s).port = s.port := by
  simp [writeTriple]
@[simp] theorem writeTriple_session (x : CtxIx) (t1 t2 t3 : BitVec 16) (s : State) : (writeTriple x t1 t2 t3 s).session = s.session := by
  simp [writeTriple]
@[simp] theorem writeTriple_readAnswer (x : CtxIx) (t1 t2 t3 : BitVec 16) (s : State) : (writeTriple x t1 t2 t3 s).readAnswer = s.readAnswer := by
  simp [writeTriple]
@[simp] theorem writeTriple_readAsked (x : CtxIx) (t1 t2 t3 : BitVec 16) (s : State) : (writeTriple x t1 t2 t3 s).readAsked = s.readAsked := by
  simp [writeTriple]
@[simp] theorem writeTriple_guarded (x : CtxIx) (t1 t2 t3 : BitVec 16) (s : State) : (writeTriple x t1 t2 t3 s).guarded = s.guarded := by
  simp [writeTriple]
@[simp] theorem writeTriple_unwrittenUse (x : CtxIx) (t1 t2 t3 : BitVec 16) (s : State) : (writeTriple x t1 t2 t3 s).unwrittenUse = s.unwrittenUse := by
  simp [writeTriple]

@[simp] theorem writeRaw_cfg (x : CtxIx) (v : BitVec 20) (s : State) : (writeRaw x v s).cfg = s.cfg := by
  simp [writeRaw]
@[simp] theorem writeRaw_rxdata (x : CtxIx) (v : BitVec 20) (s : State) : (writeRaw x v s).rxdata = s.rxdata := by
  simp [writeRaw]
@[simp] theorem writeRaw_rxHeld (x : CtxIx) (v : BitVec 20) (s : State) : (writeRaw x v s).rxHeld = s.rxHeld := by
  simp [writeRaw]
@[simp] theorem writeRaw_status (x : CtxIx) (v : BitVec 20) (s : State) : (writeRaw x v s).status = s.status := by
  simp [writeRaw]
@[simp] theorem writeRaw_ackHeld (x : CtxIx) (v : BitVec 20) (s : State) : (writeRaw x v s).ackHeld = s.ackHeld := by
  simp [writeRaw]
@[simp] theorem writeRaw_phase (x : CtxIx) (v : BitVec 20) (s : State) : (writeRaw x v s).phase = s.phase := by
  simp [writeRaw]
@[simp] theorem writeRaw_seq (x : CtxIx) (v : BitVec 20) (s : State) : (writeRaw x v s).seq = s.seq := by
  simp [writeRaw]
@[simp] theorem writeRaw_trace (x : CtxIx) (v : BitVec 20) (s : State) : (writeRaw x v s).trace = s.trace := by
  simp [writeRaw]
@[simp] theorem writeRaw_env (x : CtxIx) (v : BitVec 20) (s : State) : (writeRaw x v s).env = s.env := by
  simp [writeRaw]
@[simp] theorem writeRaw_port (x : CtxIx) (v : BitVec 20) (s : State) : (writeRaw x v s).port = s.port := by
  simp [writeRaw]
@[simp] theorem writeRaw_session (x : CtxIx) (v : BitVec 20) (s : State) : (writeRaw x v s).session = s.session := by
  simp [writeRaw]
@[simp] theorem writeRaw_readAnswer (x : CtxIx) (v : BitVec 20) (s : State) : (writeRaw x v s).readAnswer = s.readAnswer := by
  simp [writeRaw]
@[simp] theorem writeRaw_readAsked (x : CtxIx) (v : BitVec 20) (s : State) : (writeRaw x v s).readAsked = s.readAsked := by
  simp [writeRaw]
@[simp] theorem writeRaw_guarded (x : CtxIx) (v : BitVec 20) (s : State) : (writeRaw x v s).guarded = s.guarded := by
  simp [writeRaw]
@[simp] theorem writeRaw_unwrittenUse (x : CtxIx) (v : BitVec 20) (s : State) : (writeRaw x v s).unwrittenUse = s.unwrittenUse := by
  simp [writeRaw]

theorem writeTriple_ctx (x y : CtxIx) (t1 t2 t3 : BitVec 16) (s : State) :
    (writeTriple x t1 t2 t3 s).ctx y =
      if y = x then
        { s.ctx x with t1 := t1, t2 := t2, t3 := t3, held := { (s.ctx x).held with t1 := true, t2 := true, t3 := true } }
      else s.ctx y := by
  simp [writeTriple, ctx_setCtx]

theorem writeRaw_ctx (x y : CtxIx) (v : BitVec 20) (s : State) :
    (writeRaw x v s).ctx y =
      if y = x then { s.ctx x with raw := v, held := { (s.ctx x).held with raw := true } } else s.ctx y := by
  simp [writeRaw, ctx_setCtx]

end Sys2Proof.Machine
end

