-- ==== Sys2Proof/Laws/Ops.lean ====
section
/-! SUPPORT. The laws of the shared operations: the sparse memory keeps its canonical form and reads back what was
written; a command's parts follow one another until one hangs. -/

namespace Sys2Proof.Machine

/-! ### Memory -/

theorem Memory.rising_mono {m : Memory} {lo lo' : Nat} (h : lo' ≤ lo) (hr : Memory.rising m lo = true) :
    Memory.rising m lo' = true := by
  cases m with
  | nil => rfl
  | cons c m =>
    simp only [Memory.rising, Bool.and_eq_true, decide_eq_true_eq] at hr ⊢
    exact ⟨by omega, hr.2⟩

/-- Below the least listed address nothing is listed. -/
theorem Memory.read_below {m : Memory} {lo a : Nat} (hr : Memory.rising m lo = true) (h : a < lo) :
    Memory.read m a = Memory.unlisted := by
  induction m generalizing lo with
  | nil => rfl
  | cons c m ih =>
    simp only [Memory.rising, Bool.and_eq_true, decide_eq_true_eq] at hr
    have : a ≠ c.1 := by omega
    simp only [Memory.read, this, if_false]
    exact ih hr.2 (by omega)

/-- A read after a write: the value written there, and every other address as before. -/
theorem Memory.read_write {m : Memory} {lo : Nat} (hr : Memory.rising m lo = true) (a b : Nat) (v : Byte) :
    Memory.read (Memory.write m a v) b = if b = a then v else Memory.read m b := by
  induction m generalizing lo with
  | nil =>
    simp only [Memory.write]
    split <;> simp_all [Memory.read]
  | cons c m ih =>
    obtain ⟨k, w⟩ := c
    simp only [Memory.rising, Bool.and_eq_true, decide_eq_true_eq] at hr
    simp only [Memory.write]
    by_cases h1 : a < k
    · simp only [h1, if_true]
      by_cases h2 : v = Memory.unlisted
      · simp only [h2, if_true]
        by_cases h3 : b = a
        · subst h3
          rw [if_pos rfl]
          exact Memory.read_below (lo := k) (by simp [Memory.rising, hr.2]) h1
        · rw [if_neg h3]
      · simp only [h2, if_false, Memory.read]
    · simp only [h1, if_false]
      by_cases h2 : a = k
      · subst h2
        simp only [if_true]
        by_cases h3 : v = Memory.unlisted
        · simp only [h3, if_true]
          by_cases h4 : b = a
          · subst h4
            rw [if_pos rfl]
            exact Memory.read_below hr.2 (by omega)
          · simp [Memory.read, h4]
        · simp only [h3, if_false, Memory.read]
          split <;> simp_all
      · simp only [h2, if_false, Memory.read]
        by_cases h3 : b = k
        · subst h3
          simp [Ne.symm h2]
        · simp only [h3, if_false]
          exact ih hr.2

theorem Memory.rising_write {m : Memory} {lo : Nat} (hr : Memory.rising m lo = true) (a : Nat) (v : Byte)
    (h : lo ≤ a) : Memory.rising (Memory.write m a v) lo = true := by
  induction m generalizing lo with
  | nil =>
    simp only [Memory.write]
    split <;> simp [Memory.rising, h]
  | cons c m ih =>
    obtain ⟨k, w⟩ := c
    simp only [Memory.rising, Bool.and_eq_true, decide_eq_true_eq] at hr
    simp only [Memory.write]
    split
    · split
      · simp [Memory.rising, hr]
      · simp only [Memory.rising, Bool.and_eq_true, decide_eq_true_eq]
        exact ⟨h, by omega, hr.2⟩
    · split
      · split
        · exact Memory.rising_mono (by omega) hr.2
        · subst_vars
          simp only [Memory.rising, Bool.and_eq_true, decide_eq_true_eq]
          exact ⟨h, hr.2⟩
      · simp only [Memory.rising, Bool.and_eq_true, decide_eq_true_eq]
        exact ⟨hr.1, ih hr.2 (by omega)⟩

/-- A property every listed cell has, and the cell written has, every cell has after the write. -/
theorem Memory.all_write {m : Memory} {q : Host.Cell → Bool} (h : m.all q = true) (a : Nat) (v : Byte)
    (hv : v ≠ Memory.unlisted → q (a, v) = true) : (Memory.write m a v).all q = true := by
  induction m with
  | nil =>
    simp only [Memory.write]
    split <;> simp_all
  | cons c m ih =>
    obtain ⟨k, w⟩ := c
    simp only [List.all_cons, Bool.and_eq_true] at h
    simp only [Memory.write]
    split
    · split <;> simp_all
    · split
      · split <;> simp_all
      · simp [h.1, ih h.2]

/-- A write of a register keeps the canonical form. -/
theorem Memory.wf_write {m : Memory} (h : Memory.wf m = true) (a : Nat) (v : Byte) (ha : a < 0x100) :
    Memory.wf (Memory.write m a v) = true := by
  simp only [Memory.wf, Bool.and_eq_true] at h ⊢
  exact ⟨Memory.rising_write h.1 a v (by omega), Memory.all_write h.2 a v (by intro hv; simp [ha, hv])⟩

theorem Memory.rising_of_wf {m : Memory} (h : Memory.wf m = true) : Memory.rising m 0 = true := by
  simp only [Memory.wf, Bool.and_eq_true] at h
  exact h.1

/-- Two canonical memories that read alike are the same list. -/
theorem Memory.ext_of_rising {m n : Memory} {lo : Nat} (hm : Memory.rising m lo = true)
    (hn : Memory.rising n lo = true) (am : m.all (fun c => c.2 != Memory.unlisted) = true)
    (an : n.all (fun c => c.2 != Memory.unlisted) = true) (h : ∀ a, Memory.read m a = Memory.read n a) : m = n := by
  induction m generalizing n lo with
  | nil =>
    cases n with
    | nil => rfl
    | cons c n =>
      have := h c.1
      simp [Memory.read] at this
      simp_all
  | cons c m ih =>
    obtain ⟨k, v⟩ := c
    cases n with
    | nil =>
      have := h k
      simp [Memory.read] at this
      simp_all
    | cons c n =>
      obtain ⟨k', v'⟩ := c
      simp only [Memory.rising, Bool.and_eq_true, decide_eq_true_eq] at hm hn
      simp only [List.all_cons, Bool.and_eq_true, bne_iff_ne, ne_eq] at am an
      have hk : k = k' := by
        rcases Nat.lt_trichotomy k k' with hlt | heq | hgt
        · exfalso
          have h1 := h k
          have h2 : k ≠ k' := by omega
          simp only [Memory.read, if_true, h2, if_false] at h1
          rw [Memory.read_below hn.2 (by omega)] at h1
          exact am.1 h1
        · exact heq
        · exfalso
          have h1 := h k'
          have h2 : k' ≠ k := by omega
          simp only [Memory.read, if_true, h2, if_false] at h1
          rw [Memory.read_below hm.2 (by omega)] at h1
          exact an.1 h1.symm
      subst hk
      have hv : v = v' := by simpa [Memory.read] using h k
      subst hv
      congr 1
      apply ih hm.2 hn.2 am.2 an.2
      intro a
      have h1 := h a
      by_cases ha : a = k
      · subst ha
        rw [Memory.read_below hm.2 (by omega), Memory.read_below hn.2 (by omega)]
      · simpa [Memory.read, ha] using h1

/-- Equal memories are equal data. -/
theorem Memory.ext_of_wf {m n : Memory} (hm : Memory.wf m = true) (hn : Memory.wf n = true)
    (h : ∀ a, Memory.read m a = Memory.read n a) : m = n := by
  simp only [Memory.wf, Bool.and_eq_true, List.all_eq_true] at hm hn
  exact Memory.ext_of_rising hm.1 hn.1 (List.all_eq_true.2 fun c hc => (hm.2 c hc).2)
    (List.all_eq_true.2 fun c hc => (hn.2 c hc).2) h

/-! ### Commands in flight -/

@[simp] theorem andThen_done (s : State) (f : State → Ran) : Ran.andThen { state := s, done := true } f = f s := rfl

@[simp] theorem andThen_stuck (s : State) (f : State → Ran) :
    Ran.andThen { state := s, done := false } f = { state := s, done := false } := rfl

/-- What `andThen` can do: the first part hangs and the whole stays there, or it completes and the rest runs on. -/
theorem andThen_cases (r : Ran) (f : State → Ran) :
    (r.done = false ∧ r.andThen f = r) ∨ (r.done = true ∧ r.andThen f = f r.state) := by
  cases h : r.done <;> simp [Ran.andThen, h]

/-- A relation between states that each part keeps, the whole keeps. -/
theorem andThen_rel {P : State → State → Prop} (trans : ∀ {a b c}, P a b → P b c → P a c) {s : State} {r : Ran}
    {f : State → Ran} (hr : P s r.state) (hf : ∀ t, P t (f t).state) : P s (r.andThen f).state := by
  rcases andThen_cases r f with ⟨_, h⟩ | ⟨_, h⟩
  · rw [h]; exact hr
  · rw [h]; exact trans hr (hf _)

/-- What a whole command can do: finish, or stay in flight where it hangs. -/
theorem runCommand_cases (i : Instr) (body : State → Ran) (s : State) :
    ((body (accept i s)).done = true ∧ runCommand i body s = finish (body (accept i s)).state) ∨
      ((body (accept i s)).done = false ∧ runCommand i body s = (body (accept i s)).state) := by
  cases h : (body (accept i s)).done <;> simp [runCommand, h]

/-- A command whose body is known to complete. -/
theorem runCommand_done {i : Instr} {body : State → Ran} {s t : State}
    (h : body (accept i s) = { state := t, done := true }) : runCommand i body s = finish t := by
  simp [runCommand, h]

/-- A command whose body is known to hang. -/
theorem runCommand_stuck {i : Instr} {body : State → Ran} {s t : State}
    (h : body (accept i s) = { state := t, done := false }) : runCommand i body s = t := by
  simp [runCommand, h]

end Sys2Proof.Machine
end

