-- ==== Sys2Proof/Laws/Environment.lean ====
section
/-! SUPPORT. What the environment's four calls can do (rules R33, R36): everything about them a later proof needs, said
once. -/

namespace Sys2Proof.Machine

@[simp] theorem taken_kind (e : Env) : e.taken.kind = e.kind := rfl
@[simp] theorem taken_sim (e : Env) (j : CtxIx) : e.taken.sim j = e.sim j := rfl
@[simp] theorem taken_script (e : Env) : e.taken.script = e.script.tail := rfl
@[simp] theorem taken_draws (e : Env) : e.taken.draws = e.draws + 1 := rfl
@[simp] theorem withSim_kind (e : Env) (a b : SimDevice) : (e.withSim a b).kind = e.kind := rfl
@[simp] theorem withSim_script (e : Env) (a b : SimDevice) : (e.withSim a b).script = e.script := rfl
@[simp] theorem withSim_draws (e : Env) (a b : SimDevice) : (e.withSim a b).draws = e.draws := rfl
@[simp] theorem withSim_sim0 (e : Env) (a b : SimDevice) : (e.withSim a b).sim0 = a := rfl
@[simp] theorem withSim_sim1 (e : Env) (a b : SimDevice) : (e.withSim a b).sim1 = b := rfl
@[simp] theorem sim_zero (e : Env) : e.sim 0 = e.sim0 := rfl
@[simp] theorem sim_one (e : Env) : e.sim 1 = e.sim1 := rfl

/-- A stop is answered as a start is (rules R33, R36). -/
theorem onStop_eq_onStart (e : Env) : e.onStop = e.onStart := rfl

/-- Under `SIM` every call completes: `SIM` is `Responsive` (rule R36). -/
theorem onStart_simulated {e : Env} (h : e.kind = .simulated) :
    e.onStart = some (e.withSim (simDeselect e.sim0) (simDeselect e.sim1)) := by simp [Env.onStart, h]
theorem onSend_simulated {e : Env} (h : e.kind = .simulated) (c : Cfg) (p : Phase) (b : Byte) :
    e.onSend c p b = some (simSend c p b e) := by simp [Env.onSend, h]
theorem onRecv_simulated {e : Env} (h : e.kind = .simulated) (k : Bool) :
    e.onRecv k = some (simByte e, e.withSim (simSent e.sim0) (simSent e.sim1)) := by simp [Env.onRecv, h]

/-- Under the unconstrained environment each call takes the next answer, whatever it is asked. -/
theorem onStart_unconstrained {e : Env} (h : e.kind = .unconstrained) :
    e.onStart = if e.reply.completes then some e.taken else none := by simp [Env.onStart, h]
theorem onSend_unconstrained {e : Env} (h : e.kind = .unconstrained) (c : Cfg) (p : Phase) (b : Byte) :
    e.onSend c p b = if e.reply.completes then some (e.reply.ack, e.taken) else none := by simp [Env.onSend, h]
theorem onRecv_unconstrained {e : Env} (h : e.kind = .unconstrained) (k : Bool) :
    e.onRecv k = if e.reply.completes then some (e.reply.byte, e.taken) else none := by simp [Env.onRecv, h]

@[simp] theorem simSend_kind (c : Cfg) (p : Phase) (b : Byte) (e : Env) : (simSend c p b e).2.kind = e.kind := by
  cases p <;> rfl

/-! ### The kind of the environment never changes -/

theorem onStart_kind {e e' : Env} (h : e.onStart = some e') : e'.kind = e.kind := by
  unfold Env.onStart at h
  split at h
  · split at h
    · cases h; rfl
    · cases h
  · cases h; rfl

theorem onSend_kind {e e' : Env} {c : Cfg} {p : Phase} {b : Byte} {a : Bool} (h : e.onSend c p b = some (a, e')) :
    e'.kind = e.kind := by
  unfold Env.onSend at h
  split at h
  · split at h
    · cases h; rfl
    · cases h
  · have := congrArg (fun x => Option.map (fun y : Bool × Env => y.2.kind) x) h
    simp at this
    exact this.symm

theorem onRecv_kind {e e' : Env} {k : Bool} {b : Byte} (h : e.onRecv k = some (b, e')) : e'.kind = e.kind := by
  unfold Env.onRecv at h
  split at h
  · split at h
    · cases h; rfl
    · cases h
  · cases h; rfl

/-! ### The registers of the simulated devices -/

@[simp] theorem simDeselect_regs (d : SimDevice) : (simDeselect d).regs = d.regs := rfl
@[simp] theorem simDeselect_ptr (d : SimDevice) : (simDeselect d).ptr = d.ptr := rfl
@[simp] theorem simDeselect_sel (d : SimDevice) : (simDeselect d).sel = .off := rfl
@[simp] theorem simAddress_regs (own b : Byte) (d : SimDevice) : (simAddress own b d).regs = d.regs := by
  unfold simAddress; split <;> rfl
@[simp] theorem simAddress_ptr (own b : Byte) (d : SimDevice) : (simAddress own b d).ptr = d.ptr := by
  unfold simAddress; split <;> rfl
@[simp] theorem simSent_regs (d : SimDevice) : (simSent d).regs = d.regs := by
  unfold simSent; split <;> rfl

/-- The registers of a device after a data byte: the pointed register takes the byte when `SIM` stores, and nothing else
changes. -/
theorem simData_regs (c : Cfg) (b : Byte) (d : SimDevice) :
    (simData c b d).regs = if simStores c d b then Memory.write d.regs d.ptr.toNat b else d.regs := by
  unfold simData
  cases h : d.sel <;> simp [simStores, h]
  by_cases h1 : d.ptr = c.regReset <;> by_cases h2 : b = Config.resetCmd <;>
    by_cases h3 : d.ptr = c.regCtrl <;> simp [h1, h2, h3] <;> simp_all

/-- A data byte keeps the canonical form of a device's registers. -/
theorem wf_simData {c : Cfg} {b : Byte} {d : SimDevice} (h : Memory.wf d.regs = true) :
    Memory.wf (simData c b d).regs = true := by
  rw [simData_regs]
  split
  · exact Memory.wf_write h _ _ (by simpa using d.ptr.isLt)
  · exact h

theorem onStart_regs {e e' : Env} (h : e.onStart = some e') (j : CtxIx) : (e'.sim j).regs = (e.sim j).regs := by
  unfold Env.onStart at h
  split at h
  · split at h
    · cases h; rfl
    · cases h
  · cases h
    match j with
    | 0 => rfl
    | 1 => rfl

theorem onRecv_regs {e e' : Env} {k : Bool} {b : Byte} (h : e.onRecv k = some (b, e')) (j : CtxIx) :
    (e'.sim j).regs = (e.sim j).regs := by
  unfold Env.onRecv at h
  split at h
  · split at h
    · cases h; rfl
    · cases h
  · cases h
    match j with
    | 0 => simp
    | 1 => simp

/-- The registers of a device after a byte has been sent: unchanged but for a store under `SIM` in a data phase. -/
theorem onSend_regs {e e' : Env} {c : Cfg} {p : Phase} {b : Byte} {a : Bool} (h : e.onSend c p b = some (a, e'))
    (j : CtxIx) :
    (e'.sim j).regs =
      if e.kind = .simulated ∧ p ≠ .started ∧ simStores c (e.sim j) b = true then
        Memory.write (e.sim j).regs (e.sim j).ptr.toNat b
      else (e.sim j).regs := by
  cases hk : e.kind with
  | unconstrained =>
    rw [onSend_unconstrained hk] at h
    split at h
    · cases h; simp
    · cases h
  | simulated =>
    rw [onSend_simulated hk] at h
    have h' : e' = (simSend c p b e).2 := by
      have := Option.some.inj h
      rw [this]
    subst h'
    match j with
    | 0 => cases p <;> simp [simSend, simData_regs]
    | 1 => cases p <;> simp [simSend, simData_regs]

theorem onSend_wf {e e' : Env} {c : Cfg} {p : Phase} {b : Byte} {a : Bool} (h : e.onSend c p b = some (a, e'))
    (j : CtxIx) (hw : Memory.wf (e.sim j).regs = true) : Memory.wf (e'.sim j).regs = true := by
  rw [onSend_regs h j]
  split
  · exact Memory.wf_write hw _ _ (by simpa using ((e.sim j).ptr).isLt)
  · exact hw

end Sys2Proof.Machine
end

