-- ==== Sys2Proof/Laws/Primitives.lean ====
section
/-! SUPPORT. What each bus primitive can do (rules R70 to R75), said once: it hangs and changes nothing, or it completes
with the answer the environment gave. -/

namespace Sys2Proof.Machine

/-- The state after a completed `START` (rule R72). -/
theorem phaseStart_cases (s : State) :
    (s.env.onStart = none ∧ phaseStart s = { state := s, done := false }) ∨
      ∃ e, s.env.onStart = some e ∧ phaseStart s =
        { state := advance { s with
            env := e
            trace := s.trace ++ [if s.phase = .idle then .s else .sr]
            phase := .started
            status := setOwned s.status true }
          done := true } := by
  unfold phaseStart
  cases h : s.env.onStart <;> simp

/-- The state after a completed `SENDBYTE` (rule R73). -/
theorem phaseSend_cases (b : Byte) (s : State) :
    (s.env.onSend s.cfg s.phase b = none ∧ phaseSend b s = { state := s, done := false }) ∨
      ∃ a e, s.env.onSend s.cfg s.phase b = some (a, e) ∧ phaseSend b s =
        { state := advance { s with
            env := e
            trace := s.trace ++ [.w b a]
            phase := phaseAfterSend s.phase b
            status := setAck s.status a
            ackHeld := true }
          done := true } := by
  unfold phaseSend
  cases h : s.env.onSend s.cfg s.phase b with
  | none => exact .inl ⟨rfl, rfl⟩
  | some x => exact .inr ⟨x.1, x.2, rfl, rfl⟩

/-- The state after a completed `RECVBYTE` (rule R74). -/
theorem phaseRecv_cases (k : Bool) (s : State) :
    (s.env.onRecv k = none ∧ phaseRecv k s = { state := s, done := false }) ∨
      ∃ b e, s.env.onRecv k = some (b, e) ∧ phaseRecv k s =
        { state := advance { s with
            env := e
            trace := s.trace ++ [.r b k]
            phase := if k then .rx else .rxend
            rxdata := b
            rxHeld := true }
          done := true } := by
  unfold phaseRecv
  cases h : s.env.onRecv k with
  | none => exact .inl ⟨rfl, rfl⟩
  | some x => exact .inr ⟨x.1, x.2, rfl, rfl⟩

/-- The state after a completed `STOP` (rule R75). -/
theorem phaseStop_cases (s : State) :
    (s.env.onStop = none ∧ phaseStop s = { state := s, done := false }) ∨
      ∃ e, s.env.onStop = some e ∧ phaseStop s =
        { state := advance { s with
            env := e
            trace := s.trace ++ [.p]
            phase := .idle
            status := setOwned s.status false }
          done := true } := by
  unfold phaseStop
  cases h : s.env.onStop <;> simp

/-- A relation the primitives keep, a whole body of primitives keeps: what a frame lemma of a command is made from. -/
structure Kept (P : State → State → Prop) : Prop where
  refl : ∀ s, P s s
  trans : ∀ {a b c}, P a b → P b c → P a c
  start : ∀ s, P s (phaseStart s).state
  send : ∀ b s, P s (phaseSend b s).state
  recv : ∀ k s, P s (phaseRecv k s).state
  stop : ∀ s, P s (phaseStop s).state

theorem Kept.write_frame {P : State → State → Prop} (h : Kept P) (d r v : Byte) (s : State) :
    P s (writeFrame d r v s).state := by
  unfold writeFrame
  refine andThen_rel (P := P) h.trans (h.start _) fun _ => ?_
  refine andThen_rel (P := P) h.trans (h.send _ _) fun _ => ?_
  refine andThen_rel (P := P) h.trans (h.send _ _) fun _ => ?_
  exact andThen_rel (P := P) h.trans (h.send _ _) fun _ => h.stop _

theorem Kept.read_frame {P : State → State → Prop} (h : Kept P) (d r : Byte) (s : State) :
    P s (readFrame d r s).state := by
  unfold readFrame
  refine andThen_rel (P := P) h.trans (h.start _) fun _ => ?_
  refine andThen_rel (P := P) h.trans (h.send _ _) fun _ => ?_
  refine andThen_rel (P := P) h.trans (h.send _ _) fun _ => ?_
  refine andThen_rel (P := P) h.trans (h.start _) fun _ => ?_
  refine andThen_rel (P := P) h.trans (h.send _ _) fun _ => ?_
  exact andThen_rel (P := P) h.trans (h.recv _ _) fun _ => h.stop _

theorem Kept.read_then {P : State → State → Prop} (h : Kept P) (d r : Byte) (s : State) (f : Byte → State → Ran)
    (hf : ∀ b t, P t (f b t).state) : P s (readThen d r s f).state := by
  unfold readThen
  exact andThen_rel (P := P) h.trans (h.read_frame d r s) fun t => hf t.rxdata t

theorem Kept.load_cal {P : State → State → Prop} (h : Kept P) (x : CtxIx) (s : State)
    (hw : ∀ t1 t2 t3 t, P t (writeTriple x t1 t2 t3 t)) : P s (loadCalBody x s).state :=
  h.read_then _ _ _ _ fun _ _ => h.read_then _ _ _ _ fun _ _ => h.read_then _ _ _ _ fun _ _ =>
    h.read_then _ _ _ _ fun _ _ => h.read_then _ _ _ _ fun _ _ => h.read_then _ _ _ _ fun _ _ => hw _ _ _ _

theorem Kept.read_raw {P : State → State → Prop} (h : Kept P) (x : CtxIx) (s : State)
    (hw : ∀ v t, P t (writeRaw x v t)) : P s (readRawBody x s).state :=
  h.read_then _ _ _ _ fun _ _ => h.read_then _ _ _ _ fun _ _ => h.read_then _ _ _ _ fun _ _ => hw _ _

end Sys2Proof.Machine
end

