-- ==== Sys2Proof/Laws/RegisterAccess.lean ====
section
/-! SUPPORT. What the two frames can do (rules R53, R54, R91, R92), said once: with the environment's answers given, the
state after the frame; without them, the frame hangs. -/

namespace Sys2Proof.Machine

open Sys2Proof.Safety

/-- The direction bit of `device|write` is 0 for a device address (rules R51, R52). -/
theorem directionRead_addrWrite {d : Byte} (h : isDeviceAddr d = true) : directionRead (addrWrite d) = false := by
  simpa [directionRead, addrWrite, isDeviceAddr] using h

/-- The direction bit of `device|read` is 1 (rules R51, R52). -/
@[simp] theorem directionRead_addrRead (d : Byte) : directionRead (addrRead d) = true := by
  simp [directionRead, addrRead]

theorem phaseAfterSend_started (b : Byte) :
    phaseAfterSend .started b = if directionRead b then .rx else .tx := by simp [phaseAfterSend]
@[simp] theorem phaseAfterSend_tx (b : Byte) : phaseAfterSend .tx b = .tx := by simp [phaseAfterSend]

@[simp] theorem addrWrite_eq (d : Byte) : addrWrite d = d := by simp [addrWrite]

/-- The bits of `STATUS` after a frame: `ACK` is the last one, `OWNED` is 0, the others as before. -/
theorem status_after_read (v : BitVec 8) (a1 a2 a3 : Bool) :
    setOwned (setAck (setOwned (setAck (setAck (setOwned v true) a1) a2) true) a3) false
      = setOwned (setAck v a3) false := by
  apply status_ext <;> simp

theorem status_after_write (v : BitVec 8) (a1 a2 a3 : Bool) :
    setOwned (setAck (setAck (setAck (setOwned v true) a1) a2) a3) false = setOwned (setAck v a3) false := by
  apply status_ext <;> simp

/-- The state a read frame completes in (rules R54, R92). -/
def readFrameState (d r : Byte) (f : ReadReply) (e : Env) (s : State) : State :=
  { s with
    env := e
    trace := s.trace ++ readEvents d r f
    phase := .idle
    status := setOwned (setAck s.status f.a3) false
    rxdata := f.byte
    rxHeld := true
    ackHeld := true
    seq := s.seq.map fun q => { q with k := q.k + 7 } }

/-- The state a write frame completes in (rules R53, R91). -/
def writeFrameState (d r v : Byte) (f : WriteReply) (e : Env) (s : State) : State :=
  { s with
    env := e
    trace := s.trace ++ writeEvents d r v f
    phase := .idle
    status := setOwned (setAck s.status f.a3) false
    ackHeld := true
    seq := s.seq.map fun q => { q with k := q.k + 5 } }

/-- A read frame whose seven calls are answered completes, in exactly that state. -/
theorem readFrame_answered {s : State} {d r : Byte} {f : ReadReply} {e : Env} (hp : s.phase = .idle)
    (hd : isDeviceAddr d = true) (h : readAnswers s.cfg d r s.env = some (f, e)) :
    readFrame d r s = { state := readFrameState d r f e s, done := true } := by
  unfold readAnswers at h
  split at h
  · cases h
  rename_i e1 h1
  split at h
  · cases h
  rename_i a1 e2 h2
  split at h
  · cases h
  rename_i a2 e3 h3
  split at h
  · cases h
  rename_i e4 h4
  split at h
  · cases h
  rename_i a3 e5 h5
  split at h
  · cases h
  rename_i b e6 h6
  split at h
  · cases h
  rename_i e7 h7
  simp only [Option.some.injEq, Prod.mk.injEq] at h
  obtain ⟨rfl, rfl⟩ := h
  have hd' := directionRead_addrWrite hd
  rw [addrWrite_eq] at h2 hd'
  simp only [readFrame, phaseStart, h1, andThen_done, phaseSend, advance_env, advance_cfg, advance_phase, addrWrite_eq,
    h2, phaseAfterSend_started, hd', h3, phaseAfterSend_tx, h4, h5, directionRead_addrRead, phaseRecv, h6, phaseStop, h7,
    Bool.false_eq_true, if_false, if_true]
  simp only [advance, hp, if_true, Option.map_map, status_after_read, reduceCtorEq, if_false, List.append_assoc,
    List.cons_append, List.nil_append]
  simp [readFrameState, readEvents, addrRead, Function.comp_def]

/-- One read of a longer command, its frame answered (rule R93). -/
theorem readThen_answered {s : State} {d r : Byte} {f : ReadReply} {e : Env} {g : Byte → State → Ran}
    (hp : s.phase = .idle) (hd : isDeviceAddr d = true) (h : readAnswers s.cfg d r s.env = some (f, e)) :
    readThen d r s g = g f.byte (readFrameState d r f e s) := by
  unfold readThen
  rw [readFrame_answered hp hd h]
  rfl

/-- A read frame with an unanswered call hangs. -/
theorem readFrame_unanswered {s : State} {d r : Byte} (hp : s.phase = .idle) (hd : isDeviceAddr d = true)
    (h : readAnswers s.cfg d r s.env = none) : (readFrame d r s).done = false := by
  have hd' := directionRead_addrWrite hd
  unfold readAnswers at h
  rw [addrWrite_eq] at h hd'
  simp only [readFrame, addrWrite_eq]
  unfold phaseStart
  split at h
  · simp_all
  rename_i e1 h1
  simp only [h1, andThen_done]
  unfold phaseSend
  simp only [advance_env, advance_cfg, advance_phase]
  split at h
  · simp_all
  rename_i a1 e2 h2
  simp only [h2, andThen_done, advance_env, advance_cfg, advance_phase, phaseAfterSend_started, hd', Bool.false_eq_true,
    if_false]
  split at h
  · simp_all
  rename_i a2 e3 h3
  simp only [h3, andThen_done, advance_env, advance_cfg, advance_phase, phaseAfterSend_tx]
  split at h
  · simp_all
  rename_i e4 h4
  simp only [h4, andThen_done, advance_env, advance_cfg, advance_phase]
  split at h
  · simp_all
  rename_i a3 e5 h5
  simp only [h5, andThen_done, phaseRecv, advance_env]
  split at h
  · simp_all
  rename_i b e6 h6
  simp only [h6, andThen_done, phaseStop, advance_env]
  split at h
  · simp_all
  · cases h

/-- A write frame whose five calls are answered completes, in exactly that state. -/
theorem writeFrame_answered {s : State} {d r v : Byte} {f : WriteReply} {e : Env} (hp : s.phase = .idle)
    (hd : isDeviceAddr d = true) (h : writeAnswers s.cfg d r v s.env = some (f, e)) :
    writeFrame d r v s = { state := writeFrameState d r v f e s, done := true } := by
  unfold writeAnswers at h
  split at h
  · cases h
  rename_i e1 h1
  split at h
  · cases h
  rename_i a1 e2 h2
  split at h
  · cases h
  rename_i a2 e3 h3
  split at h
  · cases h
  rename_i a3 e4 h4
  split at h
  · cases h
  rename_i e5 h5
  simp only [Option.some.injEq, Prod.mk.injEq] at h
  obtain ⟨rfl, rfl⟩ := h
  have hd' := directionRead_addrWrite hd
  rw [addrWrite_eq] at h2 hd'
  simp only [writeFrame, phaseStart, h1, andThen_done, phaseSend, advance_env, advance_cfg, advance_phase, addrWrite_eq,
    h2, phaseAfterSend_started, hd', h3, phaseAfterSend_tx, h4, phaseStop, h5, Bool.false_eq_true, if_false]
  simp only [advance, hp, if_true, Option.map_map, status_after_write, List.append_assoc, List.cons_append,
    List.nil_append]
  simp [writeFrameState, writeEvents, Function.comp_def]

/-- A write frame with an unanswered call hangs. -/
theorem writeFrame_unanswered {s : State} {d r v : Byte} (hp : s.phase = .idle) (hd : isDeviceAddr d = true)
    (h : writeAnswers s.cfg d r v s.env = none) : (writeFrame d r v s).done = false := by
  have hd' := directionRead_addrWrite hd
  unfold writeAnswers at h
  rw [addrWrite_eq] at h hd'
  simp only [writeFrame, addrWrite_eq]
  unfold phaseStart
  split at h
  · simp_all
  rename_i e1 h1
  simp only [h1, andThen_done]
  unfold phaseSend
  simp only [advance_env, advance_cfg, advance_phase]
  split at h
  · simp_all
  rename_i a1 e2 h2
  simp only [h2, andThen_done, advance_env, advance_cfg, advance_phase, phaseAfterSend_started, hd', Bool.false_eq_true,
    if_false]
  split at h
  · simp_all
  rename_i a2 e3 h3
  simp only [h3, andThen_done, advance_env, advance_cfg, advance_phase, phaseAfterSend_tx]
  split at h
  · simp_all
  rename_i a3 e4 h4
  simp only [h4, andThen_done, phaseStop, advance_env]
  split at h
  · simp_all
  · cases h

end Sys2Proof.Machine
end

