-- ==== Sys2Proof/Laws/Commands.lean ====
section
/-! SUPPORT. What executing a command can do, said once for all commands: it is refused, or it is its body run between
acceptance and finishing; and how far a body of primitives gets. -/

namespace Sys2Proof.Machine

open Sys2Proof.Safety

/-- The primitives, or the work, of each instruction. -/
def bodyOf : Instr → State → Ran
  | .start => phaseStart
  | .sendbyte b => phaseSend b
  | .recvbyte k => phaseRecv k
  | .stop => phaseStop
  | .writereg d r v => writeFrame d r v
  | .readreg d r => readFrame d r
  | .loadcal x => loadCalBody x
  | .readraw x => readRawBody x
  | .compensate x => compBody x
  | .addrW a7 => phaseSend (addrByte a7 false)
  | .addrR a7 => phaseSend (addrByte a7 true)

/-- A command that is not refused is its body, accepted and run. -/
theorem exec_next {i : Instr} {s t : State} (h : exec i s = .next t) : t = runCommand i (bodyOf i) s := by
  cases i <;> simp only [exec, execStart, execSendbyte, execRecvbyte, execStop, execWritereg, execReadreg, execLoadcal,
    execReadraw, execCompensate, compensateUnguarded, execAddrW, execAddrR, execComposite] at h <;>
    (repeat' split at h) <;> first | (cases h; done) | (cases h; rfl)

/-- A command that is not refused is one the spec does not refuse, or a use of an unwritten register where there is no guard
(rules R12, R166, R167). -/
theorem exec_next_legal {i : Instr} {s t : State} (h : exec i s = .next t) :
    specRefusal i s = none ∨ (specRefusal i s = some .unwrittenRegister ∧ s.guarded = false) := by
  cases i <;> simp only [exec, execStart, execSendbyte, execRecvbyte, execStop, execWritereg, execReadreg, execLoadcal,
    execReadraw, execCompensate, compensateUnguarded, execAddrW, execAddrR, execComposite] at h <;>
    (repeat' split at h) <;> first | (cases h; done) | skip
  case compensate x h => cases hc : compensable (s.ctx x) <;> simp_all [specRefusal, State.mayUse]
  all_goals simp_all [specRefusal]

/-- No command ends in a fault (rule R161). -/
theorem exec_not_fault (i : Instr) (s : State) (f : Fault) : exec i s ≠ .fault f := by cases f

/-! ### How far a body gets -/

/-- From `s`, a body of `n` primitives has completed `j` of them, all of them just when it is done: `SEQ` has moved on by
`j`, the history has `j` more events, and `BUSY` is as it was (rules R19, R90). -/
def Advanced (n : Nat) (s : State) (r : Ran) : Prop :=
  ∃ (j : Nat) (l : List BusEvent), j ≤ n ∧ (r.done = true ↔ j = n) ∧ l.length = j ∧ r.state.trace = s.trace ++ l
    ∧ r.state.seq = s.seq.map (fun q => { q with k := q.k + j }) ∧ statusBusy r.state.status = statusBusy s.status

theorem advanced_of_one {s : State} {r : Ran}
    (h : r = { state := s, done := false } ∨
      ∃ (t : State) (e : BusEvent), r = { state := t, done := true } ∧ t.trace = s.trace ++ [e]
        ∧ t.seq = s.seq.map (fun q => { q with k := q.k + 1 }) ∧ statusBusy t.status = statusBusy s.status) :
    Advanced 1 s r := by
  rcases h with rfl | ⟨t, e, rfl, h1, h2, h3⟩
  · exact ⟨0, [], by omega, by simp, rfl, by simp, by cases s.seq <;> simp, rfl⟩
  · exact ⟨1, [e], by omega, by simp, rfl, h1, h2, h3⟩

theorem advanced_start (s : State) : Advanced 1 s (phaseStart s) := by
  apply advanced_of_one
  rcases phaseStart_cases s with ⟨_, h⟩ | ⟨e, _, h⟩
  · exact .inl h
  · exact .inr ⟨_, _, h, rfl, rfl, by simp⟩

theorem advanced_send (b : Byte) (s : State) : Advanced 1 s (phaseSend b s) := by
  apply advanced_of_one
  rcases phaseSend_cases b s with ⟨_, h⟩ | ⟨a, e, _, h⟩
  · exact .inl h
  · exact .inr ⟨_, _, h, rfl, rfl, by simp⟩

theorem advanced_recv (k : Bool) (s : State) : Advanced 1 s (phaseRecv k s) := by
  apply advanced_of_one
  rcases phaseRecv_cases k s with ⟨_, h⟩ | ⟨b, e, _, h⟩
  · exact .inl h
  · exact .inr ⟨_, _, h, rfl, rfl, by simp⟩

theorem advanced_stop (s : State) : Advanced 1 s (phaseStop s) := by
  apply advanced_of_one
  rcases phaseStop_cases s with ⟨_, h⟩ | ⟨e, _, h⟩
  · exact .inl h
  · exact .inr ⟨_, _, h, rfl, rfl, by simp⟩

/-- Parts add up. -/
theorem Advanced.andThen {m n : Nat} {s : State} {r : Ran} {f : State → Ran} (h : Advanced m s r)
    (hf : ∀ t, Advanced n t (f t)) (hn : 0 < n) : Advanced (m + n) s (r.andThen f) := by
  obtain ⟨j, l, hj, hd, hl, ht, hs, hb⟩ := h
  rcases andThen_cases r f with ⟨h, e⟩ | ⟨h, e⟩ <;> rw [e]
  · have : j ≠ m := fun c => by simp [hd.2 c] at h
    exact ⟨j, l, by omega, by rw [h]; simp; omega, hl, ht, hs, hb⟩
  · obtain ⟨j', l', hj', hd', hl', ht', hs', hb'⟩ := hf r.state
    have hjm := hd.1 h
    refine ⟨j + j', l ++ l', by omega, ?_, by simp [hl, hl'], by rw [ht', ht, List.append_assoc], ?_, by rw [hb', hb]⟩
    · rw [hd']; omega
    · rw [hs', hs, Option.map_map]; congr 1; funext q; simp [Function.comp, Nat.add_assoc]

/-- A part that is no primitive adds none. -/
theorem Advanced.thenWrite {m : Nat} {s : State} {r : Ran} {f : State → Ran} (h : Advanced m s r)
    (hf : ∀ t, (f t).done = true ∧ (f t).state.trace = t.trace ∧ (f t).state.seq = t.seq
      ∧ statusBusy (f t).state.status = statusBusy t.status) : Advanced m s (r.andThen f) := by
  obtain ⟨j, l, hj, hd, hl, ht, hs, hb⟩ := h
  rcases andThen_cases r f with ⟨h, e⟩ | ⟨h, e⟩ <;> rw [e]
  · exact ⟨j, l, hj, hd, hl, ht, hs, hb⟩
  · obtain ⟨h1, h2, h3, h4⟩ := hf r.state
    exact ⟨j, l, hj, by rw [h1]; simpa [h] using hd, hl, by rw [h2, ht], by rw [h3, hs], by rw [h4, hb]⟩

theorem advanced_writeFrame (d r v : Byte) (s : State) : Advanced 5 s (writeFrame d r v s) := by
  unfold writeFrame
  refine (advanced_start _).andThen (n := 4) (fun _ => ?_) (by omega)
  refine (advanced_send _ _).andThen (n := 3) (fun _ => ?_) (by omega)
  refine (advanced_send _ _).andThen (n := 2) (fun _ => ?_) (by omega)
  exact (advanced_send _ _).andThen (n := 1) (fun _ => advanced_stop _) (by omega)

theorem advanced_readFrame (d r : Byte) (s : State) : Advanced 7 s (readFrame d r s) := by
  unfold readFrame
  refine (advanced_start _).andThen (n := 6) (fun _ => ?_) (by omega)
  refine (advanced_send _ _).andThen (n := 5) (fun _ => ?_) (by omega)
  refine (advanced_send _ _).andThen (n := 4) (fun _ => ?_) (by omega)
  refine (advanced_start _).andThen (n := 3) (fun _ => ?_) (by omega)
  refine (advanced_send _ _).andThen (n := 2) (fun _ => ?_) (by omega)
  exact (advanced_recv _ _).andThen (n := 1) (fun _ => advanced_stop _) (by omega)

theorem advanced_readThen {n : Nat} (d r : Byte) (s : State) (f : Byte → State → Ran)
    (hf : ∀ b t, Advanced n t (f b t)) (hn : 0 < n) : Advanced (7 + n) s (readThen d r s f) :=
  (advanced_readFrame d r s).andThen (fun t => hf t.rxdata t) hn

theorem advanced_loadCal (x : CtxIx) (s : State) : Advanced 42 s (loadCalBody x s) := by
  unfold loadCalBody
  refine advanced_readThen (n := 35) _ _ _ _ (fun _ _ => ?_) (by omega)
  refine advanced_readThen (n := 28) _ _ _ _ (fun _ _ => ?_) (by omega)
  refine advanced_readThen (n := 21) _ _ _ _ (fun _ _ => ?_) (by omega)
  refine advanced_readThen (n := 14) _ _ _ _ (fun _ _ => ?_) (by omega)
  refine advanced_readThen (n := 7) _ _ _ _ (fun _ _ => ?_) (by omega)
  exact (advanced_readFrame _ _ _).thenWrite fun t => by simp

theorem advanced_readRaw (x : CtxIx) (s : State) : Advanced 21 s (readRawBody x s) := by
  unfold readRawBody
  refine advanced_readThen (n := 14) _ _ _ _ (fun _ _ => ?_) (by omega)
  refine advanced_readThen (n := 7) _ _ _ _ (fun _ _ => ?_) (by omega)
  exact (advanced_readFrame _ _ _).thenWrite fun t => by simp

theorem advanced_compBody (x : CtxIx) (s : State) : Advanced 0 s (compBody x s) :=
  ⟨0, [], by omega, by simp [compBody], rfl, by simp [compBody], by cases h : s.seq <;> simp [compBody, h],
    by simp [compBody]⟩

/-- The body of a command gets as far as its primitives complete (rules R19, R90). -/
theorem advanced_bodyOf (i : Instr) (s : State) : Advanced (primitiveCount i) s (bodyOf i s) := by
  cases i with
  | start => exact advanced_start s
  | sendbyte b => exact advanced_send b s
  | recvbyte k => exact advanced_recv k s
  | stop => exact advanced_stop s
  | writereg d r v => exact advanced_writeFrame d r v s
  | readreg d r => exact advanced_readFrame d r s
  | loadcal x => exact advanced_loadCal x s
  | readraw x => exact advanced_readRaw x s
  | compensate x => exact advanced_compBody x s
  | addrW a7 => exact advanced_send _ s
  | addrR a7 => exact advanced_send _ s

end Sys2Proof.Machine
end

