-- ==== Sys2Proof/Laws/Decode.lean ====
section
/-! SUPPORT. The command word and its fields (rules R55, R56): a word is its fields, and the fields of a word written from
them are those. -/

namespace Sys2Proof

theorem commandWord_toNat (op : BitVec 4) (a b c : Byte) :
    (commandWord op a b c).toNat = op.toNat * 2 ^ 28 + a.toNat * 2 ^ 16 + b.toNat * 2 ^ 8 + c.toNat := by
  have h1 := b.isLt; have h2 := c.isLt; have h3 := a.isLt
  unfold commandWord
  rw [BitVec.toNat_append, BitVec.toNat_append, BitVec.toNat_append, BitVec.toNat_append,
    ← Nat.shiftLeft_add_eq_or_of_lt c.isLt, ← Nat.shiftLeft_add_eq_or_of_lt (i := 8 + 8),
    ← Nat.shiftLeft_add_eq_or_of_lt (i := 8 + (8 + 8)), ← Nat.shiftLeft_add_eq_or_of_lt (i := 4 + (8 + (8 + 8)))]
  all_goals simp [Nat.shiftLeft_eq]
  all_goals omega

theorem fieldOp_toNat (w : BitVec 32) : (fieldOp w).toNat = w.toNat / 2 ^ 28 % 2 ^ 4 := by
  simp [fieldOp, Nat.shiftRight_eq_div_pow]
theorem fieldZ_toNat (w : BitVec 32) : (fieldZ w).toNat = w.toNat / 2 ^ 24 % 2 ^ 4 := by
  simp [fieldZ, Nat.shiftRight_eq_div_pow]
theorem fieldA_toNat (w : BitVec 32) : (fieldA w).toNat = w.toNat / 2 ^ 16 % 2 ^ 8 := by
  simp [fieldA, Nat.shiftRight_eq_div_pow]
theorem fieldB_toNat (w : BitVec 32) : (fieldB w).toNat = w.toNat / 2 ^ 8 % 2 ^ 8 := by
  simp [fieldB, Nat.shiftRight_eq_div_pow]
theorem fieldC_toNat (w : BitVec 32) : (fieldC w).toNat = w.toNat % 2 ^ 8 := by
  simp [fieldC]

@[simp] theorem fieldOp_commandWord (op : BitVec 4) (a b c : Byte) : fieldOp (commandWord op a b c) = op := by
  have h0 := op.isLt; have h1 := b.isLt; have h2 := c.isLt; have h3 := a.isLt
  apply BitVec.eq_of_toNat_eq; rw [fieldOp_toNat, commandWord_toNat]; omega
@[simp] theorem fieldZ_commandWord (op : BitVec 4) (a b c : Byte) : fieldZ (commandWord op a b c) = 0 := by
  have h0 := op.isLt; have h1 := b.isLt; have h2 := c.isLt; have h3 := a.isLt
  apply BitVec.eq_of_toNat_eq; rw [fieldZ_toNat, commandWord_toNat]; simp; omega
@[simp] theorem fieldA_commandWord (op : BitVec 4) (a b c : Byte) : fieldA (commandWord op a b c) = a := by
  have h0 := op.isLt; have h1 := b.isLt; have h2 := c.isLt; have h3 := a.isLt
  apply BitVec.eq_of_toNat_eq; rw [fieldA_toNat, commandWord_toNat]; omega
@[simp] theorem fieldB_commandWord (op : BitVec 4) (a b c : Byte) : fieldB (commandWord op a b c) = b := by
  have h0 := op.isLt; have h1 := b.isLt; have h2 := c.isLt; have h3 := a.isLt
  apply BitVec.eq_of_toNat_eq; rw [fieldB_toNat, commandWord_toNat]; omega
@[simp] theorem fieldC_commandWord (op : BitVec 4) (a b c : Byte) : fieldC (commandWord op a b c) = c := by
  have h0 := op.isLt; have h1 := b.isLt; have h2 := c.isLt; have h3 := a.isLt
  apply BitVec.eq_of_toNat_eq; rw [fieldC_toNat, commandWord_toNat]; omega

/-- A word with `Z = 0` is the word of its other fields. -/
theorem commandWord_fields {w : BitVec 32} (h : fieldZ w = 0) :
    commandWord (fieldOp w) (fieldA w) (fieldB w) (fieldC w) = w := by
  have hz := congrArg BitVec.toNat h
  rw [fieldZ_toNat] at hz
  have hw := w.isLt
  apply BitVec.eq_of_toNat_eq
  rw [commandWord_toNat, fieldOp_toNat, fieldA_toNat, fieldB_toNat, fieldC_toNat]
  simp at hz
  omega

/-- A one-bit operand is 0 or 1. -/
theorem bitOperand_some {c : Byte} {k : Bool} (h : bitOperand c = some k) : c = byteOfBit k := by
  unfold bitOperand at h
  split at h
  · cases h; assumption
  · split at h
    · cases h; assumption
    · cases h

@[simp] theorem bitOperand_byteOfBit (k : Bool) : bitOperand (byteOfBit k) = some k := by cases k <;> rfl
@[simp] theorem byteOfCtx_ctxOfBit (k : Bool) : byteOfCtx (ctxOfBit k) = byteOfBit k := by cases k <;> rfl
theorem bitOperand_byteOfCtx (x : CtxIx) : (bitOperand (byteOfCtx x)).map ctxOfBit = some x := by
  match x with
  | 0 => rfl
  | 1 => rfl

/-- A word of format `CW32` decodes by its fields. -/
theorem decode_commandWord (op : BitVec 4) (a b c : Byte) :
    decode (.cw (commandWord op a b c)) = decodeFields op a b c := by
  simp [decode, decodeCommand]

/-- The two directions of an address byte (rule R51). -/
theorem decodeWire_write : ∀ a7 : BitVec 7, decodeWire (a7 ++ 0#1) = .addrW a7 := by decide +kernel
theorem decodeWire_read : ∀ a7 : BitVec 7, decodeWire (a7 ++ 1#1) = .addrR a7 := by decide +kernel

/-- An address byte is its device address and its direction (rule R51). -/
theorem encode_decodeWire : ∀ b : Byte, encode (decodeWire b) = .wire b := by decide +kernel

/-- What the decoder can answer (rule R56): one of the nine rows, with the fields that row fixes. -/
theorem decodeFields_ok {op : BitVec 4} {a b c : Byte} {i : Instr} (h : decodeFields op a b c = .ok i) :
    (op = 1 ∧ a = 0 ∧ b = 0 ∧ c = 0 ∧ i = .start)
    ∨ (op = 2 ∧ a = 0 ∧ b = 0 ∧ i = .sendbyte c)
    ∨ (∃ k, op = 3 ∧ a = 0 ∧ b = 0 ∧ c = byteOfBit k ∧ i = .recvbyte k)
    ∨ (op = 4 ∧ a = 0 ∧ b = 0 ∧ c = 0 ∧ i = .stop)
    ∨ (op = 5 ∧ isDeviceAddr a = true ∧ i = .writereg a b c)
    ∨ (op = 6 ∧ c = 0 ∧ isDeviceAddr a = true ∧ i = .readreg a b)
    ∨ (∃ k, op = 7 ∧ a = 0 ∧ b = 0 ∧ c = byteOfBit k ∧ i = .loadcal (ctxOfBit k))
    ∨ (∃ k, op = 8 ∧ a = 0 ∧ b = 0 ∧ c = byteOfBit k ∧ i = .readraw (ctxOfBit k))
    ∨ (∃ k, op = 9 ∧ a = 0 ∧ b = 0 ∧ c = byteOfBit k ∧ i = .compensate (ctxOfBit k)) := by
  unfold decodeFields at h
  repeat' split at h
  all_goals first
    | (cases h; done)
    | (cases h
       rename_i ho hab _ k hb
       obtain ⟨rfl, rfl⟩ := hab
       obtain rfl := ho
       obtain rfl := bitOperand_some hb
       cases k <;> simp)
    | (cases h; simp_all)

end Sys2Proof
end

