-- ==== Sys2Proof/Laws/Frames.lean ====
section
/-! SUPPORT. What the bodies of the commands leave unchanged, and which of the invariant's parts they keep. -/

namespace Sys2Proof.Machine

open Sys2Proof.Safety

/-! ### What no primitive touches -/

/-- The part of the state no bus primitive writes (rules R72 to R75). -/
def SameRest (s t : State) : Prop :=
  t.cfg = s.cfg ∧ t.ctx0 = s.ctx0 ∧ t.ctx1 = s.ctx1 ∧ t.port = s.port ∧ t.session = s.session
    ∧ statusReserved t.status = statusReserved s.status ∧ t.env.kind = s.env.kind
    ∧ t.guarded = s.guarded ∧ t.unwrittenUse = s.unwrittenUse ∧ t.readAsked = s.readAsked ∧ t.readAnswer = s.readAnswer

theorem SameRest.refl (s : State) : SameRest s s := ⟨rfl, rfl, rfl, rfl, rfl, rfl, rfl, rfl, rfl, rfl, rfl⟩

theorem SameRest.trans {a b c : State} (h : SameRest a b) (g : SameRest b c) : SameRest a c := by
  obtain ⟨h1, h2, h3, h4, h5, h6, h7, h8, h9, h10, h11⟩ := h
  obtain ⟨g1, g2, g3, g4, g5, g6, g7, g8, g9, g10, g11⟩ := g
  exact ⟨g1.trans h1, g2.trans h2, g3.trans h3, g4.trans h4, g5.trans h5, g6.trans h6, g7.trans h7, g8.trans h8,
    g9.trans h9, g10.trans h10, g11.trans h11⟩

theorem SameRest.ctx {s t : State} (h : SameRest s t) (x : CtxIx) : t.ctx x = s.ctx x := by
  match x with
  | 0 => exact h.2.1
  | 1 => exact h.2.2.1

theorem kept_sameRest : Kept SameRest where
  refl := SameRest.refl
  trans := SameRest.trans
  start s := by
    rcases phaseStart_cases s with ⟨_, h⟩ | ⟨e, he, h⟩ <;> rw [h]
    · exact .refl s
    · exact ⟨rfl, rfl, rfl, rfl, rfl, by simp, onStart_kind he, rfl, rfl, rfl, rfl⟩
  send b s := by
    rcases phaseSend_cases b s with ⟨_, h⟩ | ⟨a, e, he, h⟩ <;> rw [h]
    · exact .refl s
    · exact ⟨rfl, rfl, rfl, rfl, rfl, by simp, onSend_kind he, rfl, rfl, rfl, rfl⟩
  recv k s := by
    rcases phaseRecv_cases k s with ⟨_, h⟩ | ⟨b, e, he, h⟩ <;> rw [h]
    · exact .refl s
    · exact ⟨rfl, rfl, rfl, rfl, rfl, by simp, onRecv_kind he, rfl, rfl, rfl, rfl⟩
  stop s := by
    rcases phaseStop_cases s with ⟨_, h⟩ | ⟨e, he, h⟩ <;> rw [h]
    · exact .refl s
    · exact ⟨rfl, rfl, rfl, rfl, rfl, by simp, onStart_kind he, rfl, rfl, rfl, rfl⟩

/-- Every primitive keeps the memories of the simulated devices canonical (rule R36). -/
theorem kept_memInv : Kept fun s t => MemInv s → MemInv t where
  refl _ h := h
  trans h g m := g (h m)
  start s := by
    rcases phaseStart_cases s with ⟨_, h⟩ | ⟨e, he, h⟩ <;> rw [h]
    · exact id
    · intro m j; simpa [onStart_regs he j] using m j
  send b s := by
    rcases phaseSend_cases b s with ⟨_, h⟩ | ⟨a, e, he, h⟩ <;> rw [h]
    · exact id
    · intro m j; simpa using onSend_wf he j (m j)
  recv k s := by
    rcases phaseRecv_cases k s with ⟨_, h⟩ | ⟨b, e, he, h⟩ <;> rw [h]
    · exact id
    · intro m j; simpa [onRecv_regs he j] using m j
  stop s := by
    rcases phaseStop_cases s with ⟨_, h⟩ | ⟨e, he, h⟩ <;> rw [h]
    · exact id
    · intro m j; simpa [onStart_regs he j] using m j

/-! ### The bus side of the invariant -/

/-- What `BusInv` says of the bus itself, the command in flight left aside. -/
def BusCore (s : State) : Prop :=
  phaseOfTrace s.trace = s.phase ∧ statusOwned s.status = decide (s.phase ≠ .idle) ∧ statusReserved s.status = 0

/-- The same, and the bus is owned. -/
def BusOwned (s : State) : Prop := BusCore s ∧ s.phase ≠ .idle

theorem phaseOfTrace_append (t : List BusEvent) (e : BusEvent) :
    phaseOfTrace (t ++ [e]) = phaseAfter (phaseOfTrace t) e := by simp [phaseOfTrace]

/-- A property `I` the first part keeps, and that with `A` the first part establishes the rest keeps. -/
theorem andThen_inv {I A : State → Prop} {r : Ran} {f : State → Ran} (h1 : r.done = false → I r.state)
    (h2 : r.done = true → A r.state) (hf : ∀ t, A t → I (f t).state) : I (r.andThen f).state := by
  rcases andThen_cases r f with ⟨h, e⟩ | ⟨h, e⟩ <;> rw [e]
  · exact h1 h
  · exact hf _ (h2 h)

theorem busCore_start {s : State} (h : BusCore s) :
    BusCore (phaseStart s).state ∧ ((phaseStart s).done = true → BusOwned (phaseStart s).state) := by
  obtain ⟨h1, h2, h3⟩ := h
  rcases phaseStart_cases s with ⟨_, e⟩ | ⟨e', _, e⟩ <;> rw [e]
  · exact ⟨⟨h1, h2, h3⟩, by simp⟩
  · have : BusCore (advance { s with
            env := e'
            trace := s.trace ++ [if s.phase = .idle then .s else .sr]
            phase := .started
            status := setOwned s.status true }) := by
      refine ⟨?_, by simp, by simp [h3]⟩
      simp only [advance_trace, advance_phase, phaseOfTrace_append]
      split <;> rfl
    exact ⟨this, fun _ => ⟨this, by simp⟩⟩

theorem busCore_send (b : Byte) {s : State} (h : BusCore s) :
    BusCore (phaseSend b s).state ∧ (s.phase ≠ .idle → BusOwned (phaseSend b s).state) := by
  obtain ⟨h1, h2, h3⟩ := h
  rcases phaseSend_cases b s with ⟨_, e⟩ | ⟨a, e', _, e⟩ <;> rw [e]
  · exact ⟨⟨h1, h2, h3⟩, fun hp => ⟨⟨h1, h2, h3⟩, hp⟩⟩
  · have hidle : phaseAfterSend s.phase b = .idle ↔ s.phase = .idle := by
      unfold phaseAfterSend
      cases s.phase <;> simp
      split <;> simp
    have : BusCore (advance { s with
            env := e'
            trace := s.trace ++ [.w b a]
            phase := phaseAfterSend s.phase b
            status := setAck s.status a
            ackHeld := true }) := by
      refine ⟨?_, ?_, by simp [h3]⟩
      · simp only [advance_trace, advance_phase, phaseOfTrace_append, h1, phaseAfter, phaseAfterSend, directionRead]
        rfl
      · simp [h2, hidle]
    exact ⟨this, fun hp => ⟨this, by simpa [hidle] using hp⟩⟩

theorem busCore_recv (k : Bool) {s : State} (h : BusOwned s) : BusOwned (phaseRecv k s).state := by
  obtain ⟨⟨h1, h2, h3⟩, hp⟩ := h
  rcases phaseRecv_cases k s with ⟨_, e⟩ | ⟨b, e', _, e⟩ <;> rw [e]
  · exact ⟨⟨h1, h2, h3⟩, hp⟩
  · refine ⟨⟨?_, ?_, by simpa using h3⟩, ?_⟩
    · simp only [advance_trace, advance_phase, phaseOfTrace_append, phaseAfter]
    · cases k <;> simp [h2, hp]
    · cases k <;> simp

theorem busCore_stop {s : State} (h : BusCore s) : BusCore (phaseStop s).state := by
  obtain ⟨h1, h2, h3⟩ := h
  rcases phaseStop_cases s with ⟨_, e⟩ | ⟨e', _, e⟩ <;> rw [e]
  · exact ⟨h1, h2, h3⟩
  · refine ⟨?_, by simp, by simp [h3]⟩
    simp only [advance_trace, advance_phase, phaseOfTrace_append, phaseAfter]

theorem busCore_writeFrame (d r v : Byte) {s : State} (h : BusCore s) : BusCore (writeFrame d r v s).state := by
  unfold writeFrame
  refine andThen_inv (A := BusCore) (fun _ => (busCore_start h).1) (fun _ => (busCore_start h).1) fun s h => ?_
  refine andThen_inv (A := BusCore) (fun _ => (busCore_send _ h).1) (fun _ => (busCore_send _ h).1) fun s h => ?_
  refine andThen_inv (A := BusCore) (fun _ => (busCore_send _ h).1) (fun _ => (busCore_send _ h).1) fun s h => ?_
  exact andThen_inv (A := BusCore) (fun _ => (busCore_send _ h).1) (fun _ => (busCore_send _ h).1) fun s h =>
    busCore_stop h

theorem busCore_readFrame (d r : Byte) {s : State} (h : BusCore s) : BusCore (readFrame d r s).state := by
  unfold readFrame
  refine andThen_inv (A := BusCore) (fun _ => (busCore_start h).1) (fun _ => (busCore_start h).1) fun s h => ?_
  refine andThen_inv (A := BusCore) (fun _ => (busCore_send _ h).1) (fun _ => (busCore_send _ h).1) fun s h => ?_
  refine andThen_inv (A := BusCore) (fun _ => (busCore_send _ h).1) (fun _ => (busCore_send _ h).1) fun s h => ?_
  refine andThen_inv (A := BusOwned) (fun _ => (busCore_start h).1) (fun hd => (busCore_start h).2 hd) fun s h => ?_
  refine andThen_inv (A := BusOwned) (fun _ => (busCore_send _ h.1).1) (fun _ => (busCore_send _ h.1).2 h.2)
    fun s h => ?_
  exact andThen_inv (A := BusOwned) (fun _ => (busCore_recv _ h).1) (fun _ => busCore_recv _ h) fun s h =>
    busCore_stop h.1

theorem busCore_readThen (d r : Byte) {s : State} {f : Byte → State → Ran} (h : BusCore s)
    (hf : ∀ b t, BusCore t → BusCore (f b t).state) : BusCore (readThen d r s f).state :=
  andThen_inv (A := BusCore) (fun _ => busCore_readFrame d r h) (fun _ => busCore_readFrame d r h)
    fun t ht => hf t.rxdata t ht

/-- A change of the context file alone keeps the bus side. -/
theorem busCore_congr {s t : State} (h : BusCore s) (h1 : t.trace = s.trace) (h2 : t.phase = s.phase)
    (h3 : t.status = s.status) : BusCore t := by
  unfold BusCore at h ⊢
  rw [h1, h2, h3]
  exact h

/-- The body of a command that is not refused keeps the bus side of the invariant. -/
theorem busCore_bodyOf {i : Instr} {s : State} (hl : ∀ k, i = .recvbyte k → s.phase ≠ .idle) (h : BusCore s) :
    BusCore (bodyOf i s).state := by
  cases i with
  | start => exact (busCore_start h).1
  | sendbyte b => exact (busCore_send b h).1
  | recvbyte k => exact (busCore_recv k ⟨h, hl k rfl⟩).1
  | stop => exact busCore_stop h
  | writereg d r v => exact busCore_writeFrame d r v h
  | readreg d r => exact busCore_readFrame d r h
  | loadcal x =>
    refine busCore_readThen _ _ h fun _ _ h => ?_
    refine busCore_readThen _ _ h fun _ _ h => ?_
    refine busCore_readThen _ _ h fun _ _ h => ?_
    refine busCore_readThen _ _ h fun _ _ h => ?_
    refine busCore_readThen _ _ h fun _ _ h => ?_
    exact busCore_readThen _ _ h fun _ _ h => busCore_congr h (by simp) (by simp) (by simp)
  | readraw x =>
    refine busCore_readThen _ _ h fun _ _ h => ?_
    refine busCore_readThen _ _ h fun _ _ h => ?_
    exact busCore_readThen _ _ h fun _ _ h => busCore_congr h (by simp) (by simp) (by simp)
  | compensate x =>
    refine busCore_congr (t := (compBody x s).state) h ?_ ?_ ?_ <;> simp [compBody]
  | addrW a7 => exact (busCore_send _ h).1
  | addrR a7 => exact (busCore_send _ h).1

/-! ### The context file -/

/-- What a body does to the context file: `DEVADDR` stays, a value of the configured format stays one, and the marks that
go together stay together. -/
def CtxKept (s t : State) : Prop :=
  t.cfg = s.cfg ∧ (∀ x, (t.ctx x).devaddr = (s.ctx x).devaddr)
    ∧ ((∀ x, (s.ctx x).temp.format = s.cfg.fpfmt) → ∀ x, (t.ctx x).temp.format = s.cfg.fpfmt)
    ∧ ((∀ x, (s.ctx x).held.t2 = (s.ctx x).held.t1 ∧ (s.ctx x).held.t3 = (s.ctx x).held.t1
          ∧ (s.ctx x).held.temp = (s.ctx x).held.tfine) →
        ∀ x, (t.ctx x).held.t2 = (t.ctx x).held.t1 ∧ (t.ctx x).held.t3 = (t.ctx x).held.t1
          ∧ (t.ctx x).held.temp = (t.ctx x).held.tfine)
    ∧ t.session = s.session ∧ t.port = s.port
    ∧ t.guarded = s.guarded ∧ (s.unwrittenUse = true → t.unwrittenUse = true) ∧ t.readAsked = s.readAsked
    ∧ t.readAnswer = s.readAnswer

theorem CtxKept.trans {a b c : State} (h : CtxKept a b) (g : CtxKept b c) : CtxKept a c := by
  obtain ⟨h1, h2, h3, h4, h5, h6, h7, h8, h9, h10⟩ := h
  obtain ⟨g1, g2, g3, g4, g5, g6, g7, g8, g9, g10⟩ := g
  refine ⟨g1.trans h1, fun x => (g2 x).trans (h2 x), fun q => ?_, fun q => g4 (h4 q), g5.trans h5, g6.trans h6,
    g7.trans h7, fun q => g8 (h8 q), g9.trans h9, g10.trans h10⟩
  have := g3 (by rw [h1]; exact h3 q)
  rwa [h1] at this

theorem SameRest.ctxKept {s t : State} (h : SameRest s t) : CtxKept s t := by
  have hc := h.ctx
  obtain ⟨h1, _, _, h4, h5, _, _, h8, h9, h10, h11⟩ := h
  exact ⟨h1, fun x => by rw [hc], fun q x => by rw [hc]; exact q x, fun q x => by rw [hc]; exact q x, h5, h4, h8,
    fun q => h9 ▸ q, h10, h11⟩

theorem kept_ctxKept : Kept CtxKept where
  refl s := (SameRest.refl s).ctxKept
  trans := CtxKept.trans
  start s := (kept_sameRest.start s).ctxKept
  send b s := (kept_sameRest.send b s).ctxKept
  recv k s := (kept_sameRest.recv k s).ctxKept
  stop s := (kept_sameRest.stop s).ctxKept

/-- Every result of an operation is of the format asked for. -/
theorem format_packDatum (f : FpFormat) (v : BitVec 64) (d : Datum) : (packDatum f v d).format = f := by
  cases d <;> cases f <;> rfl

@[simp] theorem format_fadd (f : FpFormat) (x y : Fp) : (fadd f x y).format = f := format_packDatum ..
@[simp] theorem format_fdiv (f : FpFormat) (x y : Fp) : (fdiv f x y).format = f := format_packDatum ..
@[simp] theorem format_zero (f : FpFormat) : (Fp.zero f).format = f := by cases f <;> rfl

theorem ctxKept_writeTriple (x : CtxIx) (t1 t2 t3 : BitVec 16) (s : State) : CtxKept s (writeTriple x t1 t2 t3 s) := by
  refine ⟨by simp, fun y => ?_, fun q y => ?_, fun q y => ?_, by simp, by simp, by simp, by simp, by simp, by simp⟩ <;>
    rw [writeTriple_ctx] <;> split
  · subst_vars; rfl
  · rfl
  · exact q x
  · exact q y
  · exact ⟨rfl, rfl, (q x).2.2⟩
  · exact q y

theorem ctxKept_writeRaw (x : CtxIx) (v : BitVec 20) (s : State) : CtxKept s (writeRaw x v s) := by
  refine ⟨by simp, fun y => ?_, fun q y => ?_, fun q y => ?_, by simp, by simp, by simp, by simp, by simp, by simp⟩ <;>
    rw [writeRaw_ctx] <;> split
  · subst_vars; rfl
  · rfl
  · exact q x
  · exact q y
  · exact q x
  · exact q y

theorem compBody_ctx (x y : CtxIx) (s : State) :
    (compBody x s).state.ctx y = if y = x then compensated s.cfg.fpfmt (s.ctx x) else s.ctx y := by
  have : (compBody x s).state.ctx y = (s.setCtx x (compensated s.cfg.fpfmt (s.ctx x))).ctx y := rfl
  rw [this, ctx_setCtx]

theorem ctxKept_compBody (x : CtxIx) (s : State) : CtxKept s (compBody x s).state := by
  refine ⟨by simp [compBody], fun y => ?_, fun q y => ?_, fun q y => ?_, by simp [compBody], by simp [compBody],
    by simp [compBody], fun q => by simp [compBody, q], by simp [compBody], by simp [compBody]⟩ <;>
    rw [compBody_ctx] <;> split
  · subst_vars; rfl
  · rfl
  · simp [compensated, comp]
  · exact q y
  · exact ⟨(q x).1, (q x).2.1, rfl⟩
  · exact q y

/-- What every command does to the context file and the rest. -/
theorem ctxKept_bodyOf (i : Instr) (s : State) : CtxKept s (bodyOf i s).state := by
  cases i with
  | start => exact kept_ctxKept.start s
  | sendbyte b => exact kept_ctxKept.send b s
  | recvbyte k => exact kept_ctxKept.recv k s
  | stop => exact kept_ctxKept.stop s
  | writereg d r v => exact kept_ctxKept.write_frame d r v s
  | readreg d r => exact kept_ctxKept.read_frame d r s
  | loadcal x => exact kept_ctxKept.load_cal x s fun t1 t2 t3 t => ctxKept_writeTriple x t1 t2 t3 t
  | readraw x => exact kept_ctxKept.read_raw x s fun v t => ctxKept_writeRaw x v t
  | compensate x => exact ctxKept_compBody x s
  | addrW a7 => exact kept_ctxKept.send _ s
  | addrR a7 => exact kept_ctxKept.send _ s

theorem memInv_of_env {s t : State} (h : MemInv s) (he : t.env = s.env) : MemInv t := by
  intro j; rw [he]; exact h j

/-- Every command keeps the memories of the simulated devices canonical. -/
theorem memInv_bodyOf (i : Instr) {s : State} (h : MemInv s) : MemInv (bodyOf i s).state := by
  cases i with
  | start => exact kept_memInv.start s h
  | sendbyte b => exact kept_memInv.send b s h
  | recvbyte k => exact kept_memInv.recv k s h
  | stop => exact kept_memInv.stop s h
  | writereg d r v => exact kept_memInv.write_frame d r v s h
  | readreg d r => exact kept_memInv.read_frame d r s h
  | loadcal x => exact kept_memInv.load_cal x s (fun t1 t2 t3 t h => memInv_of_env h (by simp)) h
  | readraw x => exact kept_memInv.read_raw x s (fun v t h => memInv_of_env h (by simp)) h
  | compensate x => exact memInv_of_env h (by simp [bodyOf, compBody])
  | addrW a7 => exact kept_memInv.send _ s h
  | addrR a7 => exact kept_memInv.send _ s h

/-! ### Whole commands -/

/-- A relation that accepting, the body and finishing keep, a whole command keeps. -/
theorem exec_rel {P : State → State → Prop} (trans : ∀ {a b c}, P a b → P b c → P a c) {i : Instr} {s t : State}
    (h : exec i s = .next t) (h1 : P s (accept i s)) (h2 : P (accept i s) (bodyOf i (accept i s)).state)
    (h3 : ∀ u, P u (finish u)) : P s t := by
  rw [exec_next h]
  rcases runCommand_cases i (bodyOf i) s with ⟨_, e⟩ | ⟨_, e⟩ <;> rw [e]
  · exact trans (trans h1 h2) (h3 _)
  · exact trans h1 h2

theorem exec_ctxKept {i : Instr} {s t : State} (h : exec i s = .next t) : CtxKept s t :=
  exec_rel (P := CtxKept) CtxKept.trans h ⟨rfl, fun _ => rfl, id, id, rfl, rfl, rfl, id, rfl, rfl⟩ (ctxKept_bodyOf i _)
    fun _ => ⟨rfl, fun _ => rfl, id, id, rfl, rfl, rfl, id, rfl, rfl⟩

theorem exec_memInv {i : Instr} {s t : State} (h : exec i s = .next t) : MemInv s → MemInv t :=
  exec_rel (P := fun s t => MemInv s → MemInv t) (fun f g m => g (f m)) h (fun m => memInv_of_env m rfl)
    (memInv_bodyOf i) fun _ m => memInv_of_env m rfl

/-- The bus side of the invariant is about three fields alone. -/
theorem busCore_accept {i : Instr} {s : State} (h : BusCore s) : BusCore (accept i s) := by
  obtain ⟨h1, h2, h3⟩ := h
  exact ⟨h1, by rw [accept_status, statusOwned_setBusy, h2]; rfl, by rw [accept_status, statusReserved_setBusy, h3]⟩

theorem busCore_finish {s : State} (h : BusCore s) : BusCore (finish s) := by
  obtain ⟨h1, h2, h3⟩ := h
  exact ⟨h1, by rw [finish_status, statusOwned_setBusy, h2]; rfl, by rw [finish_status, statusReserved_setBusy, h3]⟩

end Sys2Proof.Machine
end

