-- ==== Sys2Proof/Laws/Events.lean ====
section
/-! SUPPORT. Which events a command's body has put into the history when it finishes or hangs (rules R90, R163, R164), said
once for all commands: those of its rule, as far as its primitives completed. -/

namespace Sys2Proof.Machine

open Sys2Proof.Safety

/-- From `s`, a body that means to show the events `l` has shown the first of them, all of them just when it is done, and then
`Q` holds. -/
def Shows (l : List BusEvent) (Q : State → Prop) (s : State) (r : Ran) : Prop :=
  (∃ es, r.state.trace = s.trace ++ es ∧ es.map eventShape = l.take es.length ∧ es.length ≤ l.length
    ∧ (r.done = true ↔ es.length = l.length))
  ∧ (r.done = true → Q r.state)

/-- A primitive that hangs shows nothing, one that completes shows its event. -/
theorem shows_of_one {x : BusEvent} {Q : State → Prop} {s : State} {r : Ran}
    (h : r = { state := s, done := false } ∨
      ∃ (t : State) (e : BusEvent), r = { state := t, done := true } ∧ t.trace = s.trace ++ [e] ∧ eventShape e = x ∧ Q t) :
    Shows [x] Q s r := by
  rcases h with rfl | ⟨t, e, rfl, h1, h2, h3⟩
  · exact ⟨⟨[], by simp⟩, by simp⟩
  · exact ⟨⟨[e], by simp [h1, h2]⟩, fun _ => h3⟩

/-- Parts follow one another. -/
theorem Shows.andThen {l m : List BusEvent} {P Q : State → Prop} {s : State} {r : Ran} {f : State → Ran}
    (h : Shows l P s r) (hf : ∀ t, P t → Shows m Q t (f t)) (hm : m ≠ []) : Shows (l ++ m) Q s (r.andThen f) := by
  obtain ⟨⟨es, h1, h2, h3, h4⟩, hp⟩ := h
  have hl : 0 < m.length := List.length_pos_iff.2 hm
  rcases andThen_cases r f with ⟨h, e⟩ | ⟨h, e⟩ <;> rw [e]
  · have : es.length ≠ l.length := fun c => by simp [h4.2 c] at h
    refine ⟨⟨es, h1, ?_, by simp; omega, by simp [h]; omega⟩, by simp [h]⟩
    rw [List.take_append_of_le_length h3, h2]
  · obtain ⟨⟨es', g1, g2, g3, g4⟩, gq⟩ := hf r.state (hp h)
    have he := h4.1 h
    refine ⟨⟨es ++ es', by rw [g1, h1, List.append_assoc], ?_, by simp; omega, by rw [g4]; simp; omega⟩, gq⟩
    rw [List.map_append, h2, g2, he, List.length_append, he, List.take_length, List.take_length_add_append]

/-- A last part that is no primitive shows nothing. -/
theorem Shows.thenWrite {l : List BusEvent} {P : State → Prop} {s : State} {r : Ran} {f : State → Ran}
    (h : Shows l P s r) (hf : ∀ t, (f t).done = true ∧ (f t).state.trace = t.trace) :
    Shows l (fun _ => True) s (r.andThen f) := by
  obtain ⟨⟨es, h1, h2, h3, h4⟩, _⟩ := h
  rcases andThen_cases r f with ⟨h, e⟩ | ⟨h, e⟩ <;> rw [e]
  · exact ⟨⟨es, h1, h2, h3, h4⟩, fun _ => trivial⟩
  · exact ⟨⟨es, by rw [(hf _).2, h1], h2, h3, by rw [(hf _).1]; simpa [h] using h4⟩, fun _ => trivial⟩

/-! ### The primitives -/

/-- The bus is owned and the configuration is `c`. -/
def OwnedIn (c : Cfg) (s : State) : Prop := s.phase ≠ .idle ∧ s.cfg = c

/-- The bus is idle and the configuration is `c`. -/
def IdleIn (c : Cfg) (s : State) : Prop := s.phase = .idle ∧ s.cfg = c

theorem shows_start (s : State) :
    Shows [if s.phase = .idle then .s else .sr] (OwnedIn s.cfg) s (phaseStart s) := by
  apply shows_of_one
  rcases phaseStart_cases s with ⟨_, h⟩ | ⟨e, _, h⟩
  · exact .inl h
  · exact .inr ⟨_, _, h, rfl, by split <;> rfl, by simp [OwnedIn]⟩

theorem shows_send (b : Byte) (s : State) :
    Shows [.w b false] (fun t => s.phase ≠ .idle → OwnedIn s.cfg t) s (phaseSend b s) := by
  apply shows_of_one
  rcases phaseSend_cases b s with ⟨_, h⟩ | ⟨a, e, _, h⟩
  · exact .inl h
  · refine .inr ⟨_, _, h, rfl, rfl, fun hp => ⟨?_, rfl⟩⟩
    simp only [advance_phase, phaseAfterSend]
    split
    · split <;> simp
    · exact hp

theorem shows_recv (k : Bool) (s : State) : Shows [.r 0 k] (OwnedIn s.cfg) s (phaseRecv k s) := by
  apply shows_of_one
  rcases phaseRecv_cases k s with ⟨_, h⟩ | ⟨b, e, _, h⟩
  · exact .inl h
  · exact .inr ⟨_, _, h, rfl, rfl, by cases k <;> simp [OwnedIn]⟩

theorem shows_stop (s : State) : Shows [.p] (IdleIn s.cfg) s (phaseStop s) := by
  apply shows_of_one
  rcases phaseStop_cases s with ⟨_, h⟩ | ⟨e, _, h⟩
  · exact .inl h
  · exact .inr ⟨_, _, h, rfl, rfl, by simp [IdleIn]⟩

/-- What is shown stays shown under a weaker end. -/
theorem Shows.imp {l : List BusEvent} {P Q : State → Prop} {s : State} {r : Ran} (h : Shows l P s r)
    (hq : ∀ t, P t → Q t) : Shows l Q s r := ⟨h.1, fun d => hq _ (h.2 d)⟩

theorem shows_start_idle {c : Cfg} {s : State} (h : IdleIn c s) : Shows [.s] (OwnedIn c) s (phaseStart s) := by
  simpa [h.1, h.2] using shows_start s

theorem shows_start_owned {c : Cfg} {s : State} (h : OwnedIn c s) : Shows [.sr] (OwnedIn c) s (phaseStart s) := by
  simpa [h.1, h.2] using shows_start s

theorem shows_send_owned {c : Cfg} {s : State} (b : Byte) (h : OwnedIn c s) :
    Shows [.w b false] (OwnedIn c) s (phaseSend b s) :=
  (shows_send b s).imp fun _ ht => h.2 ▸ ht h.1

theorem shows_recv_owned {c : Cfg} {s : State} (k : Bool) (h : OwnedIn c s) :
    Shows [.r 0 k] (OwnedIn c) s (phaseRecv k s) := by simpa [h.2] using shows_recv k s

theorem shows_stop_owned {c : Cfg} {s : State} (h : OwnedIn c s) : Shows [.p] (IdleIn c) s (phaseStop s) := by
  simpa [h.2] using shows_stop s

/-! ### The bodies -/

theorem shows_writeFrame {c : Cfg} {s : State} (d r v : Byte) (h : IdleIn c s) :
    Shows [.s, .w (addrWrite d) false, .w r false, .w v false, .p] (IdleIn c) s (writeFrame d r v s) := by
  unfold writeFrame
  refine (shows_start_idle h).andThen (m := [.w (addrWrite d) false, .w r false, .w v false, .p]) (fun t h => ?_) (by simp)
  refine (shows_send_owned _ h).andThen (m := [.w r false, .w v false, .p]) (fun t h => ?_) (by simp)
  refine (shows_send_owned _ h).andThen (m := [.w v false, .p]) (fun t h => ?_) (by simp)
  exact (shows_send_owned _ h).andThen (m := [.p]) (fun t h => shows_stop_owned h) (by simp)

theorem shows_readFrame {c : Cfg} {s : State} (d r : Byte) (h : IdleIn c s) :
    Shows (readShapes d r) (IdleIn c) s (readFrame d r s) := by
  unfold readFrame readShapes
  refine (shows_start_idle h).andThen
    (m := [.w (addrWrite d) false, .w r false, .sr, .w (addrRead d) false, .r 0 false, .p]) (fun t h => ?_) (by simp)
  refine (shows_send_owned _ h).andThen (m := [.w r false, .sr, .w (addrRead d) false, .r 0 false, .p]) (fun t h => ?_)
    (by simp)
  refine (shows_send_owned _ h).andThen (m := [.sr, .w (addrRead d) false, .r 0 false, .p]) (fun t h => ?_) (by simp)
  refine (shows_start_owned h).andThen (m := [.w (addrRead d) false, .r 0 false, .p]) (fun t h => ?_) (by simp)
  refine (shows_send_owned _ h).andThen (m := [.r 0 false, .p]) (fun t h => ?_) (by simp)
  exact (shows_recv_owned _ h).andThen (m := [.p]) (fun t h => shows_stop_owned h) (by simp)

theorem shows_readThen {c : Cfg} {s : State} {m : List BusEvent} {Q : State → Prop} (d r : Byte)
    {f : Byte → State → Ran} (h : IdleIn c s) (hf : ∀ b t, IdleIn c t → Shows m Q t (f b t)) (hm : m ≠ []) :
    Shows (readShapes d r ++ m) Q s (readThen d r s f) :=
  (shows_readFrame d r h).andThen (fun t ht => hf t.rxdata t ht) hm

theorem readShapes_ne (d r : Byte) : readShapes d r ≠ [] := by simp [readShapes]

theorem shows_loadCal {s : State} (x : CtxIx) (h : s.phase = .idle) :
    Shows (commandShapes (.loadcal x) s) (fun _ => True) s (loadCalBody x s) := by
  have h : IdleIn s.cfg s := ⟨h, rfl⟩
  unfold loadCalBody
  refine shows_readThen _ _ h (fun _ t h => ?_) (by simp [readShapes])
  rw [h.2]; refine shows_readThen _ _ h (fun _ t h => ?_) (by simp [readShapes])
  rw [h.2]; refine shows_readThen _ _ h (fun _ t h => ?_) (by simp [readShapes])
  rw [h.2]; refine shows_readThen _ _ h (fun _ t h => ?_) (by simp [readShapes])
  rw [h.2]; refine shows_readThen _ _ h (fun _ t h => ?_) (by simp [readShapes])
  rw [h.2]; exact (shows_readFrame _ _ h).thenWrite fun t => by simp

theorem shows_readRaw {s : State} (x : CtxIx) (h : s.phase = .idle) :
    Shows (commandShapes (.readraw x) s) (fun _ => True) s (readRawBody x s) := by
  have h : IdleIn s.cfg s := ⟨h, rfl⟩
  unfold readRawBody
  refine shows_readThen _ _ h (fun _ t h => ?_) (by simp [readShapes])
  rw [h.2]; refine shows_readThen _ _ h (fun _ t h => ?_) (by simp [readShapes])
  rw [h.2]; exact (shows_readFrame _ _ h).thenWrite fun t => by simp

/-- A command has as many events as primitives. -/
theorem commandShapes_length (i : Instr) (s : State) : (commandShapes i s).length = primitiveCount i := by
  cases i <;> rfl

/-- What a command that is not refused has shown of its events when it finishes or hangs (rules R90, R163, R164). -/
theorem shows_bodyOf {i : Instr} {s t : State} (h : exec i s = .next t) :
    Shows (commandShapes i s) (fun _ => True) (accept i s) (bodyOf i (accept i s)) := by
  have hl := exec_next_legal h
  have any : ∀ {l : List BusEvent} {P : State → Prop} {r : Ran}, Shows l P (accept i s) r →
      Shows l (fun _ => True) (accept i s) r := fun h => h.imp fun _ _ => trivial
  cases i with
  | start => exact any (shows_start (accept .start s))
  | sendbyte b => exact any (shows_send b (accept (.sendbyte b) s))
  | recvbyte k => exact any (shows_recv k (accept (.recvbyte k) s))
  | stop => exact any (shows_stop (accept .stop s))
  | writereg d r v =>
    simp only [specRefusal] at hl
    split at hl
    · split at hl
      · exact any (shows_writeFrame d r v ⟨by simpa, rfl⟩)
      · simp at hl
    · simp at hl
  | readreg d r =>
    simp only [specRefusal] at hl
    split at hl
    · split at hl
      · exact any (shows_readFrame d r ⟨by simpa, rfl⟩)
      · simp at hl
    · simp at hl
  | loadcal x =>
    simp only [specRefusal] at hl
    split at hl
    · exact shows_loadCal (s := accept (.loadcal x) s) x (by simpa)
    · simp at hl
  | readraw x =>
    simp only [specRefusal] at hl
    split at hl
    · exact shows_readRaw (s := accept (.readraw x) s) x (by simpa)
    · simp at hl
  | compensate x => exact ⟨⟨[], by simp [bodyOf, compBody], rfl, by simp, by simp [bodyOf, compBody, commandShapes]⟩, fun _ => trivial⟩
  | addrW a7 => exact any (shows_send _ (accept (.addrW a7) s))
  | addrR a7 => exact any (shows_send _ (accept (.addrR a7) s))

end Sys2Proof.Machine
end

