-- ==== Sys2Proof/Laws/Float.lean ====
section
/-! SUPPORT. The laws of the arithmetic of rule R121 that later proofs cite: powers of two, the nearest even integer, the
pattern of a magnitude and the magnitude of a pattern, and exact results that need no rounding. -/

namespace Sys2Proof.Machine

/-! ### Powers of two -/

theorem pow2_eq (e : Int) : pow2 e = (2 : Rat) ^ e := by
  cases e with
  | ofNat n => simp [pow2]
  | negSucc n =>
    simp only [pow2, zpow_negSucc, Rat.mkRat_eq_div]
    push_cast
    simp

theorem pow2_pos (e : Int) : 0 < pow2 e := by rw [pow2_eq]; positivity

theorem pow2_add (a b : Int) : pow2 (a + b) = pow2 a * pow2 b := by
  simp only [pow2_eq]
  exact zpow_add₀ (by norm_num) a b

theorem pow2_natCast (n : Nat) : pow2 (n : Int) = (2 : Rat) ^ n := by simp [pow2_eq]

theorem pow2_mono {a b : Int} (h : a ≤ b) : pow2 a ≤ pow2 b := by
  simp only [pow2_eq]
  exact zpow_le_zpow_right₀ (by norm_num) h

theorem pow2_lt {a b : Int} (h : a < b) : pow2 a < pow2 b := by
  simp only [pow2_eq]
  exact zpow_lt_zpow_right₀ (by norm_num) h

/-- `log2Floor` is the integer part of the binary logarithm. -/
theorem log2Floor_spec {q : Rat} (hq : 0 < q) : pow2 (log2Floor q) ≤ q ∧ q < pow2 (log2Floor q + 1) := by
  have hn : 0 < q.num := Rat.num_pos.2 hq
  have hd : 0 < q.den := q.den_pos
  obtain ⟨n, hn'⟩ : ∃ n : Nat, q.num = n := ⟨q.num.natAbs, by omega⟩
  have hn0 : n ≠ 0 := by omega
  have hqe : q = (n : Rat) / (q.den : Rat) := by
    have := Rat.num_div_den q
    rw [hn', Int.cast_natCast] at this
    exact this.symm
  have hnat : q.num.natAbs = n := by omega
  set a := n.log2 with ha
  set b := q.den.log2 with hb
  have hna : (2 : Rat) ^ a ≤ n := by exact_mod_cast Nat.log2_self_le hn0
  have hna' : (n : Rat) < 2 ^ (a + 1) := by exact_mod_cast Nat.lt_log2_self (n := n)
  have hdb : (2 : Rat) ^ b ≤ q.den := by exact_mod_cast Nat.log2_self_le (by omega : q.den ≠ 0)
  have hdb' : (q.den : Rat) < 2 ^ (b + 1) := by exact_mod_cast Nat.lt_log2_self (n := q.den)
  have hdpos : (0 : Rat) < q.den := by exact_mod_cast hd
  have hup : q < pow2 ((a : Int) - b + 1) := by
    rw [hqe, div_lt_iff₀ hdpos]
    calc (n : Rat) < 2 ^ (a + 1) := hna'
      _ = pow2 ((a : Int) - b + 1) * 2 ^ b := by
        rw [← pow2_natCast, ← pow2_natCast, ← pow2_add]; congr 1; push_cast; ring
      _ ≤ pow2 ((a : Int) - b + 1) * q.den := by
        exact mul_le_mul_of_nonneg_left hdb (pow2_pos _).le
  have hlo : pow2 ((a : Int) - b - 1) ≤ q := by
    rw [hqe, le_div_iff₀ hdpos]
    calc pow2 ((a : Int) - b - 1) * q.den ≤ pow2 ((a : Int) - b - 1) * 2 ^ (b + 1) := by
          exact mul_le_mul_of_nonneg_left hdb'.le (pow2_pos _).le
      _ = 2 ^ a := by
        rw [← pow2_natCast, ← pow2_natCast, ← pow2_add]; congr 1; push_cast; ring
      _ ≤ n := hna
  unfold log2Floor
  simp only [hnat, ← ha, ← hb]
  split
  · rename_i h
    exact ⟨h, hup⟩
  · rename_i h
    exact ⟨hlo, by rw [sub_add_cancel]; exact not_le.1 h⟩

/-- Between two powers of two the logarithm is known. -/
theorem log2Floor_eq {q : Rat} {k : Int} (h1 : pow2 k ≤ q) (h2 : q < pow2 (k + 1)) : log2Floor q = k := by
  have hq : 0 < q := lt_of_lt_of_le (pow2_pos k) h1
  obtain ⟨a, b⟩ := log2Floor_spec hq
  by_contra h
  rcases lt_or_gt_of_ne h with h | h
  · have := pow2_mono (show log2Floor q + 1 ≤ k by omega)
    linarith
  · have := pow2_mono (show k + 1 ≤ log2Floor q by omega)
    linarith

/-! ### The nearest integer -/

/-- `nearestEven` is a nearest integer, and even when another is equally near. -/
theorem nearestEven_spec {x : Rat} (hx : 0 ≤ x) (m : Nat) :
    |(nearestEven x : Rat) - x| ≤ |(m : Rat) - x|
      ∧ (|(nearestEven x : Rat) - x| = |(m : Rat) - x| → m ≠ nearestEven x → nearestEven x % 2 = 0) := by
  have hf : (0 : Int) ≤ x.floor := Rat.le_floor_iff.2 (by simpa using hx)
  obtain ⟨n, hn⟩ : ∃ n : Nat, x.floor = n := ⟨x.floor.toNat, by omega⟩
  have hnt : x.floor.toNat = n := by omega
  have h1 : (n : Rat) ≤ x := by
    have := Rat.floor_le x
    rw [hn] at this
    exact_mod_cast this
  have h2 : x < n + 1 := by
    have := Rat.lt_floor_add_one x
    rw [hn] at this
    exact_mod_cast this
  have hm : (m : Rat) ≤ n ∨ (n : Rat) + 1 ≤ m := by
    rcases Nat.lt_or_ge n m with h | h
    · right; exact_mod_cast h
    · left; exact_mod_cast h
  have hne : nearestEven x = if x - n + (x - n) < 1 then n else if 1 < x - n + (x - n) then n + 1 else n + n % 2 := by
    simp only [nearestEven, hnt]
  rw [hne]
  split
  · rename_i h
    rw [abs_of_nonpos (by linarith : (n : Rat) - x ≤ 0)]
    rcases hm with hm | hm
    · rw [abs_of_nonpos (by linarith : (m : Rat) - x ≤ 0)]
      refine ⟨by linarith, fun e hmn => absurd ?_ hmn⟩
      have : (m : Rat) = n := by linarith
      exact_mod_cast this
    · rw [abs_of_nonneg (by linarith : 0 ≤ (m : Rat) - x)]
      refine ⟨by linarith, fun e _ => absurd e (by linarith)⟩
  · split
    · rename_i h
      push_cast
      rw [abs_of_nonneg (by linarith : 0 ≤ (n : Rat) + 1 - x)]
      rcases hm with hm | hm
      · rw [abs_of_nonpos (by linarith : (m : Rat) - x ≤ 0)]
        refine ⟨by linarith, fun e _ => absurd e (by linarith)⟩
      · rw [abs_of_nonneg (by linarith : 0 ≤ (m : Rat) - x)]
        refine ⟨by linarith, fun e hmn => absurd ?_ hmn⟩
        have : (m : Rat) = n + 1 := by linarith
        exact_mod_cast this
    · rename_i h h'
      have hr : x = n + 1 / 2 := by linarith
      have hpar : (n + n % 2) % 2 = 0 := by omega
      refine ⟨?_, fun _ _ => hpar⟩
      have hlhs : |((n + n % 2 : Nat) : Rat) - x| = 1 / 2 := by
        rcases Nat.mod_two_eq_zero_or_one n with h0 | h0 <;> rw [h0, hr]
        · rw [abs_of_nonpos] <;> push_cast <;> linarith
        · rw [abs_of_nonneg] <;> push_cast <;> linarith
      rw [hlhs]
      rcases hm with hm | hm
      · rw [abs_of_nonpos (by linarith : (m : Rat) - x ≤ 0)]; linarith
      · rw [abs_of_nonneg (by linarith : 0 ≤ (m : Rat) - x)]; linarith

/-- An integer rounds to itself. -/
theorem nearestEven_natCast (n : Nat) : nearestEven (n : Rat) = n := by
  have h := (nearestEven_spec (x := (n : Rat)) (by positivity) n).1
  simp only [sub_self, abs_zero, abs_nonpos_iff] at h
  have : (nearestEven (n : Rat) : Rat) = n := by linarith
  exact_mod_cast this

/-- Rounding does not cross an integer from below. -/
theorem nearestEven_le {x : Rat} {m : Nat} (hx : 0 ≤ x) (h : x ≤ m) : nearestEven x ≤ m := by
  have := (nearestEven_spec hx m).1
  by_contra hc
  have hc' : (m : Rat) + 1 ≤ nearestEven x := by exact_mod_cast Nat.lt_of_not_le hc
  rw [abs_of_nonneg (by linarith : 0 ≤ (nearestEven x : Rat) - x), abs_of_nonneg (by linarith)] at this
  linarith

/-- Nor from above. -/
theorem le_nearestEven {x : Rat} {m : Nat} (hx : 0 ≤ x) (h : (m : Rat) ≤ x) : m ≤ nearestEven x := by
  have := (nearestEven_spec hx m).1
  by_contra hc
  have hc' : (nearestEven x : Rat) + 1 ≤ m := by exact_mod_cast Nat.lt_of_not_le hc
  rw [abs_of_nonpos (by linarith : (nearestEven x : Rat) - x ≤ 0), abs_of_nonpos (by linarith)] at this
  linarith

/-! ### Patterns and magnitudes -/

theorem fpBinade_pos (f : FpFormat) : 0 < fpBinade f := by cases f <;> decide

theorem two_mul_fpBinade (f : FpFormat) : 2 * fpBinade f = 2 ^ fpPrecision f := by cases f <;> decide

theorem fpBinade_even (f : FpFormat) : fpBinade f % 2 = 0 := by cases f <;> decide

/-- The magnitude of the pattern `k` binades up with significand `n`, a carry into the next binade allowed. -/
theorem magOfPattern_binade (f : FpFormat) {k n : Nat} (h1 : n ≤ 2 * fpBinade f) (h2 : 0 < k → fpBinade f ≤ n) :
    magOfPattern f (k * fpBinade f + n) = (n : Rat) * pow2 (fpMinExp f + k) := by
  have hb := fpBinade_pos f
  have hdiv : (k * fpBinade f + n) / fpBinade f = k + n / fpBinade f := by
    rw [Nat.add_comm, Nat.add_mul_div_right _ _ hb, Nat.add_comm]
  have hmod : (k * fpBinade f + n) % fpBinade f = n % fpBinade f := by
    rw [Nat.add_comm, Nat.add_mul_mod_self_right]
  unfold magOfPattern
  simp only [hdiv, hmod]
  rcases Nat.lt_or_ge n (fpBinade f) with h | h
  · have hk : k = 0 := by
      by_contra hk
      have := h2 (by omega)
      omega
    subst hk
    simp [Nat.div_eq_of_lt h, Nat.mod_eq_of_lt h]
  · rcases Nat.lt_or_ge n (2 * fpBinade f) with h' | h'
    · have hq : n / fpBinade f = 1 := by
        apply Nat.div_eq_of_lt_le <;> omega
      have hr : n % fpBinade f = n - fpBinade f := by
        have := Nat.div_add_mod n (fpBinade f)
        rw [hq] at this
        omega
      rw [hq, hr, if_neg (by omega)]
      have : fpBinade f + (n - fpBinade f) = n := by omega
      rw [this]
      congr 2
      push_cast
      ring
    · have hn : n = 2 * fpBinade f := by omega
      subst hn
      have hq : 2 * fpBinade f / fpBinade f = 2 := Nat.mul_div_cancel _ hb
      have hr : 2 * fpBinade f % fpBinade f = 0 := Nat.mul_mod_left _ _
      rw [hq, hr, if_neg (by omega)]
      have : fpMinExp f + ((k + 2 : Nat) : Int) - 1 = fpMinExp f + k + (1 : Nat) := by push_cast; ring
      rw [this, pow2_add, pow2_natCast]
      push_cast
      ring

/-- The significand and the exponent rounding uses: the unit's exponent, and the quotient in units, between the bounds of
a significand. -/
theorem ulp_bounds (f : FpFormat) {q : Rat} (hq : 0 < q) :
    fpMinExp f ≤ ulpExp f q ∧ q / pow2 (ulpExp f q) < ((2 * fpBinade f : Nat) : Rat)
      ∧ (fpMinExp f < ulpExp f q → ((fpBinade f : Nat) : Rat) ≤ q / pow2 (ulpExp f q)) := by
  obtain ⟨h1, h2⟩ := log2Floor_spec hq
  have hp : 1 ≤ fpPrecision f := by cases f <;> decide
  have hbin : ((fpBinade f : Nat) : Rat) = pow2 ((fpPrecision f : Int) - 1) := by
    have : ((fpPrecision f : Int) - 1) = ((fpPrecision f - 1 : Nat) : Int) := by omega
    rw [this, pow2_natCast]
    simp [fpBinade]
  refine ⟨le_max_right _ _, ?_, fun h => ?_⟩
  · rw [div_lt_iff₀ (pow2_pos _)]
    have hmul : ((2 * fpBinade f : Nat) : Rat) * pow2 (ulpExp f q) = pow2 ((fpPrecision f : Int) + ulpExp f q) := by
      rw [pow2_add, two_mul_fpBinade, pow2_natCast]
      push_cast
      ring
    rw [hmul]
    refine lt_of_lt_of_le h2 (pow2_mono ?_)
    have : log2Floor q - ((fpPrecision f : Int) - 1) ≤ ulpExp f q := le_max_left _ _
    omega
  · have he : ulpExp f q = log2Floor q - ((fpPrecision f : Int) - 1) := by
      unfold ulpExp at h ⊢
      omega
    rw [le_div_iff₀ (pow2_pos _), hbin, ← pow2_add, he]
    have : (fpPrecision f : Int) - 1 + (log2Floor q - ((fpPrecision f : Int) - 1)) = log2Floor q := by ring
    rw [this]
    exact h1

/-- A result that is not infinity: its magnitude is the nearest multiple of the unit. -/
theorem magOfPattern_roundPattern (f : FpFormat) {q : Rat} (hq : 0 < q) (h : roundPattern f q < fpInfPattern f) :
    roundPattern f q = (ulpExp f q - fpMinExp f).toNat * fpBinade f + nearestEven (q / pow2 (ulpExp f q))
      ∧ magOfPattern f (roundPattern f q) = (nearestEven (q / pow2 (ulpExp f q)) : Rat) * pow2 (ulpExp f q) := by
  obtain ⟨h1, h2, h3⟩ := ulp_bounds f hq
  have hx : 0 ≤ q / pow2 (ulpExp f q) := (div_pos hq (pow2_pos _)).le
  have hr : roundPattern f q = (ulpExp f q - fpMinExp f).toNat * fpBinade f + nearestEven (q / pow2 (ulpExp f q)) := by
    unfold roundPattern at h ⊢
    rw [if_neg hq.ne'] at h ⊢
    simp only at h ⊢
    omega
  refine ⟨hr, ?_⟩
  rw [hr, magOfPattern_binade f (nearestEven_le hx h2.le)]
  · congr 2
    omega
  · intro hk
    exact le_nearestEven hx (h3 (by omega))

/-- Every pattern is so many binades up, with a significand below the top of its binade. -/
theorem pattern_split (f : FpFormat) (j : Nat) :
    ∃ k r, r < 2 * fpBinade f ∧ j = k * fpBinade f + r ∧ (0 < k → fpBinade f ≤ r)
      ∧ magOfPattern f j = (r : Rat) * pow2 (fpMinExp f + k) := by
  have hb := fpBinade_pos f
  obtain ⟨k, r, hr, rfl, hk⟩ : ∃ k r, r < 2 * fpBinade f ∧ j = k * fpBinade f + r ∧ (0 < k → fpBinade f ≤ r) := by
    rcases Nat.lt_or_ge j (fpBinade f) with hj | hj
    · exact ⟨0, j, by omega, by simp, by omega⟩
    · refine ⟨j / fpBinade f - 1, fpBinade f + j % fpBinade f, ?_, ?_, fun _ => by omega⟩
      · have := Nat.mod_lt j hb; omega
      · have h1 : 1 ≤ j / fpBinade f := Nat.div_pos hj hb
        have h2 := Nat.div_add_mod j (fpBinade f)
        obtain ⟨c, hc⟩ : ∃ c, j / fpBinade f = c + 1 := ⟨j / fpBinade f - 1, by omega⟩
        rw [hc] at h2 ⊢
        rw [Nat.add_sub_cancel, ← Nat.add_assoc]
        rw [Nat.mul_add, Nat.mul_one, Nat.mul_comm] at h2
        exact h2.symm
  exact ⟨k, r, hr, rfl, hk, magOfPattern_binade f (by omega) hk⟩

/-- The magnitudes of a format rise with their patterns. -/
theorem magOfPattern_strictMono (f : FpFormat) {m n : Nat} (h : m < n) : magOfPattern f m < magOfPattern f n := by
  have hb := fpBinade_pos f
  have step : ∀ j, magOfPattern f j < magOfPattern f (j + 1) := by
    intro j
    obtain ⟨k, r, hr, rfl, hk, _⟩ := pattern_split f j
    rw [magOfPattern_binade f (by omega) hk, Nat.add_assoc,
      magOfPattern_binade f (by omega) (fun h => by have := hk h; omega)]
    have := pow2_pos (fpMinExp f + k)
    push_cast
    nlinarith
  induction h with
  | refl => exact step m
  | step _ ih => exact lt_trans ih (step _)

theorem magOfPattern_nonneg (f : FpFormat) (n : Nat) : 0 ≤ magOfPattern f n := by
  obtain ⟨k, r, _, _, _, h⟩ := pattern_split f n
  rw [h]
  exact mul_nonneg (by positivity) (pow2_pos _).le

/-- The exponent of the unit of a magnitude the format represents. -/
theorem ulpExp_of_significand (f : FpFormat) {k r : Nat} (h0 : 0 < r) (h1 : r < 2 * fpBinade f)
    (h2 : 0 < k → fpBinade f ≤ r) : ulpExp f ((r : Rat) * pow2 (fpMinExp f + k)) = fpMinExp f + k := by
  have hp : 1 ≤ fpPrecision f := by cases f <;> decide
  have hpos := pow2_pos (fpMinExp f + k)
  have hq : 0 < (r : Rat) * pow2 (fpMinExp f + k) := mul_pos (by exact_mod_cast h0) hpos
  have hup : (r : Rat) * pow2 (fpMinExp f + k) < pow2 ((fpPrecision f : Int) + (fpMinExp f + k)) := by
    rw [pow2_add (fpPrecision f : Int)]
    refine mul_lt_mul_of_pos_right ?_ hpos
    rw [pow2_natCast]
    rw [two_mul_fpBinade] at h1
    exact_mod_cast h1
  obtain ⟨l1, l2⟩ := log2Floor_spec hq
  have hle : log2Floor ((r : Rat) * pow2 (fpMinExp f + k)) < (fpPrecision f : Int) + (fpMinExp f + k) := by
    by_contra hc
    have := pow2_mono (not_lt.1 hc)
    linarith
  unfold ulpExp
  rcases Nat.eq_zero_or_pos k with rfl | hk
  · simp only [Nat.cast_zero, add_zero] at hle ⊢
    omega
  · have hlow : pow2 ((fpPrecision f : Int) - 1 + (fpMinExp f + k)) ≤ (r : Rat) * pow2 (fpMinExp f + k) := by
      rw [pow2_add]
      refine mul_le_mul_of_nonneg_right ?_ hpos.le
      have : ((fpPrecision f : Int) - 1) = ((fpPrecision f - 1 : Nat) : Int) := by omega
      rw [this, pow2_natCast]
      have := h2 hk
      unfold fpBinade at this
      exact_mod_cast this
    have hge : (fpPrecision f : Int) - 1 + (fpMinExp f + k) ≤ log2Floor ((r : Rat) * pow2 (fpMinExp f + k)) := by
      by_contra hc
      have := pow2_mono (show log2Floor ((r : Rat) * pow2 (fpMinExp f + k)) + 1
        ≤ (fpPrecision f : Int) - 1 + (fpMinExp f + k) by omega)
      linarith
    omega

/-- A magnitude the format represents needs no rounding. -/
theorem roundPattern_magOfPattern (f : FpFormat) {n : Nat} (h : n < fpInfPattern f) :
    roundPattern f (magOfPattern f n) = n := by
  obtain ⟨k, r, h1, rfl, h2, hm⟩ := pattern_split f n
  rw [hm]
  rcases Nat.eq_zero_or_pos r with rfl | h0
  · have hk : k = 0 := by
      by_contra hk
      have := h2 (by omega)
      have := fpBinade_pos f
      omega
    subst hk
    simp [roundPattern]
  · have hpos := pow2_pos (fpMinExp f + k)
    have hq : (r : Rat) * pow2 (fpMinExp f + k) ≠ 0 := (mul_pos (by exact_mod_cast h0) hpos).ne'
    unfold roundPattern
    rw [if_neg hq]
    simp only [ulpExp_of_significand f h0 h1 h2, mul_div_cancel_right₀ _ hpos.ne', nearestEven_natCast]
    have : (fpMinExp f + (k : Int) - fpMinExp f).toNat = k := by omega
    rw [this]
    omega

/-- Rounding does not cross a magnitude the format represents. -/
theorem roundPattern_le (f : FpFormat) {q : Rat} {n : Nat} (hq : 0 ≤ q) (h : q ≤ magOfPattern f n) :
    roundPattern f q ≤ n := by
  rcases hq.eq_or_lt with rfl | hq
  · simp [roundPattern]
  obtain ⟨b1, b2, b3⟩ := ulp_bounds f hq
  have hpos := pow2_pos (ulpExp f q)
  have hx : 0 ≤ q / pow2 (ulpExp f q) := (div_pos hq hpos).le
  obtain ⟨c, hc⟩ : ∃ c : Nat, ulpExp f q = fpMinExp f + c := ⟨(ulpExp f q - fpMinExp f).toNat, by omega⟩
  have hct : (ulpExp f q - fpMinExp f).toNat = c := by omega
  have hle : roundPattern f q ≤ c * fpBinade f + nearestEven (q / pow2 (ulpExp f q)) := by
    unfold roundPattern
    rw [if_neg hq.ne']
    simp only [hct]
    exact min_le_left _ _
  refine hle.trans ?_
  have hmag := magOfPattern_binade f (k := c) (nearestEven_le hx b2.le)
    (fun hk => le_nearestEven hx (b3 (by omega)))
  by_contra hgt
  have hlt := magOfPattern_strictMono f (not_le.1 hgt)
  rw [hmag, ← hc] at hlt
  obtain ⟨k, r, h1, _, h2, hm⟩ := pattern_split f n
  rcases Nat.lt_or_ge k c with hkc | hkc
  · have hb3 := b3 (by omega)
    rw [le_div_iff₀ hpos] at hb3
    have e1 : pow2 (ulpExp f q) = pow2 (fpMinExp f + k) * pow2 ((c : Int) - k) := by
      rw [← pow2_add]; congr 1; omega
    have e2 : (2 : Rat) ≤ pow2 ((c : Int) - k) := by
      have := pow2_mono (show (1 : Int) ≤ (c : Int) - k by omega)
      rwa [show pow2 1 = 2 by simp [pow2_eq]] at this
    have hk0 := pow2_pos (fpMinExp f + k)
    have hr : (r : Rat) < 2 * fpBinade f := by exact_mod_cast h1
    have hB : (0 : Rat) < fpBinade f := by exact_mod_cast fpBinade_pos f
    rw [hm] at h
    have : (fpBinade f : Rat) * pow2 (ulpExp f q) ≥ 2 * fpBinade f * pow2 (fpMinExp f + k) := by
      rw [e1]
      nlinarith [mul_pos hB hk0]
    nlinarith
  · have e1 : magOfPattern f n = ((r * 2 ^ (k - c) : Nat) : Rat) * pow2 (ulpExp f q) := by
      rw [hm, hc]
      push_cast
      rw [← pow2_natCast, mul_assoc, ← pow2_add]
      congr 2
      omega
    rw [e1] at h hlt
    have : nearestEven (q / pow2 (ulpExp f q)) ≤ r * 2 ^ (k - c) := nearestEven_le hx (by rwa [div_le_iff₀ hpos])
    have : (nearestEven (q / pow2 (ulpExp f q)) : Rat) ≤ ((r * 2 ^ (k - c) : Nat) : Rat) := by exact_mod_cast this
    nlinarith

/-- A number with few enough significant bits and an exponent in range is a magnitude of the format. -/
theorem exists_pattern (f : FpFormat) {m : Nat} {e : Int} (h1 : m < 2 * fpBinade f) (h2 : fpMinExp f ≤ e)
    (h3 : (m : Rat) * pow2 e < magOfPattern f (fpInfPattern f)) :
    ∃ n < fpInfPattern f, magOfPattern f n = (m : Rat) * pow2 e := by
  have hb := fpBinade_pos f
  -- lower the exponent until the significand fills its binade or the exponent is the least one
  obtain ⟨k, hk⟩ : ∃ k : Nat, e = fpMinExp f + k := ⟨(e - fpMinExp f).toNat, by omega⟩
  subst hk
  have main : ∀ (k m : Nat), m < 2 * fpBinade f →
      ∃ n, magOfPattern f n = (m : Rat) * pow2 (fpMinExp f + k) := by
    intro k
    induction k with
    | zero =>
      intro m hm
      refine ⟨0 * fpBinade f + m, ?_⟩
      exact magOfPattern_binade f (by omega) (by omega)
    | succ k ih =>
      intro m hm
      rcases Nat.lt_or_ge m (fpBinade f) with h | h
      · obtain ⟨n, hn⟩ := ih (2 * m) (by omega)
        refine ⟨n, hn.trans ?_⟩
        have : fpMinExp f + ((k + 1 : Nat) : Int) = fpMinExp f + k + (1 : Nat) := by push_cast; ring
        rw [this, pow2_add _ ((1 : Nat) : Int), pow2_natCast]
        push_cast
        ring
      · exact ⟨(k + 1) * fpBinade f + m, magOfPattern_binade f (by omega) (fun _ => h)⟩
  obtain ⟨n, hn⟩ := main k m h1
  refine ⟨n, ?_, hn⟩
  by_contra hc
  rcases Nat.eq_or_lt_of_le (Nat.le_of_not_lt hc) with h | h
  · rw [← h] at hn; linarith
  · have := magOfPattern_strictMono f h
    rw [hn] at this
    linarith

/-! ### Values -/

theorem fpInfPattern_lt_signBit (f : FpFormat) : fpInfPattern f < fpSignBit f := by cases f <;> decide

theorem fpSignBit_pos (f : FpFormat) : 0 < fpSignBit f := by cases f <;> decide

/-- The datum of a signed finite pattern. -/
theorem datumOfPattern_signed (f : FpFormat) (neg : Bool) {n : Nat} (h : n < fpInfPattern f) :
    datumOfPattern f (signed f neg n) = .fin neg (magOfPattern f n) := by
  have h1 := fpInfPattern_lt_signBit f
  have h2 : n < fpSignBit f := lt_trans h h1
  cases neg
  · simp [datumOfPattern, signed, Nat.mod_eq_of_lt h2, h, h2]
  · simp [datumOfPattern, signed, Nat.mod_eq_of_lt h2, h]

/-- The datum of a value made of a signed finite pattern. -/
theorem fpDatum_fpOfPattern (f : FpFormat) (neg : Bool) {n : Nat} (h : n < fpInfPattern f) :
    fpDatum (fpOfPattern f (signed f neg n)) = .fin neg (magOfPattern f n) := by
  have h1 := fpInfPattern_lt_signBit f
  have h3 : signed f neg n < 2 * fpSignBit f := by
    unfold signed
    split <;> omega
  rw [← datumOfPattern_signed f neg h]
  cases f
  · have : signed .binary32 neg n < 2 ^ 32 := by simpa [fpSignBit, fpWidth] using h3
    simp only [fpDatum, fpOfPattern, BitVec.toNat_ofNat, Nat.mod_eq_of_lt this]
  · have : signed .binary64 neg n < 2 ^ 64 := by simpa [fpSignBit, fpWidth] using h3
    simp only [fpDatum, fpOfPattern, BitVec.toNat_ofNat, Nat.mod_eq_of_lt this]

/-- An exact result the format represents is delivered as it is. -/
theorem fpDatum_packDatum_exact (f : FpFormat) (v : BitVec 64) (neg : Bool) {n : Nat} (h : n < fpInfPattern f) :
    fpDatum (packDatum f v (.fin neg (magOfPattern f n))) = .fin neg (magOfPattern f n) := by
  rw [packDatum, roundPattern_magOfPattern f h, fpDatum_fpOfPattern f neg h]

/-- A bounded exact result is finite, and its magnitude keeps to a bound the format represents. -/
theorem fpDatum_packDatum_bounded (f : FpFormat) (v : BitVec 64) (neg : Bool) {q : Rat} {n : Nat} (hq : 0 ≤ q)
    (h : q ≤ magOfPattern f n) (hn : n < fpInfPattern f) :
    ∃ mag, fpDatum (packDatum f v (.fin neg q)) = .fin neg mag ∧ 0 ≤ mag ∧ mag ≤ magOfPattern f n := by
  have hle := roundPattern_le f hq h
  refine ⟨magOfPattern f (roundPattern f q), fpDatum_fpOfPattern f neg (lt_of_le_of_lt hle hn),
    magOfPattern_nonneg f _, ?_⟩
  rcases Nat.eq_or_lt_of_le hle with e | e
  · rw [e]
  · exact (magOfPattern_strictMono f e).le

end Sys2Proof.Machine
end

