-- ==== Sys2Proof/Laws/PerInstr.lean ====
section
/-! SUPPORT. The per-instruction family `TableRow`: the encoded word of every well-formed instruction has the fixed bits
of its row of spec/opcode_table.json. -/

namespace Sys2Proof.Laws.TableRow

/-- A 32-bit row: its mask and match. -/
def commandRow (p : PortWord) (mask value : BitVec 32) : Prop := ∃ w, p = .cw w ∧ w &&& mask = value

/-- An 8-bit row: its mask and match. -/
def wireRow (p : PortWord) (mask value : BitVec 8) : Prop := ∃ b, p = .wire b ∧ b &&& mask = value

/-- The fixed bits of the instruction's row of the opcode table. -/
def row : Instr → PortWord → Prop
  | .start, p => commandRow p 0xFFFFFFFF#32 0x10000000#32
  | .sendbyte _, p => commandRow p 0xFFFFFF00#32 0x20000000#32
  | .recvbyte _, p => commandRow p 0xFFFFFFFE#32 0x30000000#32
  | .stop, p => commandRow p 0xFFFFFFFF#32 0x40000000#32
  | .writereg _ _ _, p => commandRow p 0xFF010000#32 0x50000000#32
  | .readreg _ _, p => commandRow p 0xFF0100FF#32 0x60000000#32
  | .loadcal _, p => commandRow p 0xFFFFFFFE#32 0x70000000#32
  | .readraw _, p => commandRow p 0xFFFFFFFE#32 0x80000000#32
  | .compensate _, p => commandRow p 0xFFFFFFFE#32 0x90000000#32
  | .addrW _, p => wireRow p 0x01#8 0x00#8
  | .addrR _, p => wireRow p 0x01#8 0x01#8

/-- What the family says of an instruction. -/
def Statement (i : Instr) : Prop := i.wellFormed = true → row i (encode i)

theorem start : Statement .start := fun _ => ⟨_, rfl, by decide⟩

theorem sendbyte (b : Byte) : Statement (.sendbyte b) := fun _ =>
  ⟨_, rfl, (by decide +kernel : ∀ b : Byte, commandWord 0x2#4 0 0 b &&& 0xFFFFFF00#32 = 0x20000000#32) b⟩

theorem recvbyte (k : Bool) : Statement (.recvbyte k) := fun _ => ⟨_, rfl, by cases k <;> decide⟩

theorem stop : Statement .stop := fun _ => ⟨_, rfl, by decide⟩

/-- A word with an even `A`, in fields. -/
theorem even_field (op : BitVec 4) (a b c : Byte) (h : isDeviceAddr a = true) :
    commandWord op a b c &&& 0xFF010000#32 = commandWord op 0 0 0 := by
  have ha : a[0] = false := by simpa [isDeviceAddr] using h
  apply BitVec.eq_of_getLsbD_eq
  intro i hi
  simp only [commandWord, BitVec.getLsbD_and, BitVec.getLsbD_append]
  have hi' : i ≤ 31 := by omega
  interval_cases i <;> simp [ha]

theorem writereg (d r v : Byte) : Statement (.writereg d r v) := fun h =>
  ⟨_, rfl, (even_field 0x5#4 d r v h).trans (by decide)⟩

theorem readreg (d r : Byte) : Statement (.readreg d r) := fun h => by
  refine ⟨_, rfl, ?_⟩
  have h1 := even_field 0x6#4 d r 0 h
  have h2 : (0xFF0100FF#32 : BitVec 32) = 0xFF010000#32 ||| 0xFF#32 := by decide
  have h3 : ∀ r : Byte, commandWord 0x6#4 d r 0 &&& 0xFF#32 = 0 := by
    intro r
    apply BitVec.eq_of_getLsbD_eq
    intro i hi
    simp only [commandWord, BitVec.getLsbD_and, BitVec.getLsbD_append]
    have hi' : i ≤ 31 := by omega
    interval_cases i <;> simp
  rw [h2, BitVec.and_or_distrib_left, h1, h3]
  decide

theorem loadcal (x : CtxIx) : Statement (.loadcal x) := fun _ => ⟨_, rfl, by revert x; decide⟩

theorem readraw (x : CtxIx) : Statement (.readraw x) := fun _ => ⟨_, rfl, by revert x; decide⟩

theorem compensate (x : CtxIx) : Statement (.compensate x) := fun _ => ⟨_, rfl, by revert x; decide⟩

theorem addrW (a7 : BitVec 7) : Statement (.addrW a7) := fun _ =>
  ⟨_, rfl, (by decide +kernel : ∀ a7 : BitVec 7, (a7 ++ 0#1) &&& 0x01#8 = 0x00#8) a7⟩

theorem addrR (a7 : BitVec 7) : Statement (.addrR a7) := fun _ =>
  ⟨_, rfl, (by decide +kernel : ∀ a7 : BitVec 7, (a7 ++ 1#1) &&& 0x01#8 = 0x01#8) a7⟩

end Sys2Proof.Laws.TableRow
end

