-- ==== Sys2Proof/Laws/Step.lean ====
section
/-! SUPPORT. What one step, one action of the host and one read of the read port can do, said once; and what a run does past
a refusal. -/

namespace Sys2Proof.Machine

open Sys2Proof.Safety

/-! ### The host -/

@[simp] theorem afterAct_session (s : State) (a : HostAct) : (afterAct s a).session = sessionAct s a := rfl
@[simp] theorem afterAct_port (s : State) (a : HostAct) : (afterAct s a).port = offeredBy a := rfl
@[simp] theorem afterAct_cfg (s : State) (a : HostAct) : (afterAct s a).cfg = s.cfg := rfl
@[simp] theorem afterAct_ctx (s : State) (a : HostAct) (x : CtxIx) : (afterAct s a).ctx x = s.ctx x := rfl
@[simp] theorem afterAct_status (s : State) (a : HostAct) : (afterAct s a).status = s.status := rfl
@[simp] theorem afterAct_trace (s : State) (a : HostAct) : (afterAct s a).trace = s.trace := rfl
@[simp] theorem afterAct_guarded (s : State) (a : HostAct) : (afterAct s a).guarded = s.guarded := rfl
@[simp] theorem afterAct_unwrittenUse (s : State) (a : HostAct) :
    (afterAct s a).unwrittenUse = (s.unwrittenUse || !readsHeld s a) := rfl
@[simp] theorem afterAct_env (s : State) (a : HostAct) : (afterAct s a).env = s.env := rfl

/-- A host that goes on does nothing, or takes the one action of its program it has come to. -/
theorem hostStep_next {s t : State} (h : hostStep s = .next t) :
    t = s ∨ ∃ a, s.session.running = true ∧ (hostProgram s)[s.session.pc]? = some a ∧ s.mayUse (readsHeld s a) = true
      ∧ t = afterAct s a := by
  unfold hostStep at h
  split at h
  · split at h
    · split at h
      · cases h; exact .inr ⟨_, ‹_›, ‹_›, ‹_›, rfl⟩
      · cases h
    · cases h; exact .inl rfl
  · cases h; exact .inl rfl

/-- A host is stopped just by reading a register that holds no value under the spec's guard (rule R166). -/
theorem hostStep_refused {s : State} {r : Refusal} :
    hostStep s = .refused r ↔ r = .unwrittenRegister ∧ s.session.running = true
      ∧ s.guarded = true ∧ ∃ a, (hostProgram s)[s.session.pc]? = some a ∧ readsHeld s a = false := by
  unfold hostStep
  constructor
  · intro h
    split at h
    · split at h
      · split at h
        · cases h
        · rename_i hr _ a ha hu
          cases h
          cases hh : readsHeld s a <;> simp [hh] at hu
          exact ⟨rfl, hr, hu, a, ha, hh⟩
      · cases h
    · cases h
  · rintro ⟨rfl, hr, hg, a, ha, hh⟩
    rw [if_pos hr, ha]
    exact if_neg (by simp [hh, hg])

/-- What a host action reads holds a value, action by action (rules R140, R142, R146). -/
theorem readsHeld_eq (s : State) (a : HostAct) : readsHeld s a = match a with
    | .takeId _ => s.rxHeld
    | .takeTemp x => (s.ctx x).held.temp
    | _ => true := by
  cases a with
  | takeTemp x =>
    match x with
    | 0 => rfl
    | 1 => rfl
  | _ => rfl

/-! ### The step -/

/-- Everything a step that answers a next state can have done: nothing, in a hung block; an offered word taken and its
instruction run; a read served; or an action of the host. -/
theorem step_next {s t : State} (h : step s = .next t) :
    cfgWellFormed s.cfg = true
    ∧ ((statusBusy s.status = true ∧ t = s)
      ∨ (statusBusy s.status = false ∧ ∃ p i, s.port = some p ∧ decode p = .ok i ∧ exec i { s with port := none } = .next t)
      ∨ (statusBusy s.status = false ∧ s.port = none ∧ ∃ n, s.readAsked = some n ∧ readStep n s = .next t)
      ∨ (statusBusy s.status = false ∧ s.port = none ∧ s.readAsked = none ∧ hostStep s = .next t)) := by
  unfold step at h
  split at h
  · refine ⟨‹_›, ?_⟩
    split at h
    · cases h; exact .inl ⟨‹_›, rfl⟩
    · have hb : statusBusy s.status = false := Bool.eq_false_iff.2 ‹_›
      split at h
      · split at h
        · exact .inr (.inl ⟨hb, _, _, ‹_›, ‹_›, h⟩)
        · cases h
      · rename_i hp
        split at h
        · exact .inr (.inr (.inl ⟨hb, hp, _, ‹_›, h⟩))
        · exact .inr (.inr (.inr ⟨hb, hp, ‹_›, h⟩))
  · cases h

/-- With no word offered and no read asked a step is an action of the host. -/
theorem step_host {s : State} (hc : cfgWellFormed s.cfg = true) (hb : statusBusy s.status = false) (hp : s.port = none)
    (ha : s.readAsked = none) : step s = hostStep s := by simp [step, hc, hb, hp, ha]

/-- With no word offered a read asked at the read port is served. -/
theorem step_read {s : State} {n : Byte} (hc : cfgWellFormed s.cfg = true) (hb : statusBusy s.status = false)
    (hp : s.port = none) (ha : s.readAsked = some n) : step s = readStep n s := by simp [step, hc, hb, hp, ha]

/-- A read that is served leaves its answer at the read port, and the mark when the register held no value. -/
theorem readStep_next {n : Byte} {s t : State} (h : readStep n s = .next t) :
    ∃ v, readPort n s = .ok v ∧ t = answerRead n v s := by
  unfold readStep at h
  split at h
  · cases h; exact ⟨_, ‹_›, rfl⟩
  · cases h

/-- A run that has read a register that held no value is marked (rules R12, R166). -/
theorem readStep_marks {n : Byte} {s t : State} (h : readStep n s = .next t) (hn : portHeld n s = false) :
    t.unwrittenUse = true := by
  obtain ⟨v, -, rfl⟩ := readStep_next h
  simp [answerRead, hn]

/-- A run that has met a refusal is refused at every later length (rule R166's mark). -/
theorem run_refused {s : State} {r : Refusal} {m n : Nat} (h : Host.Core.run core m s = .refused r) (hmn : m ≤ n) :
    Host.Core.run core n s = .refused r := by
  induction m generalizing s n with
  | zero => cases h
  | succ m ih =>
    obtain ⟨k, rfl⟩ : ∃ k, n = k + 1 := ⟨n - 1, by omega⟩
    simp only [Host.Core.run] at h ⊢
    split at h
    · exact ih h (by omega)
    · cases h
    · exact h

/-! ### COMPENSATE and the read port -/

/-- `COMPENSATE` with its operands held, or where there is no guard, is what the hardware does (rules R12, R124). -/
theorem exec_compensate_runs {s : State} {x : CtxIx} (h : s.mayUse (compensable (s.ctx x)) = true) :
    exec (.compensate x) s = .next (compensateUnguarded x s) := by simp [exec, execCompensate, h]

/-- `COMPENSATE` with an operand that holds no value, under the spec's guard (rules R124, R184). -/
theorem exec_compensate_refused {s : State} {x : CtxIx} (h : s.mayUse (compensable (s.ctx x)) = false) :
    exec (.compensate x) s = .refused .unwrittenRegister := by simp [exec, execCompensate, h]

/-- A register that holds a value has a number that names a register. -/
theorem portRegister_of_held {n : Byte} {s : State} (h : portHeld n s = true) : ∃ v, portRegister n s = .ok v := by
  have named : ∀ (c : Context) (k : Nat), contextHeld c k = true → ∃ v, readContext c k = .ok v := by
    intro c k h
    match k with
    | 0 | 1 | 2 | 3 | 4 | 5 | 6 => exact ⟨_, rfl⟩
    | _ + 7 => cases h
  unfold portHeld at h
  unfold portRegister
  split
  · exact ⟨_, rfl⟩
  · split
    · exact ⟨_, rfl⟩
    · split
      · simp_all
      · split <;> simp_all

/-- Under the spec's guard the read port answers just the numbers of registers that hold a value (rules R12, R21, R166). -/
theorem readPort_ok_iff {n : Byte} {s : State} (hg : s.guarded = true) :
    (∃ v, readPort n s = .ok v) ↔ portHeld n s = true := by
  constructor
  · rintro ⟨v, h⟩
    unfold readPort at h
    split at h
    · split at h
      · cases hp : portHeld n s <;> simp_all
      · cases h
    · cases h
  · intro h
    obtain ⟨v, hv⟩ := portRegister_of_held h
    exact ⟨v, by simp [readPort, hv, h]⟩

/-- Without the guard it answers every number that names a register, with what is there. -/
theorem readPort_unguarded {n : Byte} {s : State} (hg : s.guarded = false) : readPort n s = portRegister n s := by
  unfold readPort
  split <;> simp [State.mayUse, *]

/-! ### Responsive -/

/-- The premise `Responsive` at an unconstrained environment answers the next call and goes on holding. -/
theorem responsive_taken {e : Env} (h : Responsive e) (hk : e.kind = .unconstrained) :
    e.reply.completes = true ∧ Responsive e.taken := by
  rcases h with h | ⟨h1, h2⟩
  · simp [hk] at h
  · unfold Env.reply
    cases hs : e.script with
    | nil =>
      exact ⟨h2 _ (by simp [hs]), .inr ⟨by simp [hs], fun n hn => h2 n (by simp [hs] at hn ⊢; omega)⟩⟩
    | cons r l =>
      exact ⟨h1 r (by simp [hs]), .inr ⟨fun q hq => h1 q (by simp [hs] at hq ⊢; exact .inr hq),
        fun n hn => h2 n (by simp [hs] at hn ⊢; omega)⟩⟩

end Sys2Proof.Machine
end

