-- ==== Sys2Proof/Tests/Slice0.lean ====
section
/-! SUPPORT. The model's own tests: decode vectors and ill-formed terms, at most two steps per instruction with expected
results from 95_test_vectors.md or the rules' own examples, and one witness per obligation that has hypotheses. -/

namespace Sys2Proof.Tests

open Sys2Proof.Machine Sys2Proof.Safety

/-! ### Small states -/

/-- An answer that completes. -/
def yes (a : Bool) (b : Byte) : Reply where
  completes := true
  ack := a
  byte := b

/-- The answer `never`. -/
def never : Reply where
  completes := false
  ack := false
  byte := 0

/-- The reset state in a given `PHASE`, facing an environment that answers `l` first. -/
def facing (p : Phase) (l : List Reply) : State :=
  { State.reset with
    phase := p
    status := setOwned 0 (decide (p ≠ .idle))
    env := { Env.reset with script := l } }

/-- The reset state under `SIM` with the devices' registers given. -/
def simulating (m0 m1 : Memory) : State :=
  { State.reset with
    env := { Env.reset with
      kind := .simulated
      sim0 := { SimDevice.fresh with regs := m0 }
      sim1 := { SimDevice.fresh with regs := m1 } } }

/-- Device 1 of program P4. -/
def deviceOne : Memory :=
  [(0x88, 0x70), (0x89, 0x6B), (0x8A, 0x43), (0x8B, 0x67), (0x8C, 0x18), (0x8D, 0xFC), (0xD0, 0x58), (0xFA, 0x7E),
   (0xFB, 0xED)]

/-- A context with the four operands of `COMPENSATE` given. -/
def operands (raw : BitVec 20) (t1 t2 t3 : BitVec 16) : State :=
  { State.reset with
    ctx0 := { State.reset.ctx0 with
      raw := raw
      t1 := t1
      t2 := t2
      t3 := t3
      held := { t1 := true, t2 := true, t3 := true, raw := true, tfine := false, temp := false } } }

/-- A host that has reached an action of a session state. -/
def hostAt (st : SessState) (pc tick count : Nat) (id1 id2 : Byte) : State :=
  { State.reset with
    session := { State.reset.session with
      running := true
      state := st
      pc := pc
      tick := tick
      count := count
      id1 := id1
      id2 := id2 } }

/-- What a next state satisfies; a fault or a refusal satisfies nothing. -/
def next (o : Host.Outcome State Fault Refusal) (q : State → Bool) : Bool :=
  match o with
  | .next t => q t
  | .fault _ => false
  | .refused _ => false

/-- The reason of a refusal. -/
def refusal (o : Host.Outcome State Fault Refusal) : Option Refusal :=
  match o with
  | .next _ => none
  | .fault _ => none
  | .refused r => some r

/-! ### Well-formedness (rule R57) -/

theorem test_wf_writereg : (Instr.writereg 0xEC 0xE0 0xB6).wellFormed = true := by decide
theorem test_wf_writereg_odd : (Instr.writereg 0xED 0xE0 0xB6).wellFormed = false := by decide
theorem test_wf_readreg_odd : (Instr.readreg 0xEF 0xD0).wellFormed = false := by decide

/-! ### Decoding: vectors V1 to V19 and section 2.1 -/

theorem test_decode_start : decode (.cw 0x10000000#32) = .ok .start := by decide
theorem test_decode_sendbyte : decode (.cw 0x200000EC#32) = .ok (.sendbyte 0xEC) := by decide
theorem test_decode_recvbyte0 : decode (.cw 0x30000000#32) = .ok (.recvbyte false) := by decide
theorem test_decode_recvbyte1 : decode (.cw 0x30000001#32) = .ok (.recvbyte true) := by decide
theorem test_decode_stop : decode (.cw 0x40000000#32) = .ok .stop := by decide
theorem test_decode_writereg : decode (.cw 0x50ECE0B6#32) = .ok (.writereg 0xEC 0xE0 0xB6) := by decide
theorem test_decode_readreg : decode (.cw 0x60EED000#32) = .ok (.readreg 0xEE 0xD0) := by decide
theorem test_decode_loadcal : decode (.cw 0x70000001#32) = .ok (.loadcal 1) := by decide
theorem test_decode_readraw : decode (.cw 0x80000000#32) = .ok (.readraw 0) := by decide
theorem test_decode_compensate : decode (.cw 0x90000001#32) = .ok (.compensate 1) := by decide
theorem test_decode_addrW : decode (.wire 0xEC#8) = .ok (.addrW 0x76) := by decide
theorem test_decode_addrR : decode (.wire 0xED#8) = .ok (.addrR 0x76) := by decide

/-- V11 to V19: each way a word is reserved. -/
theorem test_decode_reserved :
    decode (.cw 0x00000000#32) = .error .opcode ∧ decode (.cw 0xA0000000#32) = .error .opcode
    ∧ decode (.cw 0xF0000000#32) = .error .opcode
    ∧ decode (.cw 0x11000000#32) = .error .fieldZ ∧ decode (.cw 0x10000001#32) = .error .zeroField
    ∧ decode (.cw 0x30000002#32) = .error .zeroField ∧ decode (.cw 0x50EDE0B6#32) = .error .oddDevice
    ∧ decode (.cw 0x60EED001#32) = .error .zeroField ∧ decode (.cw 0x70000002#32) = .error .zeroField
    ∧ decode (.cw 0x20AB00EC#32) = .error .zeroField := by decide

/-- The words as the opcode table numbers their bits. -/
theorem test_table_word :
    decodeTableWord 32 0x50ECE0B6 = some (.writereg 0xEC 0xE0 0xB6) ∧ decodeTableWord 8 0xEF = some (.addrR 0x77)
    ∧ decodeTableWord 32 0 = none ∧ decodeTableWord 16 0 = none := by decide

/-! ### The primitives: section 2.3 -/

/-- V25. -/
theorem test_start_idle :
    next (exec .start (facing .idle [yes false 0])) (fun t =>
      t.phase = .started && t.trace = [.s] && t.status = 0x04#8) = true := by decide

/-- V34: a repeated start. -/
theorem test_start_owned :
    next (exec .start (facing .tx [yes false 0])) (fun t => t.phase = .started && t.trace = [.sr]) = true := by decide

/-- V31: a NAK completes and leads to `TX`. -/
theorem test_send_nak :
    next (exec (.sendbyte 0xEC) (facing .started [yes false 0])) (fun t =>
      t.phase = .tx && t.trace = [.w 0xEC false] && !statusAck t.status && t.ackHeld) = true := by decide

/-- V32: direction bit 1 leads to `RX`. -/
theorem test_send_read :
    next (exec (.sendbyte 0xED) (facing .started [yes true 0])) (fun t =>
      t.phase = .rx && t.trace = [.w 0xED true] && statusAck t.status) = true := by decide

/-- V38: with an acknowledge the bus stays in `RX`. -/
theorem test_recv_ack :
    next (exec (.recvbyte true) (facing .rx [yes false 0x12])) (fun t =>
      t.phase = .rx && t.trace = [.r 0x12 true] && t.rxdata = 0x12) = true := by decide

/-- V39. -/
theorem test_recv_last :
    next (exec (.recvbyte false) (facing .rx [yes false 0x34])) (fun t =>
      t.phase = .rxend && t.trace = [.r 0x34 false] && t.rxdata = 0x34) = true := by decide

/-- V35. -/
theorem test_stop :
    next (exec .stop (facing .tx [yes false 0])) (fun t =>
      t.phase = .idle && t.trace = [.p] && !statusOwned t.status) = true := by decide

/-- V26 to V30, V33, V36, V37, V40, V42: the empty cells. -/
theorem test_illegal :
    refusal (exec (.sendbyte 0xEC) (facing .idle [])) = some .illegalPhase
    ∧ refusal (exec .stop (facing .idle [])) = some .illegalPhase
    ∧ refusal (exec (.recvbyte false) (facing .idle [])) = some .illegalPhase
    ∧ refusal (exec .start (facing .started [])) = some .illegalPhase
    ∧ refusal (exec .stop (facing .started [])) = some .illegalPhase
    ∧ refusal (exec (.recvbyte false) (facing .tx [])) = some .illegalPhase
    ∧ refusal (exec (.sendbyte 0x00) (facing .rx [])) = some .illegalPhase
    ∧ refusal (exec .stop (facing .rx [])) = some .illegalPhase
    ∧ refusal (exec (.recvbyte false) (facing .rxend [])) = some .illegalPhase
    ∧ refusal (exec (.readreg 0xEC 0xD0) (facing .tx [])) = some .busNotIdle := by decide

/-- The address byte with direction write (rule R51): `TX`. -/
theorem test_addrW :
    next (exec (.addrW 0x76) (facing .started [yes true 0])) (fun t =>
      t.phase = .tx && t.trace = [.w 0xEC true]) = true := by decide

/-- The address byte with direction read (rule R51): `RX`. -/
theorem test_addrR :
    next (exec (.addrR 0x76) (facing .started [yes true 0])) (fun t =>
      t.phase = .rx && t.trace = [.w 0xED true]) = true := by decide

/-! ### Register access: section 2.2 -/

/-- V20. -/
theorem test_writereg :
    next (exec (.writereg 0xEC 0xE0 0xB6) (simulating [] [])) (fun t =>
      t.trace = [.s, .w 0xEC true, .w 0xE0 true, .w 0xB6 true, .p] && t.status = 0x02#8 && t.phase = .idle
        && !t.rxHeld && t.env.sim0.resets = 1) = true := by decide

/-- V24: a hang at the stop. -/
theorem test_writereg_hang :
    next (exec (.writereg 0xEC 0xF4 0x27)
        (facing .idle [yes true 0, yes true 0, yes true 0, yes true 0, never])) (fun t =>
      t.trace = [.s, .w 0xEC true, .w 0xF4 true, .w 0x27 true] && t.phase = .tx && statusBusy t.status
        && t.seq = some { cmd := .writereg 0xEC 0xF4 0x27, k := 4 }) = true := by decide

/-- V21. -/
theorem test_readreg :
    next (exec (.readreg 0xEE 0xD0) (simulating [] [(0xD0, 0x58)])) (fun t =>
      t.trace = [.s, .w 0xEE true, .w 0xD0 true, .sr, .w 0xEF true, .r 0x58 false, .p] && t.rxdata = 0x58
        && t.status = 0x02#8 && t.phase = .idle) = true := by decide

/-- V22: no device there. -/
theorem test_readreg_absent :
    next (exec (.readreg 0x20 0xD0) (simulating [] [])) (fun t =>
      t.trace = [.s, .w 0x20 false, .w 0xD0 false, .sr, .w 0x21 false, .r 0xFF false, .p] && t.rxdata = 0xFF
        && t.status = 0x00#8) = true := by decide

/-! ### The sensor functions -/

/-- The example of rule R102. -/
theorem test_loadcal :
    next (exec (.loadcal 0) (simulating deviceOne [])) (fun t =>
      t.ctx0.t1 = 27504 && asS16 t.ctx0.t2 = 26435 && asS16 t.ctx0.t3 = -1000 && t.trace.length = 42
        && t.rxdata = 0xFC) = true := by decide +kernel

/-- V23, in the first frame of a longer command: the triple stays as it was. -/
theorem test_loadcal_hang :
    next (exec (.loadcal 1) (facing .idle [yes true 0, never])) (fun t =>
      t.trace = [.s] && t.phase = .started && t.seq = some { cmd := .loadcal 1, k := 1 }
        && t.ctx1 = State.reset.ctx1 && !t.ackHeld) = true := by decide

/-- V55, the example of rule R111. -/
theorem test_readraw :
    next (exec (.readraw 0) (simulating deviceOne [])) (fun t =>
      t.ctx0.raw = 519888 && t.rxdata = 0x00 && t.trace.length = 21) = true := by decide +kernel

/-- V62: a torn read. -/
theorem test_readraw_torn :
    let frame := fun b => [yes true 0, yes true 0, yes true 0, yes true 0, yes true 0, yes true b, yes true 0]
    next (exec (.readraw 1) (facing .idle (frame 0x7E ++ (frame 0x00 ++ frame 0x00)))) (fun t =>
      t.ctx1.raw = 516096) = true := by decide +kernel

/-- V63. -/
theorem test_compensate :
    next (exec (.compensate 0) (operands 519888 27504 26435 0xFC18)) (fun t =>
      t.ctx0.temp = .double 0x4039151D460F8000 && t.ctx0.tfine = 128422 && t.trace = [])
      = true := by decide +kernel

/-- V67: the floor is not truncation. -/
theorem test_compensate_floor :
    next (exec (.compensate 0) (operands 0 1 1 0)) (fun t =>
      t.ctx0.temp = .double 0xBE8999999999999A && t.ctx0.tfine.toInt = -1) = true := by decide +kernel

/-- W2, W3, V46, V53, V54. -/
theorem test_bytes :
    raw20 0x5A 0x3C 0xD0 = 0x5A3CD ∧ raw20 0x5A 0x3C 0xDF = 0x5A3CD
    ∧ (0xDF#8).extractLsb' 4 4 = (0xD0#8).extractLsb' 4 4 ∧ raw20 0x5A 0x3C 0x0D = 0x5A3C0 ∧ word16 0x10 0x6B = 0x6B10
    ∧ asS16 (word16 0x18 0xFC) = -1000 ∧ asS16 0x8000 = -32768 ∧ asS16 0x7FFF = 32767 := by decide

/-! ### Witnesses: one per obligation with hypotheses, its hypotheses met together -/

/-- EncodedInstructionDecodesBack. -/
theorem witness_encoded : (Instr.readreg 0xEE 0xD0).wellFormed = true := by decide

/-- DecodedWordEncodesBack. -/
theorem witness_decoded : decode (.cw 0x20000000#32) = .ok (.sendbyte 0) ∧ decode (.wire 0xFF#8) = .ok (.addrR 0x7F) := by
  decide

/-- ReservedWordsAreRefused: a reserved word offered to an idle block. -/
theorem witness_reserved :
    let s := { State.reset with port := some (PortWord.cw 0xA0000000#32) }
    cfgWellFormed s.cfg = true ∧ statusBusy s.status = false ∧ s.port = some (.cw 0xA0000000#32)
      ∧ decode (.cw 0xA0000000#32) = .error .opcode := by decide

/-- StepRunsTheDecodedInstruction and PlacedTableWordRunsNext. -/
theorem witness_step :
    let s := { State.reset with port := some (PortWord.cw 0x10000000#32) }
    cfgWellFormed s.cfg = true ∧ statusBusy s.status = false ∧ s.port = some (.cw 0x10000000#32)
      ∧ decode (.cw 0x10000000#32) = .ok .start ∧ decodeTableWord 32 0x10000000 = some .start
      ∧ decodeTableWord 8 0x00 = some (.addrW 0) := by decide

/-- IllFormedConfigurationIsRefused: each clause at its boundary, and the nearest well-formed record. -/
theorem witness_illFormed :
    let c := Config.cfgExample
    cfgWellFormed { c with devAddr1 := 0xEC } = false ∧ cfgWellFormed { c with devAddr0 := 0xED } = false
    ∧ cfgWellFormed { c with devAddr1 := 0xEF } = false
    ∧ cfgWellFormed { c with regT1 := 0xFF } = false ∧ cfgWellFormed { c with regT2 := 0xFF } = false
    ∧ cfgWellFormed { c with regT3 := 0xFF } = false
    ∧ cfgWellFormed { c with regTemp := 0xFE } = false ∧ cfgWellFormed { c with regTemp := 0xFF } = false
    ∧ cfgWellFormed { c with regT1 := 0xFE, regT2 := 0xFE, regT3 := 0xFE, regTemp := 0xFD } = true := by decide

/-- HungBlockWaitsForEver. -/
theorem witness_hung :
    let s := { State.reset with status := 0x01#8, seq := some { cmd := .start, k := 0 } }
    cfgWellFormed s.cfg = true ∧ statusBusy s.status = true := by decide

/-- NothingHappensWithoutACommand: each clause. -/
theorem witness_nothing :
    cfgWellFormed State.reset.cfg = true ∧ State.reset.port = none ∧ State.reset.readAsked = none ∧ State.reset.session.running = false
    ∧ (hostAt .complete 0 120 120 0 0).session.state = .complete ∧ (hostAt .complete 0 120 120 0 0).port = none
    ∧ (hostAt .complete 0 120 120 0 0).readAsked = none
    ∧ (hostAt .fault 0 0 0 0 0).session.state = .fault := by decide

/-- StartCompletes: each `PHASE`. -/
theorem witness_start :
    ∀ p, p = .idle ∨ p = .tx ∨ p = .rxend →
      (facing p [yes false 0]).phase = p ∧ (facing p [yes false 0]).env.onStart = some (facing p [yes false 0]).env.taken := by
  rintro p (rfl | rfl | rfl) <;> decide

/-- SendbyteCompletes: each `PHASE`, and under `SIM`. -/
theorem witness_send :
    let s := facing .started [yes true 0]
    let t := facing .tx [yes true 0]
    let u := { simulating [] [] with phase := .started }
    s.phase = .started ∧ s.env.refusesSend s.phase = false ∧ s.env.onSend s.cfg s.phase 0xEC = some (true, s.env.taken)
    ∧ t.phase = .tx ∧ t.env.refusesSend t.phase = false ∧ t.env.onSend t.cfg t.phase 0xEC = some (true, t.env.taken)
    ∧ u.env.refusesSend u.phase = false ∧ (u.env.onSend u.cfg u.phase 0xEC).map (·.1) = some true := by decide

/-- RecvbyteCompletes. -/
theorem witness_recv :
    let s := facing .rx [yes true 0x34]
    s.phase = .rx ∧ s.env.refusesRecv = false ∧ s.env.onRecv false = some (0x34, s.env.taken) := by decide

/-- StopCompletes: each `PHASE`. -/
theorem witness_stop :
    ∀ p, p = .tx ∨ p = .rxend →
      (facing p [yes false 0]).phase = p ∧ (facing p [yes false 0]).env.onStop = some (facing p [yes false 0]).env.taken := by
  rintro p (rfl | rfl) <;> decide

/-- AddressBytesComplete: each direction. -/
theorem witness_address :
    let s := facing .started [yes true 0]
    s.phase = .started ∧ s.env.onSend s.cfg .started (0x76#7 ++ 0#1) = some (true, s.env.taken)
      ∧ s.env.onSend s.cfg .started (0x76#7 ++ 1#1) = some (true, s.env.taken) := by decide

/-- PhaseTableIsKept: the cells that complete, each with an environment that answers (the empty ones: `test_illegal`). -/
theorem witness_phaseTable :
    (∀ p, p = .idle ∨ p = .tx ∨ p = .rxend → next (exec .start (facing p [yes false 0])) (fun t => !statusBusy t.status))
    ∧ (∀ p, p = .started ∨ p = .tx → (facing p [yes false 0]).env.refusesSend p = false
        ∧ next (exec (.sendbyte 1) (facing p [yes false 0])) (fun t => !statusBusy t.status))
    ∧ ((facing .rx [yes false 0]).env.refusesRecv = false
        ∧ next (exec (.recvbyte true) (facing .rx [yes false 0])) (fun t => !statusBusy t.status))
    ∧ (∀ p, p = .tx ∨ p = .rxend → next (exec .stop (facing p [yes false 0])) (fun t => !statusBusy t.status)) := by
  refine ⟨?_, ?_, by decide, ?_⟩
  · rintro p (rfl | rfl | rfl) <;> decide
  · rintro p (rfl | rfl) <;> decide
  · rintro p (rfl | rfl) <;> decide

/-- UnansweredPrimitiveHangs: each clause. -/
theorem witness_unanswered :
    (facing .idle [never]).env.onStart = none
    ∧ (facing .started [never]).env.onSend State.reset.cfg .started 0xEC = none
    ∧ (facing .rx [never]).env.onRecv true = none ∧ (facing .rxend [never]).env.onStop = none := by decide

/-- The answers to a write frame and a read frame under `SIM`: WriteregCompletes, ReadregCompletes,
WriteregIsItsFivePrimitives, ReadregIsItsSevenPrimitives. -/
theorem witness_frames :
    let s := simulating deviceOne []
    (0xEC#8).getLsbD 0 = false ∧ s.phase = .idle
    ∧ (writeAnswers s.cfg 0xEC 0xF4 0x27 s.env).map (·.1) = some { a1 := true, a2 := true, a3 := true }
    ∧ (readAnswers s.cfg 0xEC 0xD0 s.env).map (·.1) = some { a1 := true, a2 := true, a3 := true, byte := 0x58 } := by
  decide +kernel

/-- ReadregIsItsSevenPrimitives and WriteregIsItsFivePrimitives: both sides happen. -/
theorem witness_byHand :
    (execAll [.start, .sendbyte 0xEC, .sendbyte 0xD0, .start, .sendbyte 0xED, .recvbyte false, .stop]
        (simulating deviceOne [])).map (·.rxdata) = some 0x58
    ∧ (execAll [.start, .sendbyte 0xEC, .sendbyte 0xF4, .sendbyte 0x27, .stop]
        (simulating deviceOne [])).map (·.phase) = some .idle := by decide +kernel

/-- The register of a second byte of one read, and of a read in a later frame, is left open (log 16): any byte is admitted
there, and the first byte of the frame is not. -/
theorem test_present_open :
    let read := fun a b : Byte => [BusEvent.s, .w 0xEC true, .w 0xD0 true, .sr, .w 0xED true, .r a true, .r b false, .p]
    (∀ b, Present 0xEC (fun _ _ => 0x58) 0 Watch.fresh (read 0x58 b))
    ∧ ¬ Present 0xEC (fun _ _ => 0x58) 0 Watch.fresh (read 0x59 0x58)
    ∧ ∀ b, Present 0xEC (fun _ _ => 0x58) 0 Watch.fresh (read 0x58 0x58 ++ [.s, .w 0xED true, .r b false, .p]) := by
  refine ⟨fun b => ?_, ?_, fun b => ?_⟩ <;>
    simp [Present, presentAnswer, watchNext, Watch.fresh, addr7, directionRead]

/-- PresentDeviceIsRead: a present device that holds `0x58` in every register. -/
theorem witness_present :
    next (exec (.readreg 0xEC 0xD0) (simulating deviceOne [])) (fun t => !statusBusy t.status
        && t.trace = [.s, .w 0xEC true, .w 0xD0 true, .sr, .w 0xED true, .r 0x58 false, .p]) = true
    ∧ Present 0xEC (fun _ _ => 0x58) 0 Watch.fresh
        [.s, .w 0xEC true, .w 0xD0 true, .sr, .w 0xED true, .r 0x58 false, .p] := by
  exact ⟨by decide +kernel, by simp [Present, presentAnswer]⟩

/-- LoadcalCompletes: the six frames are answered, one after the other. -/
theorem witness_loadcal :
    let s := simulating deviceOne []
    (s.ctx 0).devaddr.getLsbD 0 = false ∧ s.phase = .idle
    ∧ ((readAnswers s.cfg 0xEC 0x88 s.env).bind fun p =>
        (readAnswers s.cfg 0xEC 0x89 p.2).bind fun p =>
        (readAnswers s.cfg 0xEC 0x8A p.2).bind fun p =>
        (readAnswers s.cfg 0xEC 0x8B p.2).bind fun p =>
        (readAnswers s.cfg 0xEC 0x8C p.2).bind fun p =>
        (readAnswers s.cfg 0xEC 0x8D p.2).map fun p => p.1.byte) = some 0xFC := by decide +kernel

/-- ReadrawCompletes and AnyThreeBytesCanBeRead. -/
theorem witness_readraw :
    let s := simulating deviceOne []
    (s.ctx 0).devaddr.getLsbD 0 = false ∧ s.phase = .idle
    ∧ ((readAnswers s.cfg 0xEC 0xFA s.env).bind fun p =>
        (readAnswers s.cfg 0xEC 0xFB p.2).bind fun p =>
        (readAnswers s.cfg 0xEC 0xFC p.2).map fun p => p.1.byte) = some 0x00 := by decide +kernel

/-- CompensateCompletes: the refusal beside the nearest accepted input (95_test_vectors.md section 3), under the spec's guard:
refused after reset, after `LOADCAL 0` alone, accepted after `READRAW 0`, and still refused on the other context. Without the guard it
runs right after reset, as the hardware does (rule R12), and the run is marked. -/
theorem witness_compensate :
    let s := { simulating deviceOne [] with guarded := true }
    refusal (exec (.compensate 0) s) = some .unwrittenRegister
    ∧ (execAll [.loadcal 0] s).map (fun t => refusal (exec (.compensate 0) t)) = some (some .unwrittenRegister)
    ∧ (execAll [.loadcal 0, .readraw 0] s).map (fun t => (compensable t.ctx0, refusal (exec (.compensate 0) t),
        refusal (exec (.compensate 1) t))) = some (true, none, some .unwrittenRegister)
    ∧ next (exec (.compensate 0) State.reset) (fun t =>
        t.unwrittenUse && t.ctx0.held.temp && t.ctx0.tfine = 0 && !statusBusy t.status) = true := by decide +kernel

/-- CompensationIsPure: two states that differ, with the same four operands. -/
theorem witness_pure :
    let s := operands 519888 27504 26435 0xFC18
    let t := { operands 519888 27504 26435 0xFC18 with rxdata := 1 }
    s ≠ t ∧ s.cfg.fpfmt = t.cfg.fpfmt ∧ (s.ctx 0).raw = (t.ctx 0).raw ∧ (s.ctx 0).t1 = (t.ctx 0).t1
    ∧ (s.ctx 0).t2 = (t.ctx 0).t2 ∧ (s.ctx 0).t3 = (t.ctx 0).t3
    ∧ next (exec (.compensate 0) s) (fun _ => true) = true ∧ next (exec (.compensate 0) t) (fun _ => true) = true := by
  refine ⟨by decide +kernel, rfl, rfl, rfl, rfl, rfl, rfl, rfl⟩

/-- OperandsConvertExactly: both ends of the range. -/
theorem witness_ofInt :
    (2 ^ 20 - 1 : Int).natAbs < 2 ^ 20 ∧ (-(2 ^ 20 - 1) : Int).natAbs < 2 ^ 20 ∧ (0 : Int).natAbs < 2 ^ 20 := by decide

/-- RoundingIsToNearestEven: an inexact magnitude, the tie `2^24 + 1` of `binary32`, two finite operands, and the limit beyond
which a magnitude rounds to infinity, from both sides. -/
theorem witness_rounding :
    (0 : Rat) ≤ 1 / 3 ∧ 5 < fpInfPattern .binary64 ∧ roundPattern .binary64 (1 / 3) < fpInfPattern .binary64
    ∧ roundPattern .binary32 16777217 = 0x4B800000 ∧ roundPattern .binary32 16777217 < fpInfPattern .binary32
    ∧ fpDatum (.single 0x40400000) = .fin false 3 ∧ fpDatum (.single 0xBF000000) = .fin true (1 / 2)
    ∧ (2 ^ 128 - 2 ^ 103 - 1 : Rat) < 2 ^ 128 - 2 ^ 103 ∧ roundPattern .binary32 (2 ^ 128 - 2 ^ 103 - 1) = 0x7F7FFFFF
    ∧ roundPattern .binary32 (2 ^ 128 - 2 ^ 103) = 0x7F800000 := by
  decide +kernel

/-- FloorIsTowardMinusInfinity: the two ends of `s32`, and -0.5 of rule R125. -/
theorem witness_floor :
    fpDatum (ofInt .binary64 (-(2 ^ 31))) = .fin true (2 ^ 31) ∧ (signedValue true (2 ^ 31)).floor = -(2 ^ 31)
    ∧ fpDatum (ofInt .binary64 (2 ^ 31 - 1)) = .fin false (2 ^ 31 - 1)
    ∧ (signedValue false (2 ^ 31 - 1)).floor = 2 ^ 31 - 1
    ∧ fpDatum (.double 0xBFE0000000000000) = .fin true (1 / 2) ∧ floorI32 (.double 0xBFE0000000000000) = 0xFFFFFFFF := by
  decide +kernel

/-- FineTemperatureIsNeverRead: a command that completes, one that is refused, and a `COMPENSATE`. -/
theorem witness_fine :
    next (exec .start (facing .idle [yes false 0])) (fun _ => true) = true
    ∧ refusal (exec .stop (facing .idle [])) = some .illegalPhase
    ∧ next (exec (.compensate 0) (operands 519888 27504 26435 0xFC18)) (fun _ => true) = true := by
  refine ⟨by decide, by decide, rfl⟩

/-- FrameOfPrimitives: each of the six instructions completes, and `SIM` stores a byte in between. -/
theorem witness_framePrimitives :
    next (exec .start (facing .idle [yes true 0])) (fun _ => true) = true
    ∧ next (exec (.sendbyte 1) (facing .tx [yes true 0])) (fun _ => true) = true
    ∧ next (exec (.recvbyte true) (facing .rx [yes true 0])) (fun _ => true) = true
    ∧ next (exec .stop (facing .tx [yes true 0])) (fun _ => true) = true
    ∧ next (exec (.addrW 1) (facing .started [yes true 0])) (fun _ => true) = true
    ∧ next (exec (.addrR 1) (facing .started [yes true 0])) (fun _ => true) = true
    ∧ (execAll [.start, .sendbyte 0xEC, .sendbyte 0xF4, .sendbyte 0x27] (simulating [] [])).map
        (fun t => (deviceByte t 0 0xF4, deviceByte t 1 0xF4, deviceByte t 0 0xF5)) = some (0x27, 0, 0) := by
  decide +kernel

/-- FrameOfRegisterAccess, FrameOfSensorReads and FrameOfCompensate. -/
theorem witness_frames_next :
    MemInv (simulating deviceOne [])
    ∧ next (exec (.writereg 0xEC 0xF4 0x27) (simulating deviceOne [])) (fun t => deviceByte t 0 0xF4 = 0x27) = true
    ∧ next (exec (.readreg 0xEC 0xD0) (simulating deviceOne [])) (fun _ => true) = true
    ∧ next (exec (.loadcal 0) (simulating deviceOne [])) (fun _ => true) = true
    ∧ next (exec (.loadcal 0) (facing .idle [never])) (fun t => statusBusy t.status) = true
    ∧ next (exec (.readraw 0) (simulating deviceOne [])) (fun _ => true) = true
    ∧ next (exec (.readraw 0) (facing .idle [never])) (fun t => statusBusy t.status) = true
    ∧ next (exec (.compensate 0) (operands 519888 27504 26435 0xFC18)) (fun _ => true) = true ∧ (1 : CtxIx) ≠ 0 := by
  refine ⟨?_, by decide +kernel, by decide +kernel, by decide +kernel, by decide +kernel, by decide +kernel,
    by decide +kernel, rfl, by decide⟩
  intro j
  match j with
  | 0 => decide
  | 1 => decide

/-- RefusalsAreThoseOfTheSpec: each reason, the refusal of `SIM`, a command not refused, the host reading a register that
holds no value, and a run refused at once and later. -/
theorem witness_refusals :
    specRefusal .stop State.reset = some .illegalPhase
    ∧ specRefusal (.loadcal 0) (facing .tx []) = some .busNotIdle
    ∧ specRefusal (.readreg 0xED 0) (facing .tx []) = some (.reservedCommand .oddDevice)
    ∧ specRefusal (.compensate 0) State.reset = some .unwrittenRegister
    ∧ specRefusal .start State.reset = none ∧ State.reset.env.kind = .unconstrained
    ∧ ((execAll [.start, .sendbyte 0xEC, .sendbyte 0xF4, .sendbyte 0x27] (simulating [] [])).map
        fun t => refusal (exec (.sendbyte 0) t)) = some (some .simNoAnswer)
    ∧ (hostProgram (hostAt .idle 2 0 0 0 0))[2]? = some (.takeId 0) ∧ (hostAt .idle 2 0 0 0 0).rxHeld = false
    ∧ next (step (hostAt .idle 2 0 0 0 0)) (fun t => t.unwrittenUse) = true
    ∧ refusal (step { hostAt .idle 2 0 0 0 0 with guarded := true }) = some .unwrittenRegister
    ∧ refusal (step { hostAt .sampling 5 0 0 0 0 with guarded := true }) = some .unwrittenRegister
    ∧ refusal (Host.Core.run core 1 { hostAt .idle 2 0 0 0 0 with guarded := true }) = some .unwrittenRegister
    ∧ refusal (Host.Core.run core 2 { hostAt .idle 2 0 0 0 0 with guarded := true }) = some .unwrittenRegister
    ∧ refusal (exec (.compensate 0) { State.reset with guarded := true }) = some .unwrittenRegister
    ∧ next (exec (.compensate 0) State.reset) (fun t => t.unwrittenUse) = true := by decide +kernel

/-- EveryCommandFinishesOrHangs: a command that finishes and one that hangs. -/
theorem witness_outcomes :
    next (exec .start (facing .idle [yes true 0])) (fun t => !statusBusy t.status) = true
    ∧ next (exec .start (facing .idle [never])) (fun t => statusBusy t.status) = true := by decide

/-- ResponsiveBusNeverHangs: `SIM`, and an unconstrained environment as far as its script tells. -/
theorem witness_responsive :
    Responsive (simulating deviceOne []).env
    ∧ next (exec (.readreg 0xEC 0xD0) (simulating deviceOne [])) (fun t => !statusBusy t.status) = true :=
  ⟨.inl rfl, by decide +kernel⟩

/-- NothingReturnedIsConsulted: two different states. -/
theorem witness_sameButReturned :
    let s := facing .idle [yes true 0x12]
    let t := facing .idle [yes false 0x34]
    s ≠ t ∧ SameButReturned s t ∧ next (exec .start s) (fun _ => true) = true
    ∧ refusal (exec .stop s) = some .illegalPhase := by
  refine ⟨by decide, ⟨rfl, rfl, rfl, rfl, rfl, rfl, rfl, rfl, rfl, rfl, rfl, rfl, rfl, rfl, rfl, rfl, rfl, rfl, rfl⟩, by decide, by decide⟩

/-- SimulatedReadReturnsTheRegister and SimulatedWriteIsReadBack. -/
theorem witness_simulated :
    let s := simulating deviceOne []
    cfgWellFormed s.cfg = true ∧ s.cfg.regReset ≠ s.cfg.regCtrl ∧ s.env.kind = .simulated ∧ s.phase = .idle
    ∧ (∀ j, Memory.wf (s.env.sim j).regs = true) := by decide

/-- EveryStepKeepsTheInvariant and ConfigurationAndHistoryAreKept: a state of the invariant with a command offered. -/
theorem witness_inv :
    let s := { facing .idle [yes true 0] with port := some (PortWord.cw 0x10000000#32) }
    Inv s ∧ next (step s) (fun t => t.phase = .started) = true := by
  refine ⟨⟨⟨rfl, rfl, rfl, rfl, fun q h => by cases h⟩, ⟨?_, ?_, rfl, rfl, rfl, ?_⟩, ?_⟩, by decide⟩ <;> intro x <;>
    match x with
    | 0 => decide
    | 1 => decide

/-- SampleCountIsCompletedTicks: the boundaries of the last tick. -/
theorem witness_sample :
    SampleInv (hostAt .sampling 6 119 119 0 0) ∧ next (step (hostAt .sampling 6 119 119 0 0)) (fun t => t.session.count = 120)
    ∧ SampleInv (hostAt .sampling 9 119 120 0 0)
    ∧ next (step (hostAt .sampling 9 119 120 0 0)) (fun t => t.session.state = .complete)
    ∧ SampleInv (hostAt .sampling 9 0 1 0 0) ∧ next (step (hostAt .sampling 9 0 1 0 0)) (fun t => t.session.tick = 1) := by
  refine ⟨?_, ?_, ?_, ?_, ?_, ?_⟩ <;> first | decide | simp [SampleInv, hostAt, Config.nTicks]

/-- IdentityCheckDecides: both identities right, and each of them wrong. -/
theorem witness_identity :
    (∀ a b : Byte, let s := hostAt .idle 5 0 0 a b
      cfgWellFormed s.cfg = true ∧ statusBusy s.status = false ∧ s.port = none ∧ s.readAsked = none ∧ s.session.running = true
        ∧ s.session.state = .idle ∧ s.session.pc = 5)
    ∧ next (step (hostAt .idle 5 0 0 0x58 0x58)) (fun t => t.session.state = .calibrationPending) = true
    ∧ next (step (hostAt .idle 5 0 0 0x60 0x58)) (fun t => t.session.state = .fault) = true
    ∧ next (step (hostAt .idle 5 0 0 0x58 0x60)) (fun t => t.session.state = .fault) = true := by
  refine ⟨fun _ _ => ⟨(by decide : cfgWellFormed Config.cfgExample = true), (by decide : statusBusy 0 = false), rfl, rfl, rfl, rfl, rfl⟩,
    by decide, by decide, by decide⟩

/-- IssuedCommandRunsNext. -/
theorem witness_issued :
    let s := hostAt .idle 1 0 0 0 0
    cfgWellFormed s.cfg = true ∧ statusBusy s.status = false ∧ s.port = none ∧ s.readAsked = none ∧ s.session.running = true
    ∧ (hostProgram s)[s.session.pc]? = some (.issue (.readreg 0xEC 0xD0))
    ∧ (Instr.readreg 0xEC 0xD0).wellFormed = true := by decide

/-- TickAccumulatesTheMean and TickEndsInProgressOrCompletion: each action. -/
theorem witness_tick :
    let s := fun pc tick => hostAt .sampling pc tick tick 0 0
    (∀ pc tick, cfgWellFormed (s pc tick).cfg = true ∧ statusBusy (s pc tick).status = false ∧ (s pc tick).port = none
      ∧ (s pc tick).readAsked = none ∧ (s pc tick).session.running = true ∧ (s pc tick).session.state = .sampling ∧ (s pc tick).session.pc = pc)
    ∧ next (step (s 7 110)) (fun t => t.session.log = [.progress 110]) = true
    ∧ next (step (s 7 111)) (fun t => t.session.log = []) = true
    ∧ next (step (s 9 118)) (fun t => t.session.tick = 119) = true := by
  refine ⟨fun _ _ => ⟨(by decide : cfgWellFormed Config.cfgExample = true), (by decide : statusBusy 0 = false), rfl, rfl, rfl, rfl, rfl⟩,
    by decide, by decide, by decide⟩

/-- ReadPortNumbers: the numbers at both ends of each range, on registers that hold a value and on registers that hold none. -/
theorem witness_readPort :
    let s := { operands 519888 27504 26435 0xFC18 with
      rxdata := 0x58
      rxHeld := true
      status := 0x06#8
      ackHeld := true
      guarded := true }
    let t := { State.reset with guarded := true }
    readPort 0x00 s = .ok (.u8 0x06) ∧ portHeld 0x00 t = true ∧ readPort 0x01 s = .ok (.u8 0x58)
    ∧ readPort 0x02 s = .error .reservedRegisterNumber ∧ readPort 0x0F s = .error .reservedRegisterNumber
    ∧ readPort 0x10 s = .ok (.u8 0xEC) ∧ readPort 0x11 s = .ok (.u16 27504) ∧ readPort 0x13 s = .ok (.s16 (-1000))
    ∧ readPort 0x14 s = .ok (.u20 519888) ∧ readPort 0x16 s = .error .unwrittenRegister
    ∧ readPort 0x17 s = .error .reservedRegisterNumber
    ∧ readPort 0x18 s = .ok (.u8 0xEE) ∧ readPort 0x1E s = .error .unwrittenRegister
    ∧ readPort 0x1F s = .error .reservedRegisterNumber ∧ readPort 0x20 s = .error .reservedRegisterNumber
    ∧ readPort 0xFF s = .error .reservedRegisterNumber
    ∧ readPort 0x01 t = .error .unwrittenRegister
    ∧ readPort 0x10 t = .ok (.u8 0xEC) ∧ portHeld 0x18 t = true ∧ portHeld 0x17 s = false
    ∧ readPort 0x01 State.reset = .ok (.u8 0) ∧ readPort 0x1F State.reset = .error .reservedRegisterNumber := by decide

/-- ReadPortNumbers: a read served, one of a register that holds no value (marked without the guard, refused under it), and one
of a reserved number. -/
theorem witness_readStep :
    let s := askRead 0x11 (operands 519888 27504 26435 0xFC18)
    let t := askRead 0x01 State.reset
    cfgWellFormed s.cfg = true ∧ statusBusy s.status = false ∧ s.port = none ∧ s.readAsked = some 0x11
    ∧ next (step s) (fun u => u.readAnswer = some (.u16 27504) && u.readAsked = none && !u.unwrittenUse) = true
    ∧ next (step t) (fun u => u.readAnswer = some (.u8 0) && u.unwrittenUse) = true
    ∧ refusal (step { t with guarded := true }) = some .unwrittenRegister
    ∧ refusal (step (askRead 0x17 State.reset)) = some .reservedRegisterNumber := by decide

/-- V23: during a hang before any byte has been sent, `STATUS` reads with `BUSY` and `OWNED` at 1 and the reserved bits 0,
whatever `ACK` is. -/
theorem test_readPort_status :
    next (exec (.readreg 0xEC 0xD0) (facing .idle [yes true 0, never])) (fun t =>
      !t.ackHeld && match readPort 0x00 t with
        | .ok (.u8 v) => statusBusy v && statusOwned v && statusReserved v = 0
        | _ => false) = true := by
  have h : ∀ b, (statusBusy (setAck 0x05#8 b) && statusOwned (setAck 0x05#8 b)
    && decide (statusReserved (setAck 0x05#8 b) = 0)) = true := by decide
  exact h (Config.ackUnwritten 1)

/-- `TEMP` of each context at its number, once `COMPENSATE` has written it (rule R21). -/
theorem test_readPort_temp :
    next (exec (.compensate 0) (operands 519888 27504 26435 0xFC18)) (fun t =>
      readPort 0x16 t = .ok (.float (.double 0x4039151D460F8000)) && readPort 0x15 t = .ok (.s32 128422)
        && readPort 0x1E { t with guarded := true } = .error .unwrittenRegister) = true := by decide +kernel

end Sys2Proof.Tests
end

section
/-! Refusals (rules R6, R166): which configurations are ill-formed, and what each part of a step can refuse. -/

namespace Sys2Proof.Machine

open Sys2Proof.Safety

/-! ### The configuration -/

/-- The register after `b` exists unless `b` is the last address (rule R6). -/
theorem not_pair_fits (b : Byte) : ¬ b.toNat + 1 ≤ 0xFF ↔ b = 0xFF#8 := by bv_omega

/-- The two registers after `b` exist unless `b` is one of the last two addresses (rule R6). -/
theorem not_triple_fits (b : Byte) : ¬ b.toNat + 2 ≤ 0xFF ↔ b = 0xFE#8 ∨ b = 0xFF#8 := by bv_omega

/-- Rule R6, read as the ways to break it. -/
theorem cfgWellFormed_eq_false_iff (c : Cfg) :
    cfgWellFormed c = false ↔
      c.devAddr0 = c.devAddr1 ∨ c.devAddr0.getLsbD 0 = true ∨ c.devAddr1.getLsbD 0 = true
        ∨ c.regT1 = 0xFF#8 ∨ c.regT2 = 0xFF#8 ∨ c.regT3 = 0xFF#8 ∨ c.regTemp = 0xFE#8 ∨ c.regTemp = 0xFF#8 := by
  simp only [cfgWellFormed, isDeviceAddr, Bool.and_eq_false_iff, bne_eq_false_iff_eq, Bool.not_eq_false',
    decide_eq_false_iff_not, not_pair_fits, not_triple_fits, or_assoc]

/-! ### What a command, a read and a step refuse -/

/-- A check that lets a command run or refuses it refuses just where it fails, and with its own reason. -/
theorem check_refused_iff {c : Prop} [Decidable c] {t : State} {q r : Refusal} :
    (if c then (.next t : Host.Outcome State Fault Refusal) else .refused q) = .refused r ↔ ¬ c ∧ q = r := by
  split <;> simp [*]

/-- A refused command is one the spec refuses for that reason, an unwritten register under the guard alone, or one to which
`SIM` has no answer (rules R36, R166, R167). -/
theorem exec_refused {i : Instr} {s : State} {r : Refusal} (h : exec i s = .refused r) :
    (specRefusal i s = some r ∧ (r = .unwrittenRegister → s.guarded = true))
      ∨ (r = .simNoAnswer ∧ s.env.kind = .simulated) := by
  cases i with
  | start | stop | addrW | addrR | loadcal | readraw =>
    obtain ⟨hc, rfl⟩ := check_refused_iff.1 h
    exact .inl ⟨if_neg hc, nofun⟩
  | sendbyte b =>
    simp only [exec, execSendbyte] at h
    split at h
    · split at h
      · cases h
        exact .inr ⟨rfl, by simp_all [Env.refusesSend]⟩
      · cases h
    · cases h
      exact .inl ⟨if_neg ‹_›, nofun⟩
  | recvbyte k =>
    simp only [exec, execRecvbyte] at h
    split at h
    · split at h
      · cases h
        exact .inr ⟨rfl, by simp_all [Env.refusesRecv]⟩
      · cases h
    · cases h
      exact .inl ⟨if_neg ‹_›, nofun⟩
  | writereg d | readreg d =>
    simp only [exec, execWritereg, execReadreg] at h
    split at h
    · obtain ⟨hc, rfl⟩ := check_refused_iff.1 h
      exact .inl ⟨by simp [specRefusal, *], nofun⟩
    · cases h
      exact .inl ⟨if_neg ‹_›, nofun⟩
  | compensate x =>
    obtain ⟨hc, rfl⟩ := check_refused_iff.1 h
    obtain ⟨hx, hg⟩ : compensable (s.ctx x) = false ∧ s.guarded = true := by simpa [State.mayUse] using hc
    exact .inl ⟨by simp [specRefusal, hx], fun _ => hg⟩

/-- A number that names no register of a context is refused as reserved (rule R21). -/
theorem readContext_error {c : Context} {n : Nat} {r : Refusal} (h : readContext c n = .error r) :
    r = .reservedRegisterNumber := by
  unfold readContext at h
  split at h <;> cases h
  rfl

/-- A number that names no register is refused as reserved (rule R21). -/
theorem portRegister_error {n : Byte} {s : State} {r : Refusal} (h : portRegister n s = .error r) :
    r = .reservedRegisterNumber := by
  unfold portRegister at h
  split at h
  · cases h
  split at h
  · cases h
  split at h
  · exact readContext_error h
  split at h
  · exact readContext_error h
  · cases h
    rfl

/-- The read port refuses a reserved number, or an unwritten register under the spec's guard (rules R12, R21, R166). -/
theorem readPort_error {n : Byte} {s : State} {r : Refusal} (h : readPort n s = .error r) :
    r = .reservedRegisterNumber ∨ (r = .unwrittenRegister ∧ s.guarded = true ∧ portHeld n s = false) := by
  unfold readPort at h
  split at h
  · split at h
    · cases h
    · cases h
      exact .inr ⟨rfl, by simp_all [State.mayUse]⟩
  · cases h
    exact .inl (portRegister_error ‹_›)

/-- A read that is refused is refused as the read port refuses it. -/
theorem readStep_refused {n : Byte} {s : State} {r : Refusal} (h : readStep n s = .refused r) :
    readPort n s = .error r := by
  unfold readStep at h
  split at h <;> cases h
  assumption

/-- Everything a refused step can have been: an ill-formed configuration; or, in a block that is not hung, an offered word that
is reserved or whose instruction is refused, a read refused, or an action of the host refused. -/
theorem step_refused {s : State} {r : Refusal} (h : step s = .refused r) :
    (cfgWellFormed s.cfg = false ∧ r = .illFormedConfig)
    ∨ (cfgWellFormed s.cfg = true ∧ statusBusy s.status = false
      ∧ ((∃ p why, s.port = some p ∧ decode p = .error why ∧ r = .reservedCommand why)
        ∨ (∃ p i, s.port = some p ∧ decode p = .ok i ∧ exec i { s with port := none } = .refused r)
        ∨ (s.port = none ∧ ∃ n, s.readAsked = some n ∧ readPort n s = .error r)
        ∨ (s.port = none ∧ s.readAsked = none ∧ hostStep s = .refused r))) := by
  unfold step at h
  split at h
  · rename_i hc
    split at h
    · cases h
    · refine .inr ⟨hc, Bool.eq_false_iff.2 ‹_›, ?_⟩
      split at h
      · split at h
        · exact .inr (.inl ⟨_, _, ‹_›, ‹_›, h⟩)
        · cases h
          exact .inl ⟨_, _, ‹_›, ‹_›, rfl⟩
      · split at h
        · exact .inr (.inr (.inl ⟨‹_›, _, ‹_›, readStep_refused h⟩))
        · exact .inr (.inr (.inr ⟨‹_›, ‹_›, h⟩))
  · cases h
    exact .inl ⟨Bool.eq_false_iff.2 ‹_›, rfl⟩

/-! ### `IllFormedConfig` is the step's alone -/

/-- The spec gives no command the reason `IllFormedConfig` (rules R166, R167). -/
theorem specRefusal_ne_illFormedConfig (i : Instr) (s : State) : specRefusal i s ≠ some .illFormedConfig := by
  cases i with
  | writereg d | readreg d => cases hd : isDeviceAddr d <;> simp [specRefusal, hd]
  | _ => simp [specRefusal]

/-- No command raises `IllFormedConfig`. -/
theorem exec_ne_illFormedConfig (i : Instr) (s : State) : exec i s ≠ .refused .illFormedConfig := by
  intro h
  obtain ⟨hs, -⟩ | ⟨hr, -⟩ := exec_refused h
  · exact specRefusal_ne_illFormedConfig i s hs
  · cases hr

/-- The read port does not raise `IllFormedConfig`. -/
theorem readPort_ne_illFormedConfig (n : Byte) (s : State) : readPort n s ≠ .error .illFormedConfig := by
  intro h
  obtain hr | ⟨hr, -⟩ := readPort_error h <;> cases hr

/-- The host does not raise `IllFormedConfig`. -/
theorem hostStep_ne_illFormedConfig (s : State) : hostStep s ≠ .refused .illFormedConfig := by
  intro h
  obtain ⟨hr, -⟩ := hostStep_refused.1 h
  cases hr

/-- A step raises `IllFormedConfig` just where the configuration is ill-formed: the check comes first, and nothing after it
raises that reason (rules R6, R166). -/
theorem step_illFormedConfig_iff (s : State) : step s = .refused .illFormedConfig ↔ cfgWellFormed s.cfg = false := by
  constructor
  · intro h
    obtain ⟨hc, -⟩ | ⟨-, -, hword | ⟨p, i, -, -, hexec⟩ | ⟨-, n, -, hread⟩ | ⟨-, -, hhost⟩⟩ := step_refused h
    · exact hc
    · obtain ⟨p, why, -, -, hr⟩ := hword
      cases hr
    · exact absurd hexec (exec_ne_illFormedConfig i _)
    · exact absurd hread (readPort_ne_illFormedConfig n s)
    · exact absurd hhost (hostStep_ne_illFormedConfig s)
  · intro hc
    simp [step, hc]

/-- Settles O8: a broken condition of rule R6 is what `cfgWellFormed` refuses, and the step's check is the only source of the
reason. -/
theorem illFormedConfigurationIsRefused : Obligations.IllFormedConfigurationIsRefused := fun s =>
  (cfgWellFormed_eq_false_iff s.cfg).symm.trans (step_illFormedConfig_iff s).symm

end Sys2Proof.Machine
end

section
/-! What every command leaves behind (rules R19, R90, R163, R164): it finishes with all its events or hangs at one of its
primitives, and what holds a value goes on holding one. -/

namespace Sys2Proof.Machine

open Sys2Proof.Safety

/-! ### Events and the sequencer -/

/-- Settles O48: how far the body got (`advanced_bodyOf`) and which events it has shown (`shows_bodyOf`) speak of the same
events, so `SEQ` points past exactly those. -/
theorem everyCommandFinishesOrHangs : Obligations.EveryCommandFinishesOrHangs := by
  intro i s t h
  refine ⟨commandShapes_length i s, ?_⟩
  obtain ⟨⟨es, htrace, hshape, -, -⟩, -⟩ := shows_bodyOf h
  obtain ⟨j, es', hle, hdone, hlen, htrace', hseq, hbusy⟩ := advanced_bodyOf i (accept i s)
  obtain rfl : es = es' := List.append_cancel_left (htrace.symm.trans htrace')
  rw [hlen] at hshape
  rw [exec_next h]
  refine ⟨es, ?_⟩
  obtain ⟨hd, e⟩ | ⟨hd, e⟩ := runCommand_cases i (bodyOf i) s <;> rw [e]
  · have hall : es.map eventShape = commandShapes i s := by
      rw [hshape, hdone.1 hd, ← commandShapes_length i s, List.take_length]
    exact ⟨htrace, .inl ⟨by simp, rfl, hall⟩⟩
  · have hj : j ≠ primitiveCount i := fun hj => by simp [hdone.2 hj] at hd
    exact ⟨htrace, .inr ⟨by simpa using hbusy, j, by omega, by simpa using hseq, hshape⟩⟩

/-! ### Registers that hold a value -/

/-- Every register of a context that holds a value before holds one after (rule R12). -/
def Held.Within (h k : Held) : Prop :=
  (h.t1 = true → k.t1 = true) ∧ (h.t2 = true → k.t2 = true) ∧ (h.t3 = true → k.t3 = true) ∧ (h.raw = true → k.raw = true)
    ∧ (h.tfine = true → k.tfine = true) ∧ (h.temp = true → k.temp = true)

theorem Held.Within.refl (h : Held) : h.Within h := ⟨id, id, id, id, id, id⟩

theorem Held.Within.trans {a b c : Held} (h : a.Within b) (g : b.Within c) : a.Within c := by
  obtain ⟨h1, h2, h3, h4, h5, h6⟩ := h
  obtain ⟨g1, g2, g3, g4, g5, g6⟩ := g
  exact ⟨g1 ∘ h1, g2 ∘ h2, g3 ∘ h3, g4 ∘ h4, g5 ∘ h5, g6 ∘ h6⟩

/-- Every register of the block that holds a value before holds one after (rule R12). -/
def MarksKept (s t : State) : Prop :=
  (s.rxHeld = true → t.rxHeld = true) ∧ (s.ackHeld = true → t.ackHeld = true)
    ∧ ∀ x, (s.ctx x).held.Within (t.ctx x).held

theorem MarksKept.refl (s : State) : MarksKept s s := ⟨id, id, fun _ => .refl _⟩

theorem MarksKept.trans {a b c : State} (h : MarksKept a b) (g : MarksKept b c) : MarksKept a c := by
  obtain ⟨hrx, hack, hctx⟩ := h
  obtain ⟨grx, gack, gctx⟩ := g
  exact ⟨grx ∘ hrx, gack ∘ hack, fun x => (hctx x).trans (gctx x)⟩

/-- A primitive marks `RXDATA` or `ACK` as holding a value, or leaves the marks alone (rules R72 to R75). -/
theorem kept_marksKept : Kept MarksKept where
  refl := .refl
  trans := .trans
  start s := by
    obtain ⟨-, h⟩ | ⟨e, -, h⟩ := phaseStart_cases s <;> rw [h] <;> exact .refl s
  send b s := by
    obtain ⟨-, h⟩ | ⟨a, e, -, h⟩ := phaseSend_cases b s <;> rw [h]
    · exact .refl s
    · exact ⟨id, fun _ => rfl, fun _ => .refl _⟩
  recv k s := by
    obtain ⟨-, h⟩ | ⟨b, e, -, h⟩ := phaseRecv_cases k s <;> rw [h]
    · exact .refl s
    · exact ⟨fun _ => rfl, id, fun _ => .refl _⟩
  stop s := by
    obtain ⟨-, h⟩ | ⟨e, -, h⟩ := phaseStop_cases s <;> rw [h] <;> exact .refl s

/-- A write of one context that leaves its marks set keeps every mark. -/
theorem marksKept_of_ctx {s t : State} {x : CtxIx} {c : Context} (hrx : t.rxHeld = s.rxHeld) (hack : t.ackHeld = s.ackHeld)
    (hctx : ∀ y, t.ctx y = if y = x then c else s.ctx y) (hc : (s.ctx x).held.Within c.held) : MarksKept s t := by
  refine ⟨by simp [hrx], by simp [hack], fun y => ?_⟩
  rw [hctx]
  split
  · subst y
    exact hc
  · exact .refl _

theorem marksKept_writeTriple (x : CtxIx) (t1 t2 t3 : BitVec 16) (s : State) : MarksKept s (writeTriple x t1 t2 t3 s) :=
  marksKept_of_ctx (by simp) (by simp) (fun y => writeTriple_ctx x y t1 t2 t3 s)
    ⟨fun _ => rfl, fun _ => rfl, fun _ => rfl, id, id, id⟩

theorem marksKept_writeRaw (x : CtxIx) (v : BitVec 20) (s : State) : MarksKept s (writeRaw x v s) :=
  marksKept_of_ctx (by simp) (by simp) (fun y => writeRaw_ctx x y v s) ⟨id, id, id, fun _ => rfl, id, id⟩

theorem marksKept_compBody (x : CtxIx) (s : State) : MarksKept s (compBody x s).state :=
  marksKept_of_ctx (by simp [compBody]) (by simp [compBody]) (fun y => compBody_ctx x y s)
    ⟨id, id, id, id, fun _ => rfl, fun _ => rfl⟩

theorem marksKept_bodyOf (i : Instr) (s : State) : MarksKept s (bodyOf i s).state := by
  cases i with
  | start => exact kept_marksKept.start s
  | sendbyte b => exact kept_marksKept.send b s
  | recvbyte k => exact kept_marksKept.recv k s
  | stop => exact kept_marksKept.stop s
  | writereg d r v => exact kept_marksKept.write_frame d r v s
  | readreg d r => exact kept_marksKept.read_frame d r s
  | loadcal x => exact kept_marksKept.load_cal x s (marksKept_writeTriple x)
  | readraw x => exact kept_marksKept.read_raw x s (marksKept_writeRaw x)
  | compensate x => exact marksKept_compBody x s
  | addrW a7 => exact kept_marksKept.send _ s
  | addrR a7 => exact kept_marksKept.send _ s

theorem exec_marksKept {i : Instr} {s t : State} (h : exec i s = .next t) : MarksKept s t :=
  exec_rel (P := MarksKept) MarksKept.trans h (.refl s) (marksKept_bodyOf i _) fun u => .refl u

/-! ### What every step keeps -/

/-- Settles O54: a command keeps all of it by `exec_ctxKept`, `exec_marksKept` and the events of O48; a read and the host write
none of it but the mark, which they only set. -/
theorem configurationAndHistoryAreKept : Obligations.ConfigurationAndHistoryAreKept := by
  intro s t h
  obtain ⟨-, ⟨-, rfl⟩ | ⟨-, p, i, -, -, hexec⟩ | ⟨-, -, n, -, hread⟩ | ⟨-, -, -, hhost⟩⟩ := step_next h
  · exact ⟨rfl, fun _ => rfl, List.prefix_rfl, rfl, id, MarksKept.refl t⟩
  · obtain ⟨hcfg, hdev, -, -, -, -, hguard, huse, -, -⟩ := exec_ctxKept hexec
    obtain ⟨-, es, htrace, -⟩ := everyCommandFinishesOrHangs i _ t hexec
    have hmarks := exec_marksKept hexec
    exact ⟨hcfg, hdev, ⟨es, htrace.symm⟩, hguard, huse, hmarks⟩
  · obtain ⟨v, -, rfl⟩ := readStep_next hread
    exact ⟨rfl, fun _ => rfl, List.prefix_rfl, rfl, fun hu => by simp [answerRead, hu], MarksKept.refl s⟩
  · obtain rfl | ⟨a, -, -, -, rfl⟩ := hostStep_next hhost
    · exact ⟨rfl, fun _ => rfl, List.prefix_rfl, rfl, id, MarksKept.refl t⟩
    · exact ⟨rfl, fun _ => rfl, List.prefix_rfl, rfl, fun hu => by simp [hu], MarksKept.refl s⟩

end Sys2Proof.Machine
end

section
/-! The machine's invariant (rules R11, R16, R18, R19, R20): what a command, a served read and an action of the host do to each
of its parts. -/

namespace Sys2Proof.Machine

open Sys2Proof.Safety

/-! ### Commands -/

/-- `SEQ` is there just while `BUSY = 1` and names a primitive of its command (rule R19): the rest of `BusInv` beside
`BusCore`. -/
def SeqInv (s : State) : Prop :=
  statusBusy s.status = s.seq.isSome ∧ ∀ q, s.seq = some q → q.k < primitiveCount q.cmd

theorem busInv_iff (s : State) : BusInv s ↔ BusCore s ∧ SeqInv s := by
  simp only [BusInv, BusCore, SeqInv, and_assoc]

/-- A finished command leaves no `SEQ`, and a hung one the position of one of its primitives (rules R19, R163). -/
theorem exec_seqInv {i : Instr} {s t : State} (h : exec i s = .next t) : SeqInv t := by
  obtain ⟨-, es, -, ⟨hbusy, hseq, -⟩ | ⟨hbusy, k, hk, hseq, -⟩⟩ := everyCommandFinishesOrHangs i s t h
  · exact ⟨by simp [hbusy, hseq], by simp [hseq]⟩
  · refine ⟨by simp [hbusy, hseq], fun q hq => ?_⟩
    obtain rfl : { cmd := i, k := k } = q := Option.some.inj (hseq.symm.trans hq)
    exact hk

/-- A byte is received only where the bus is owned (rules R71, R74). -/
theorem exec_recvbyte_owned {k : Bool} {s t : State} (h : exec (.recvbyte k) s = .next t) : s.phase ≠ .idle := by
  intro hidle
  have hl := exec_next_legal h
  simp [specRefusal, recvLegal, hidle] at hl

/-- A command that is not refused keeps `PHASE`, `OWNED` and the reserved bits right (rules R16, R18). -/
theorem exec_busCore {i : Instr} {s t : State} (h : exec i s = .next t) (hs : BusCore s) : BusCore t := by
  have howned : ∀ k, i = .recvbyte k → s.phase ≠ .idle := by
    rintro k rfl
    exact exec_recvbyte_owned h
  have hbody : BusCore (bodyOf i (accept i s)).state := busCore_bodyOf howned (busCore_accept hs)
  rw [exec_next h]
  obtain ⟨-, e⟩ | ⟨-, e⟩ := runCommand_cases i (bodyOf i) s <;> rw [e]
  · exact busCore_finish hbody
  · exact hbody

/-- What keeps the context file in order and leaves the session alone keeps the registers' side. -/
theorem CtxKept.regInv {s t : State} (h : CtxKept s t) (hs : RegInv s) : RegInv t := by
  obtain ⟨hcfg, hdev, hformat, hheld, hsession, -⟩ := h
  obtain ⟨sdev, sformat, stemp1, stemp2, ssum, sheld⟩ := hs
  refine ⟨fun x => ?_, fun x => ?_, ?_, ?_, ?_, hheld sheld⟩
  · rw [hdev, hcfg, sdev]
  · rw [hcfg, hformat sformat]
  all_goals rwa [hsession, hcfg]

/-- Every command keeps the invariant. -/
theorem exec_inv {i : Instr} {s t : State} (h : exec i s = .next t) (hs : Inv s) : Inv t := by
  obtain ⟨hbus, hreg, hmem⟩ := hs
  exact ⟨(busInv_iff t).2 ⟨exec_busCore h ((busInv_iff s).1 hbus).1, exec_seqInv h⟩, (exec_ctxKept h).regInv hreg,
    exec_memInv h hmem⟩

/-! ### The host -/

/-- The floating values of the host are of the format `f` (rules R121, R141). -/
def SessionFormat (f : FpFormat) (h : Session) : Prop :=
  h.temp1.format = f ∧ h.temp2.format = f ∧ h.sum.format = f

/-- An action of the host keeps its floating values in the configured format: what it takes, `TEMP`, is in that format, and what
it computes is a result of rule R121 (rules R145, R146). -/
theorem sessionFormat_sessionAct {s : State} (hctx : ∀ x, (s.ctx x).temp.format = s.cfg.fpfmt)
    (h : SessionFormat s.cfg.fpfmt s.session) (a : HostAct) : SessionFormat s.cfg.fpfmt (sessionAct s a) := by
  obtain ⟨htemp1, htemp2, hsum⟩ := h
  cases a with
  | emit | issue => exact ⟨htemp1, htemp2, hsum⟩
  | takeId | compareIds | progress | nextTick =>
    simp only [sessionAct]
    split <;> exact ⟨htemp1, htemp2, hsum⟩
  | enterSampling => exact ⟨htemp1, htemp2, format_zero _⟩
  | takeTemp x =>
    simp only [sessionAct]
    split
    · exact ⟨hctx 0, htemp2, hsum⟩
    · exact ⟨htemp1, hctx 1, hsum⟩
  | accumulate => exact ⟨htemp1, htemp2, format_fadd ..⟩

theorem afterAct_inv {s : State} (h : Inv s) (a : HostAct) : Inv (afterAct s a) := by
  obtain ⟨hbus, ⟨hdev, hformat, htemp1, htemp2, hsum, hheld⟩, hmem⟩ := h
  obtain ⟨htemp1', htemp2', hsum'⟩ := sessionFormat_sessionAct hformat ⟨htemp1, htemp2, hsum⟩ a
  exact ⟨hbus, ⟨hdev, hformat, htemp1', htemp2', hsum', hheld⟩, hmem⟩

/-! ### The step -/

/-- Settles O53: each of the four things a step can do keeps the invariant. The port, the read port and the mark are no part of
it, so taking a word and serving a read leave it as it is. -/
theorem everyStepKeepsTheInvariant : Obligations.EveryStepKeepsTheInvariant := by
  intro s t hs h
  obtain ⟨-, ⟨-, rfl⟩ | ⟨-, p, i, -, -, hexec⟩ | ⟨-, -, n, -, hread⟩ | ⟨-, -, -, hhost⟩⟩ := step_next h
  · exact hs
  · exact exec_inv hexec hs
  · obtain ⟨v, -, rfl⟩ := readStep_next hread
    exact hs
  · obtain rfl | ⟨a, -, -, -, rfl⟩ := hostStep_next hhost
    · exact hs
    · exact afterAct_inv hs a

end Sys2Proof.Machine
end

section
/-! Where a command and the host are refused (rules R12, R166, R167), beside what the section on refusals above says a refusal can
be. -/

namespace Sys2Proof.Machine

open Sys2Proof.Safety

/-- What the spec refuses is refused, and for its reason (rules R166, R167). -/
theorem exec_of_specRefusal {i : Instr} {s : State} {r : Refusal} (h : specRefusal i s = some r)
    (hguard : r = .unwrittenRegister → s.guarded = true) : exec i s = .refused r := by
  cases i with
  | start | stop | sendbyte | recvbyte | addrW | addrR | loadcal | readraw =>
    simp only [specRefusal] at h
    split at h <;> cases h
    exact if_neg ‹_›
  | writereg d | readreg d =>
    simp only [specRefusal] at h
    split at h
    · split at h <;> cases h
      exact (if_pos ‹_›).trans (if_neg ‹_›)
    · cases h
      exact if_neg ‹_›
  | compensate x =>
    simp only [specRefusal] at h
    split at h <;> cases h
    exact exec_compensate_refused (by simp_all [State.mayUse])

/-- What the spec does not refuse runs, but for a `SIM` that has no answer (rules R36, R166). -/
theorem exec_runs {i : Instr} {s : State} (h : specRefusal i s = none) (henv : s.env.kind = .unconstrained) :
    ∃ t, exec i s = .next t := by
  cases he : exec i s with
  | next t => exact ⟨t, rfl⟩
  | fault f => exact absurd he (exec_not_fault i s f)
  | refused r =>
    obtain ⟨hr, -⟩ | ⟨-, hsim⟩ := exec_refused he
    · simp [h] at hr
    · simp [henv] at hsim

/-- `COMPENSATE` sets the mark when one of its operands holds no value (rules R12, R166). -/
theorem compensateUnguarded_unwrittenUse (x : CtxIx) (s : State) :
    (compensateUnguarded x s).unwrittenUse = (s.unwrittenUse || !compensable (s.ctx x)) := by
  simp [compensateUnguarded, runCommand, compBody]

/-- The one command the spec refuses for an unwritten register is `COMPENSATE` (rule R124). -/
theorem specRefusal_unwritten {i : Instr} {s : State} (h : specRefusal i s = some .unwrittenRegister) :
    ∃ x, i = .compensate x ∧ compensable (s.ctx x) = false := by
  cases i with
  | compensate x => exact ⟨x, rfl, by simpa [specRefusal] using h⟩
  | writereg d | readreg d => cases hd : isDeviceAddr d <;> simp [specRefusal, hd] at h
  | _ => simp [specRefusal] at h

/-- Without the guard a use of an unwritten register runs and is marked (rules R12, R184; log 17). -/
theorem exec_unwritten_unguarded {i : Instr} {s : State} (h : specRefusal i s = some .unwrittenRegister)
    (hguard : s.guarded = false) : ∃ t, exec i s = .next t ∧ t.unwrittenUse = true := by
  obtain ⟨x, rfl, hx⟩ := specRefusal_unwritten h
  exact ⟨_, exec_compensate_runs (by simp [hx, hguard]), by simp [compensateUnguarded_unwrittenUse, hx]⟩

/-- The actions that read a register that holds no value: the host takes `RXDATA`, or `TEMP` of a context. -/
theorem readsHeld_eq_false_iff (s : State) (a : HostAct) : readsHeld s a = false ↔
    ∃ x, (a = .takeId x ∧ s.rxHeld = false) ∨ (a = .takeTemp x ∧ (s.ctx x).held.temp = false) := by
  rw [readsHeld_eq]
  cases a <;> simp

/-- The same of the action the host has come to. -/
theorem exists_act_unheld_iff (s : State) :
    (∃ a, (hostProgram s)[s.session.pc]? = some a ∧ readsHeld s a = false) ↔
      ∃ x, ((hostProgram s)[s.session.pc]? = some (.takeId x) ∧ s.rxHeld = false)
        ∨ ((hostProgram s)[s.session.pc]? = some (.takeTemp x) ∧ (s.ctx x).held.temp = false) := by
  simp only [readsHeld_eq_false_iff]
  constructor
  · rintro ⟨a, ha, x, ⟨rfl, hx⟩ | ⟨rfl, hx⟩⟩
    · exact ⟨x, .inl ⟨ha, hx⟩⟩
    · exact ⟨x, .inr ⟨ha, hx⟩⟩
  · rintro ⟨x, ⟨ha, hx⟩ | ⟨ha, hx⟩⟩
    · exact ⟨_, ha, x, .inl ⟨rfl, hx⟩⟩
    · exact ⟨_, ha, x, .inr ⟨rfl, hx⟩⟩

/-- Without the guard a host that reads a register that holds no value goes on and is marked (rule R12; log 17). -/
theorem hostStep_unheld_unguarded {s : State} {a : HostAct} (hrun : s.session.running = true) (hguard : s.guarded = false)
    (ha : (hostProgram s)[s.session.pc]? = some a) (hheld : readsHeld s a = false) :
    hostStep s = .next (afterAct s a) := by
  simp [hostStep, hrun, ha, hheld, hguard]

/-- Settles O47: a command, from `exec_of_specRefusal` and what a refusal can be (`exec_refused`); the host, from
`hostStep_refused`; a run, from `run_refused`. -/
theorem refusalsAreThoseOfTheSpec : Obligations.RefusalsAreThoseOfTheSpec := by
  refine ⟨fun i s => ⟨fun r => exec_of_specRefusal, fun r => exec_refused, exec_runs, exec_unwritten_unguarded⟩,
    fun s hcfg hbusy hport hasked => ?_, fun s r m n => run_refused⟩
  rw [step_host hcfg hbusy hport hasked]
  refine ⟨fun r => ?_, fun hguard ⟨hrun, hreads⟩ => ?_⟩
  · rw [hostStep_refused, exists_act_unheld_iff]
    exact and_congr_right fun _ => and_left_comm
  · obtain ⟨a, ha, hheld⟩ := (exists_act_unheld_iff s).2 hreads
    exact ⟨_, hostStep_unheld_unguarded hrun hguard ha hheld, by simp [hheld]⟩

end Sys2Proof.Machine
end

section
/-! The registers: their values at reset (rule R24), what `COMPENSATE` writes (rules R123, R124), and what the read port answers
(rule R21). -/

namespace Sys2Proof.Machine

open Sys2Proof.Safety

/-! ### Reset -/

/-- Settles O11: the reset state is a record of the table's values; only which context is asked for needs a case. -/
theorem resetStateOfTheTable : Obligations.ResetStateOfTheTable := by
  intro c
  have hbusy : statusBusy 0 = false := by decide
  have howned : statusOwned 0 = false := by decide
  refine ⟨fun x => ?_, rfl, hbusy, rfl, howned, rfl, rfl, rfl⟩
  match x with
  | 0 => exact ⟨rfl, rfl⟩
  | 1 => exact ⟨rfl, rfl⟩

/-! ### Bits -/

/-- `as_s16` is the reading as two's complement (rules R8, R101). -/
theorem asS16_eq_toInt (w : BitVec 16) : asS16 w = w.toInt := by
  unfold asS16 BitVec.toInt
  split <;> split <;> omega

/-- Of two writes of `BUSY` the second stands (rule R16). -/
@[simp] theorem setBusy_setBusy (v : BitVec 8) (b d : Bool) : setBusy (setBusy v b) d = setBusy v d :=
  status_ext _ _ (by simp) (by simp) (by simp) (by simp)

/-! ### COMPENSATE -/

/-- What `COMPENSATE x` leaves behind (rule R124): `TEMP` and `TFINE` of its context by the polynomial, no command in flight, and
the mark when an operand held no value. -/
theorem compensateUnguarded_eq (x : CtxIx) (s : State) :
    compensateUnguarded x s = { s.setCtx x (compensated s.cfg.fpfmt (s.ctx x)) with
      status := setBusy s.status false
      seq := none
      unwrittenUse := s.unwrittenUse || !compensable (s.ctx x) } := by
  match x with
  | 0 => simp [compensateUnguarded, runCommand, compBody, accept, finish, State.used, State.setCtx]
  | 1 => simp [compensateUnguarded, runCommand, compBody, accept, finish, State.used, State.setCtx]

/-- The operands of `COMPENSATE` all hold a value, or one of the four does not (rule R124). -/
theorem compensable_eq_false_iff (c : Context) : compensable c = false ↔
    c.held.raw = false ∨ c.held.t1 = false ∨ c.held.t2 = false ∨ c.held.t3 = false := by
  simp only [compensable, Bool.and_eq_false_iff, or_assoc]

/-- Settles O33: the state written out in the statement is `compensateUnguarded_eq`'s, with the operands read as two's
complement. -/
theorem compensateCompletes : Obligations.CompensateCompletes := by
  intro s x
  dsimp only
  have hcontext := compensateUnguarded_eq x s
  simp only [compensated, comp, compSum, asS16_eq_toInt] at hcontext
  refine ⟨fun hraw h1 h2 h3 => ?_, fun hnone => ?_, hcontext⟩
  · have hc : compensable (s.ctx x) = true := by simp [compensable, hraw, h1, h2, h3]
    rw [exec_compensate_runs (by simp [hc]), hcontext]
    simp [hc]
  · have hc := (compensable_eq_false_iff _).2 hnone
    refine ⟨fun hguard => ?_, fun hguard => exec_compensate_refused (by simp [hc, hguard])⟩
    rw [exec_compensate_runs (by simp [hc, hguard]), hcontext]
    simp [hc]

/-! ### The read port -/

/-- The read port at a number that names a register (rules R12, R21). -/
theorem readPort_of_register {n : Byte} {s : State} {v : PortValue} (h : portRegister n s = .ok v) :
    readPort n s = if portHeld n s = false ∧ s.guarded = true then .error .unwrittenRegister else .ok v := by
  cases hheld : portHeld n s <;> cases hguard : s.guarded <;> simp [readPort, h, hheld, hguard]

/-- The eight numbers of context `x` are its offsets (rule R21). -/
theorem portRegister_ctx (s : State) (x : CtxIx) {k : Nat} (hk : k < 8) :
    portRegister (BitVec.ofNat 8 (0x10 + k + 8 * x.val)) s = readContext (s.ctx x) k := by
  match x with
  | 0 => interval_cases k <;> rfl
  | 1 => interval_cases k <;> rfl

theorem portHeld_ctx (s : State) (x : CtxIx) {k : Nat} (hk : k < 8) :
    portHeld (BitVec.ofNat 8 (0x10 + k + 8 * x.val)) s = contextHeld (s.ctx x) k := by
  match x with
  | 0 => interval_cases k <;> rfl
  | 1 => interval_cases k <;> rfl

/-- The read port at a register of a context. -/
theorem readPort_ctx {s : State} {x : CtxIx} {k : Nat} {v : PortValue} (hk : k < 8)
    (h : readContext (s.ctx x) k = .ok v) :
    readPort (BitVec.ofNat 8 (0x10 + k + 8 * x.val)) s =
      if contextHeld (s.ctx x) k = false ∧ s.guarded = true then .error .unwrittenRegister else .ok v := by
  rw [readPort_of_register ((portRegister_ctx s x hk).trans h), portHeld_ctx s x hk]

/-- Offset 7 of a context, and what is past it, names no register (rule R21). -/
theorem readContext_reserved_iff (c : Context) (k : Nat) : readContext c k = .error .reservedRegisterNumber ↔ 7 ≤ k := by
  match k with
  | 0 | 1 | 2 | 3 | 4 | 5 | 6 => simp [readContext]
  | k + 7 => simp [readContext]

/-- The numbers that name no register (rule R21). -/
theorem portRegister_reserved_iff (n : Byte) (s : State) : portRegister n s = .error .reservedRegisterNumber ↔
    (2 ≤ n.toNat ∧ n.toNat < 0x10) ∨ n.toNat = 0x17 ∨ 0x1F ≤ n.toNat := by
  unfold portRegister
  split
  · subst n
    simp
  split
  · subst n
    simp
  split
  · rw [readContext_reserved_iff]
    omega
  split
  · rw [readContext_reserved_iff]
    omega
  · have h0 : n.toNat ≠ 0 := by bv_omega
    have h1 : n.toNat ≠ 1 := by bv_omega
    simp only [true_iff]
    omega

/-- The read port refuses a number as reserved just where it names no register. -/
theorem readPort_reserved_iff (n : Byte) (s : State) :
    readPort n s = .error .reservedRegisterNumber ↔ portRegister n s = .error .reservedRegisterNumber := by
  cases h : portRegister n s with
  | error r => simp [readPort, h]
  | ok v =>
    rw [readPort_of_register h]
    split <;> simp

/-! The fields of `STATUS` as the host reads it (rules R16, R21; log 15). -/

@[simp] theorem statusBusy_mask (v : BitVec 8) : statusBusy (v &&& 0x07#8) = statusBusy v := by simp [statusBusy]
@[simp] theorem statusAck_mask (v : BitVec 8) : statusAck (v &&& 0x07#8) = statusAck v := by simp [statusAck]
@[simp] theorem statusOwned_mask (v : BitVec 8) : statusOwned (v &&& 0x07#8) = statusOwned v := by simp [statusOwned]
@[simp] theorem statusReserved_mask (v : BitVec 8) : statusReserved (v &&& 0x07#8) = 0 := by
  apply BitVec.eq_of_getLsbD_eq
  intro i hi
  interval_cases i <;> simp [statusReserved]

theorem statusBusy_statusRead (s : State) : statusBusy (statusRead s) = statusBusy s.status := by
  unfold statusRead
  split <;> simp

theorem statusOwned_statusRead (s : State) : statusOwned (statusRead s) = statusOwned s.status := by
  unfold statusRead
  split <;> simp

theorem statusReserved_statusRead (s : State) : statusReserved (statusRead s) = 0 := by
  unfold statusRead
  split <;> simp

theorem statusAck_statusRead {s : State} (h : s.ackHeld = true) : statusAck (statusRead s) = statusAck s.status := by
  simp [statusRead, h]

/-- A read the read port answers is served: the answer stands there, and the mark is set when the register held no value. -/
theorem readStep_of_ok {n : Byte} {s : State} {v : PortValue} (h : readPort n s = .ok v) :
    readStep n s = .next (answerRead n v s) := by simp [readStep, h]

/-- A read the read port refuses refuses the step. -/
theorem readStep_of_error {n : Byte} {s : State} {r : Refusal} (h : readPort n s = .error r) :
    readStep n s = .refused r := by simp [readStep, h]

/-- Settles O60: `STATUS` and `RXDATA` by their numbers, the contexts by `readPort_ctx`, every other number by
`portRegister_reserved_iff`, and the step by `step_read`. -/
theorem readPortNumbers : Obligations.ReadPortNumbers := by
  intro s n
  refine ⟨⟨statusRead s, readPort_of_register rfl, statusBusy_statusRead s, statusOwned_statusRead s,
      statusReserved_statusRead s, statusAck_statusRead⟩,
    readPort_of_register rfl, fun x => ?_, (readPort_reserved_iff n s).trans (portRegister_reserved_iff n s), fun hheld => ?_,
    fun hguard => (readPort_ok_iff hguard).symm, fun hcfg hbusy hport hasked => ?_⟩
  · simp only [← asS16_eq_toInt]
    exact ⟨readPort_ctx (k := 0) (by decide) rfl, readPort_ctx (k := 1) (by decide) rfl,
      readPort_ctx (k := 2) (by decide) rfl, readPort_ctx (k := 3) (by decide) rfl, readPort_ctx (k := 4) (by decide) rfl,
      readPort_ctx (k := 5) (by decide) rfl, readPort_ctx (k := 6) (by decide) rfl⟩
  · obtain ⟨v, hv⟩ := portRegister_of_held hheld
    exact ⟨v, by simp [readPort_of_register hv, hheld]⟩
  · rw [step_read hcfg hbusy hport hasked]
    exact ⟨fun v hv => readStep_of_ok hv, fun r hr => readStep_of_error hr⟩

end Sys2Proof.Machine
end

section
/-! The register accesses as whole commands (rules R90 to R92): when they run, and in what state they finish or hang. -/

namespace Sys2Proof.Machine

open Sys2Proof.Safety

/-- A command that finishes leaves `BUSY` at 0 (rule R16). -/
theorem statusBusy_runCommand_done {i : Instr} {body : State → Ran} {s : State} (h : (body (accept i s)).done = true) :
    statusBusy (runCommand i body s).status = false := by
  simp [runCommand, h]

/-- A command that hangs leaves `BUSY` at 1 (rules R16, R163). -/
theorem statusBusy_runCommand_hung {i : Instr} {s : State} (h : (bodyOf i (accept i s)).done = false) :
    statusBusy (runCommand i (bodyOf i) s).status = true := by
  obtain ⟨j, l, -, -, -, -, -, hbusy⟩ := advanced_bodyOf i (accept i s)
  simpa [runCommand, h] using hbusy

/-- The environment after a command is the one its body leaves. -/
@[simp] theorem runCommand_env (i : Instr) (body : State → Ran) (s : State) :
    (runCommand i body s).env = (body (accept i s)).state.env := by
  obtain ⟨-, e⟩ | ⟨-, e⟩ := runCommand_cases i body s <;> rw [e]
  rfl

theorem isDeviceAddr_iff (d : Byte) : isDeviceAddr d = true ↔ d.getLsbD 0 = false := by
  rw [isDeviceAddr, Bool.not_eq_true']

/-- `WRITEREG` runs on a device address and an idle bus alone (rules R57, R90). -/
theorem exec_writereg_legal {d r v : Byte} {s t : State} (h : exec (.writereg d r v) s = .next t) :
    isDeviceAddr d = true ∧ s.phase = .idle := by
  simp only [exec, execWritereg, execComposite] at h
  split at h
  · split at h
    · exact ⟨‹_›, ‹_›⟩
    · cases h
  · cases h

/-- `READREG` runs on a device address and an idle bus alone (rules R57, R90). -/
theorem exec_readreg_legal {d r : Byte} {s t : State} (h : exec (.readreg d r) s = .next t) :
    isDeviceAddr d = true ∧ s.phase = .idle := by
  simp only [exec, execReadreg, execComposite] at h
  split at h
  · split at h
    · exact ⟨‹_›, ‹_›⟩
    · cases h
  · cases h

/-- `WRITEREG` with its five calls answered (rule R91). -/
theorem exec_writereg_answered {d r v : Byte} {s : State} {f : WriteReply} {e : Env} (hd : isDeviceAddr d = true)
    (hp : s.phase = .idle) (h : writeAnswers s.cfg d r v s.env = some (f, e)) :
    exec (.writereg d r v) s = .next (finish (writeFrameState d r v f e (accept (.writereg d r v) s))) := by
  have hrun := runCommand_done (writeFrame_answered (s := accept (.writereg d r v) s) hp hd h)
  simp [exec, execWritereg, execComposite, hd, hp, hrun]

/-- `READREG` with its seven calls answered (rule R92). -/
theorem exec_readreg_answered {d r : Byte} {s : State} {f : ReadReply} {e : Env} (hd : isDeviceAddr d = true)
    (hp : s.phase = .idle) (h : readAnswers s.cfg d r s.env = some (f, e)) :
    exec (.readreg d r) s = .next (finish (readFrameState d r f e (accept (.readreg d r) s))) := by
  have hrun := runCommand_done (readFrame_answered (s := accept (.readreg d r) s) hp hd h)
  simp [exec, execReadreg, execComposite, hd, hp, hrun]

/-- A `READREG` that finishes is one whose seven calls were answered (rules R92, R163). -/
theorem exec_readreg_finished {d r : Byte} {s t : State} (h : exec (.readreg d r) s = .next t)
    (hbusy : statusBusy t.status = false) :
    ∃ f e, t = finish (readFrameState d r f e (accept (.readreg d r) s)) := by
  obtain ⟨hd, hp⟩ := exec_readreg_legal h
  cases ha : readAnswers s.cfg d r s.env with
  | none =>
    have hhung := statusBusy_runCommand_hung (i := .readreg d r) (readFrame_unanswered (s := accept (.readreg d r) s) hp hd ha)
    rw [← exec_next h, hbusy] at hhung
    cases hhung
  | some a =>
    have hrun := h.symm.trans (exec_readreg_answered hd hp ha)
    injection hrun with ht
    exact ⟨a.1, a.2, ht⟩

end Sys2Proof.Machine
end

section
/-! The reference simulated peripheral, device by device (rule R36): what each call does to one device, and what the two frames
make of it. -/

namespace Sys2Proof.Machine

open Sys2Proof.Safety

/-! ### The calls -/

theorem sim_withSim (e : Env) (f : SimDevice → SimDevice) (j : CtxIx) :
    (e.withSim (f e.sim0) (f e.sim1)).sim j = f (e.sim j) := by
  match j with
  | 0 => rfl
  | 1 => rfl

/-- `SIM` answers a start, and a stop, by deselecting both devices. -/
theorem onStart_sim {e : Env} (hk : e.kind = .simulated) :
    ∃ e', e.onStart = some e' ∧ e'.kind = .simulated ∧ ∀ j, e'.sim j = simDeselect (e.sim j) :=
  ⟨_, onStart_simulated hk, hk, sim_withSim e simDeselect⟩

/-- `SIM` answers an address byte: a device that it selects acknowledges it. -/
theorem onSend_address_sim {e : Env} (hk : e.kind = .simulated) (c : Cfg) (b : Byte) :
    ∃ a e', e.onSend c .started b = some (a, e') ∧ e'.kind = .simulated
      ∧ (∀ j, e'.sim j = simAddress (devAddrOf c j) b (e.sim j)) ∧ ∀ j, simSelected (e'.sim j) = true → a = true := by
  refine ⟨_, _, onSend_simulated hk c .started b, hk, fun j => ?_, fun j hj => ?_⟩ <;>
    match j with
    | 0 => simp_all [devAddrOf]
    | 1 => simp_all [devAddrOf]

/-- `SIM` answers a data byte: a selected device acknowledges it. -/
theorem onSend_data_sim {e : Env} (hk : e.kind = .simulated) (c : Cfg) (b : Byte) :
    ∃ a e', e.onSend c .tx b = some (a, e') ∧ e'.kind = .simulated
      ∧ (∀ j, e'.sim j = simData c b (e.sim j)) ∧ ∀ j, simSelected (e.sim j) = true → a = true := by
  refine ⟨_, _, onSend_simulated hk c .tx b, hk, sim_withSim e (simData c b), fun j hj => ?_⟩
  match j with
  | 0 => simp_all
  | 1 => simp_all

/-- The byte `SIM` sends is the pointed register of the one device that is to send. -/
theorem simByte_of_one {e : Env} {j : CtxIx} (h : ∀ k, (e.sim k).sel = .rd ↔ k = j) :
    simByte e = Memory.read (e.sim j).regs (e.sim j).ptr.toNat := by
  have h0 := h 0
  have h1 := h 1
  match j with
  | 0 => simp_all [simByte]
  | 1 => simp_all [simByte]

/-! ### One device through a frame -/

/-- Only the direction bit tells `device|read` from the device's address (rules R51, R52). -/
@[simp] theorem addr7_addrRead (d : Byte) : addr7 (addrRead d) = addr7 d := by
  apply BitVec.eq_of_getLsbD_eq
  intro i hi
  interval_cases i <;> simp [addr7, addrRead]

/-- A device at the write address of a frame: its pointer is next when the frame is for it. -/
theorem simAddress_write {d : Byte} (hd : isDeviceAddr d = true) (own : Byte) (dev : SimDevice) :
    simAddress own (addrWrite d) (simDeselect dev) = { dev with sel := if addr7 d = addr7 own then .wrPtr else .off } := by
  have hwrite : directionRead d = false := by simpa using directionRead_addrWrite hd
  by_cases h : addr7 d = addr7 own <;> simp [simAddress, simDeselect, hwrite, h]

/-- A device at the register-address byte of a frame: it takes it when the frame is for it. -/
theorem simData_register {d : Byte} (hd : isDeviceAddr d = true) (c : Cfg) (own r : Byte) (dev : SimDevice) :
    simData c r (simAddress own (addrWrite d) (simDeselect dev)) =
      if addr7 d = addr7 own then { dev with ptr := r, sel := .wrData } else { dev with sel := .off } := by
  rw [simAddress_write hd]
  by_cases h : addr7 d = addr7 own <;> simp [simData, h]

/-- A device at the read address of a frame: it is to send when the frame is for it. -/
theorem simAddress_read (d own : Byte) (dev : SimDevice) :
    simAddress own (addrRead d) (simDeselect dev) = { dev with sel := if addr7 d = addr7 own then .rd else .off } := by
  by_cases h : addr7 d = addr7 own <;> simp [simAddress, simDeselect, h]

/-! ### The configured devices -/

theorem isDeviceAddr_devAddrOf {c : Cfg} (hc : cfgWellFormed c = true) (j : CtxIx) : isDeviceAddr (devAddrOf c j) = true := by
  simp only [cfgWellFormed, Bool.and_eq_true] at hc
  obtain ⟨⟨⟨⟨⟨⟨-, h0⟩, h1⟩, -⟩, -⟩, -⟩, -⟩ := hc
  match j with
  | 0 => exact h0
  | 1 => exact h1

theorem devAddrOf_injective {c : Cfg} (hc : cfgWellFormed c = true) {j k : CtxIx} (h : devAddrOf c j = devAddrOf c k) :
    j = k := by
  simp only [cfgWellFormed, Bool.and_eq_true, bne_iff_ne] at hc
  obtain ⟨⟨⟨⟨⟨⟨hne, -⟩, -⟩, -⟩, -⟩, -⟩, -⟩ := hc
  match j, k with
  | 0, 0 => rfl
  | 0, 1 => exact absurd h hne
  | 1, 0 => exact absurd h.symm hne
  | 1, 1 => rfl

/-- A device address is its seven bits (rules R51, R52). -/
theorem eq_of_addr7_eq {a b : Byte} (ha : isDeviceAddr a = true) (hb : isDeviceAddr b = true) (h : addr7 a = addr7 b) :
    a = b := by
  apply BitVec.eq_of_getLsbD_eq
  intro i hi
  cases i with
  | zero => rw [(isDeviceAddr_iff a).1 ha, (isDeviceAddr_iff b).1 hb]
  | succ i =>
    have hbit := congrArg (fun v => v.getLsbD i) h
    simp only [addr7, BitVec.getLsbD_extractLsb', show i < 7 by omega, decide_true, Bool.true_and] at hbit
    simpa only [Nat.add_comm 1 i] using hbit

/-- Two devices of a well-formed configuration do not hear each other's address (rule R6). -/
theorem addr7_devAddrOf_iff {c : Cfg} (hc : cfgWellFormed c = true) (j k : CtxIx) :
    addr7 (devAddrOf c j) = addr7 (devAddrOf c k) ↔ k = j := by
  constructor
  · intro h
    exact (devAddrOf_injective hc (eq_of_addr7_eq (isDeviceAddr_devAddrOf hc j) (isDeviceAddr_devAddrOf hc k) h)).symm
  · rintro rfl
    rfl

/-! ### The frames -/

/-- A write frame stores its byte in device `j`: the frame is for it, the register is the measurement-control register, and the
byte is no reset command (rule R36). -/
def FrameStores (c : Cfg) (d r v : Byte) (j : CtxIx) : Prop :=
  addr7 d = addr7 (devAddrOf c j) ∧ r = c.regCtrl ∧ (r = c.regReset → v ≠ Config.resetCmd)

/-- It is what the device does with the data byte, its pointer set by the frame. -/
theorem simStores_register {d : Byte} (hd : isDeviceAddr d = true) (c : Cfg) (r v : Byte) (j : CtxIx) (dev : SimDevice) :
    simStores c (simData c r (simAddress (devAddrOf c j) (addrWrite d) (simDeselect dev))) v = true ↔
      FrameStores c d r v j := by
  rw [simData_register hd, FrameStores]
  by_cases h : addr7 d = addr7 (devAddrOf c j) <;> simp [simStores, h, imp_iff_not_or, and_comm]

/-- `SIM` answers a write frame, and changes a register just where the frame stores its byte (rules R36, R53). -/
theorem writeAnswers_sim {e : Env} (hk : e.kind = .simulated) {d : Byte} (hd : isDeviceAddr d = true) (c : Cfg) (r v : Byte) :
    ∃ f e', writeAnswers c d r v e = some (f, e') ∧ e'.kind = .simulated
      ∧ ∀ j, (FrameStores c d r v j → (e'.sim j).regs = Memory.write (e.sim j).regs r.toNat v)
        ∧ (¬FrameStores c d r v j → (e'.sim j).regs = (e.sim j).regs) := by
  obtain ⟨e1, h1, k1, s1⟩ := onStart_sim hk
  obtain ⟨a1, e2, h2, k2, s2, -⟩ := onSend_address_sim k1 c (addrWrite d)
  obtain ⟨a2, e3, h3, k3, s3, -⟩ := onSend_data_sim k2 c r
  obtain ⟨a3, e4, h4, k4, s4, -⟩ := onSend_data_sim k3 c v
  obtain ⟨e5, h5, k5, s5⟩ := onStart_sim k4
  refine ⟨⟨a1, a2, a3⟩, e5, by simp only [writeAnswers, h1, h2, h3, h4, onStop_eq_onStart, h5], k5, fun j => ?_⟩
  rw [s5, s4, s3, s2, s1, simDeselect_regs, simData_regs]
  refine ⟨fun hst => ?_, fun hst => ?_⟩
  · rw [if_pos ((simStores_register hd ..).2 hst), simData_register hd, if_pos hst.1]
  · rw [if_neg (mt (simStores_register hd ..).1 hst), simData_register hd]
    split <;> rfl

/-- `SIM` answers a read frame of a device with the content of its register, and acknowledges every byte (rules R36, R54). -/
theorem readAnswers_sim {e : Env} (hk : e.kind = .simulated) {c : Cfg} (hc : cfgWellFormed c = true) (j : CtxIx) (r : Byte) :
    ∃ e', readAnswers c (devAddrOf c j) r e =
      some ({ a1 := true, a2 := true, a3 := true, byte := Memory.read (e.sim j).regs r.toNat }, e') := by
  have hd := isDeviceAddr_devAddrOf hc j
  obtain ⟨e1, h1, k1, s1⟩ := onStart_sim hk
  obtain ⟨a1, e2, h2, k2, s2, ack1⟩ := onSend_address_sim k1 c (addrWrite (devAddrOf c j))
  obtain ⟨a2, e3, h3, k3, s3, ack2⟩ := onSend_data_sim k2 c r
  obtain ⟨e4, h4, k4, s4⟩ := onStart_sim k3
  obtain ⟨a3, e5, h5, k5, s5, ack3⟩ := onSend_address_sim k4 c (addrRead (devAddrOf c j))
  have hselected : simSelected (e2.sim j) = true := by
    rw [s2, s1, simAddress_write hd]
    simp [simSelected]
  have hread : ∀ k, e5.sim k =
      { e.sim k with ptr := if k = j then r else (e.sim k).ptr, sel := if k = j then .rd else .off } := by
    intro k
    rw [s5, s4, simAddress_read, s3, s2, s1, simData_register hd]
    simp only [addr7_devAddrOf_iff hc]
    split <;> rfl
  have hbyte : simByte e5 = Memory.read (e.sim j).regs r.toNat := by
    rw [simByte_of_one (j := j) (by simp [hread]), hread]
    simp
  obtain rfl := ack1 j hselected
  obtain rfl := ack2 j hselected
  obtain rfl := ack3 j (by simp [hread, simSelected])
  have h6 := onRecv_simulated k5 false
  obtain ⟨e7, h7, -⟩ := onStart_sim (e := e5.withSim (simSent e5.sim0) (simSent e5.sim1)) k5
  exact ⟨e7, by simp only [readAnswers, h1, h2, h3, h4, h5, h6, onStop_eq_onStart, h7, hbyte]⟩

end Sys2Proof.Machine
end

section
/-! What the register accesses and the sensor reads leave unchanged (rules R36, R91, R92, R102, R111). -/

namespace Sys2Proof.Machine

open Sys2Proof.Safety

/-! ### The registers of the simulated devices -/

/-- No register of a simulated device has changed. -/
def SameRegs (s t : State) : Prop := ∀ j, (t.env.sim j).regs = (s.env.sim j).regs

theorem SameRegs.trans {a b c : State} (h : SameRegs a b) (g : SameRegs b c) : SameRegs a c :=
  fun j => (g j).trans (h j)

theorem SameRegs.deviceByte {s t : State} (h : SameRegs s t) (j : CtxIx) (q : Byte) :
    deviceByte t j q = deviceByte s j q := by
  rw [Machine.deviceByte, h j, Machine.deviceByte]

theorem sameRegs_start (s : State) : SameRegs s (phaseStart s).state := by
  obtain ⟨-, h⟩ | ⟨e, he, h⟩ := phaseStart_cases s <;> rw [h]
  · exact fun _ => rfl
  · exact onStart_regs he

theorem sameRegs_recv (k : Bool) (s : State) : SameRegs s (phaseRecv k s).state := by
  obtain ⟨-, h⟩ | ⟨b, e, he, h⟩ := phaseRecv_cases k s <;> rw [h]
  · exact fun _ => rfl
  · exact onRecv_regs he

theorem sameRegs_stop (s : State) : SameRegs s (phaseStop s).state := by
  obtain ⟨-, h⟩ | ⟨e, he, h⟩ := phaseStop_cases s <;> rw [h]
  · exact fun _ => rfl
  · exact onStart_regs he

/-- A byte sent changes no register when it is an address byte or no device is to store it (rule R36). -/
theorem sameRegs_send {b : Byte} {s : State}
    (hb : s.env.kind = .simulated → s.phase = .started ∨ ∀ j, (s.env.sim j).sel ≠ .wrData) :
    SameRegs s (phaseSend b s).state := by
  obtain ⟨-, h⟩ | ⟨a, e, he, h⟩ := phaseSend_cases b s <;> rw [h]
  · exact fun _ => rfl
  · refine fun j => (onSend_regs he j).trans (if_neg ?_)
    rintro ⟨hk, hp, hst⟩
    obtain hs | hsel := hb hk
    · exact hp hs
    · simp [simStores, hsel j] at hst

/-- Right after a start: the address byte is next, and no simulated device is selected. -/
def AfterStart (s : State) : Prop :=
  s.phase = .started ∧ (s.env.kind = .simulated → ∀ j, (s.env.sim j).sel = .off)

/-- No simulated device is to store the next byte. -/
def NoneStores (s : State) : Prop := s.env.kind = .simulated → ∀ j, (s.env.sim j).sel ≠ .wrData

theorem afterStart_start {s : State} (h : (phaseStart s).done = true) : AfterStart (phaseStart s).state := by
  obtain ⟨-, e⟩ | ⟨e', he, e⟩ := phaseStart_cases s <;> rw [e] at h ⊢
  · cases h
  · refine ⟨rfl, fun hk j => ?_⟩
    obtain ⟨e'', he', -, hsim⟩ := onStart_sim (e := s.env) ((onStart_kind he).symm.trans hk)
    obtain rfl : e' = e'' := Option.some.inj (he.symm.trans he')
    exact congrArg SimDevice.sel (hsim j)

theorem noneStores_send {b : Byte} {s : State} (hs : AfterStart s) : NoneStores (phaseSend b s).state := by
  obtain ⟨hp, hoff⟩ := hs
  obtain ⟨-, e⟩ | ⟨a, e', he, e⟩ := phaseSend_cases b s <;> rw [e]
  · intro hk j
    simp [hoff hk j]
  · intro hk j
    have hk : s.env.kind = .simulated := (onSend_kind he).symm.trans hk
    obtain ⟨a', e'', he', -, hsim, -⟩ := onSend_address_sim hk s.cfg b
    obtain ⟨rfl, rfl⟩ : a = a' ∧ e' = e'' := by simpa [hp, he'] using he.symm
    simp only [advance_env, hsim j, simAddress]
    split
    · split <;> simp
    · simp [hoff hk j]

/-- A read frame changes no register of a device: its one data byte is a register address (rules R36, R54). -/
theorem sameRegs_readFrame (d r : Byte) (s : State) : SameRegs s (readFrame d r s).state := by
  have hstart : ∀ t, SameRegs s t → SameRegs s (phaseStart t).state := fun t h => h.trans (sameRegs_start t)
  have haddr : ∀ b t, AfterStart t → SameRegs s t → SameRegs s (phaseSend b t).state :=
    fun b t ht h => h.trans (sameRegs_send fun _ => .inl ht.1)
  unfold readFrame
  refine andThen_inv (A := fun t => SameRegs s t ∧ AfterStart t) (fun _ => hstart _ fun _ => rfl)
    (fun h => ⟨hstart _ fun _ => rfl, afterStart_start h⟩) fun t ⟨h, ht⟩ => ?_
  refine andThen_inv (A := fun t => SameRegs s t ∧ NoneStores t) (fun _ => haddr _ t ht h)
    (fun _ => ⟨haddr _ t ht h, noneStores_send ht⟩) fun t ⟨h, ht⟩ => ?_
  have hreg : SameRegs s (phaseSend r t).state := h.trans (sameRegs_send fun hk => .inr (ht hk))
  refine andThen_inv (A := SameRegs s) (fun _ => hreg) (fun _ => hreg) fun t h => ?_
  refine andThen_inv (A := fun t => SameRegs s t ∧ AfterStart t) (fun _ => hstart t h)
    (fun hd => ⟨hstart t h, afterStart_start hd⟩) fun t ⟨h, ht⟩ => ?_
  refine andThen_inv (A := SameRegs s) (fun _ => haddr _ t ht h) (fun _ => haddr _ t ht h) fun t h => ?_
  have hrecv : SameRegs s (phaseRecv false t).state := h.trans (sameRegs_recv false t)
  exact andThen_inv (A := SameRegs s) (fun _ => hrecv) (fun _ => hrecv) fun t h => h.trans (sameRegs_stop t)

/-! ### The register accesses -/

theorem sameRest_accept (i : Instr) (s : State) : SameRest s (accept i s) :=
  ⟨rfl, rfl, rfl, rfl, rfl, by simp, rfl, rfl, rfl, rfl, rfl⟩

theorem sameRest_finish (s : State) : SameRest s (finish s) :=
  ⟨rfl, rfl, rfl, rfl, rfl, by simp, rfl, rfl, rfl, rfl, rfl⟩

theorem SameRest.envKind {s t : State} (h : SameRest s t) : t.env.kind = s.env.kind := by
  obtain ⟨-, -, -, -, -, -, hkind, -⟩ := h
  exact hkind

/-- What a read leaves unchanged: what no primitive writes, and every register of the devices. -/
def ReadKept (s t : State) : Prop := SameRest s t ∧ SameRegs s t

theorem ReadKept.trans {a b c : State} (h : ReadKept a b) (g : ReadKept b c) : ReadKept a c :=
  ⟨h.1.trans g.1, h.2.trans g.2⟩

theorem readKept_accept (i : Instr) (s : State) : ReadKept s (accept i s) := ⟨sameRest_accept i s, fun _ => rfl⟩

theorem readKept_finish (s : State) : ReadKept s (finish s) := ⟨sameRest_finish s, fun _ => rfl⟩

theorem readKept_readFrame (d r : Byte) (s : State) : ReadKept s (readFrame d r s).state :=
  ⟨kept_sameRest.read_frame d r s, sameRegs_readFrame d r s⟩

theorem exec_readreg_readKept {d r : Byte} {s t : State} (h : exec (.readreg d r) s = .next t) : ReadKept s t :=
  exec_rel (P := ReadKept) ReadKept.trans h (readKept_accept _ s) (readKept_readFrame d r _) readKept_finish

theorem exec_writereg_sameRest {d r v : Byte} {s t : State} (h : exec (.writereg d r v) s = .next t) : SameRest s t :=
  exec_rel (P := SameRest) SameRest.trans h (sameRest_accept _ s) (kept_sameRest.write_frame d r v _) sameRest_finish

/-- `RXDATA` and its mark stand. -/
def SameRx (s t : State) : Prop := t.rxdata = s.rxdata ∧ t.rxHeld = s.rxHeld

theorem SameRx.refl (s : State) : SameRx s s := ⟨rfl, rfl⟩

theorem SameRx.trans {a b c : State} (h : SameRx a b) (g : SameRx b c) : SameRx a c := ⟨g.1.trans h.1, g.2.trans h.2⟩

/-- A write frame receives nothing (rule R53). -/
theorem sameRx_writeFrame (d r v : Byte) (s : State) : SameRx s (writeFrame d r v s).state := by
  have hsend : ∀ b t, SameRx t (phaseSend b t).state := fun b t => by
    obtain ⟨-, h⟩ | ⟨a, e, -, h⟩ := phaseSend_cases b t <;> rw [h] <;> exact .refl t
  have hstart : ∀ t, SameRx t (phaseStart t).state := fun t => by
    obtain ⟨-, h⟩ | ⟨e, -, h⟩ := phaseStart_cases t <;> rw [h] <;> exact .refl t
  have hstop : ∀ t, SameRx t (phaseStop t).state := fun t => by
    obtain ⟨-, h⟩ | ⟨e, -, h⟩ := phaseStop_cases t <;> rw [h] <;> exact .refl t
  unfold writeFrame
  refine andThen_rel (P := SameRx) SameRx.trans (hstart _) fun _ => ?_
  refine andThen_rel (P := SameRx) SameRx.trans (hsend _ _) fun _ => ?_
  refine andThen_rel (P := SameRx) SameRx.trans (hsend _ _) fun _ => ?_
  exact andThen_rel (P := SameRx) SameRx.trans (hsend _ _) hstop

theorem exec_writereg_sameRx {d r v : Byte} {s t : State} (h : exec (.writereg d r v) s = .next t) : SameRx s t :=
  exec_rel (P := SameRx) SameRx.trans h (.refl s) (sameRx_writeFrame d r v _) .refl

/-- Where the environment is no `SIM`, no primitive changes a simulated device's register. -/
theorem kept_sameRegs_unconstrained :
    Kept fun s t => s.env.kind = .unconstrained → t.env.kind = .unconstrained ∧ SameRegs s t where
  refl _ hk := ⟨hk, fun _ => rfl⟩
  trans h g hk := by
    obtain ⟨hk', hs⟩ := h hk
    exact ⟨(g hk').1, hs.trans (g hk').2⟩
  start s hk := ⟨(kept_sameRest.start s).envKind.trans hk, sameRegs_start s⟩
  send b s hk := ⟨(kept_sameRest.send b s).envKind.trans hk, sameRegs_send fun h => by simp [hk] at h⟩
  recv k s hk := ⟨(kept_sameRest.recv k s).envKind.trans hk, sameRegs_recv k s⟩
  stop s hk := ⟨(kept_sameRest.stop s).envKind.trans hk, sameRegs_stop s⟩

/-- `WRITEREG` under `SIM` finishes, and changes a register just where its frame stores its byte (rules R36, R91). -/
theorem exec_writereg_sim {d r v : Byte} {s : State} (hd : isDeviceAddr d = true) (hp : s.phase = .idle)
    (hk : s.env.kind = .simulated) :
    ∃ t, exec (.writereg d r v) s = .next t ∧ t.phase = .idle
      ∧ ∀ j, (FrameStores s.cfg d r v j → (t.env.sim j).regs = Memory.write (s.env.sim j).regs r.toNat v)
        ∧ (¬FrameStores s.cfg d r v j → (t.env.sim j).regs = (s.env.sim j).regs) := by
  obtain ⟨f, e, ha, -, hregs⟩ := writeAnswers_sim hk hd s.cfg r v
  exact ⟨_, exec_writereg_answered hd hp ha, rfl, hregs⟩

/-- A register of a device stands through a `WRITEREG` unless it is the measurement-control register, of the device addressed, and
the register written (rule R36). -/
theorem exec_writereg_deviceByte {d r v : Byte} {s t : State} (h : exec (.writereg d r v) s = .next t) (hm : MemInv s)
    {j : CtxIx} {q : Byte} (hq : ¬(addr7 d = addr7 (devAddrOf s.cfg j) ∧ q = r ∧ r = s.cfg.regCtrl)) :
    deviceByte t j q = deviceByte s j q := by
  obtain ⟨hd, hp⟩ := exec_writereg_legal h
  cases hk : s.env.kind with
  | unconstrained =>
    have hsame : SameRegs s t := by
      intro j
      rw [exec_next h, runCommand_env]
      exact (kept_sameRegs_unconstrained.write_frame d r v (accept _ s) hk).2 j
    exact hsame.deviceByte j q
  | simulated =>
    obtain ⟨t', h', -, hregs⟩ := exec_writereg_sim (r := r) (v := v) hd hp hk
    obtain rfl : t = t' := by injection h.symm.trans h'
    by_cases hst : FrameStores s.cfg d r v j
    · have hne : q.toNat ≠ r.toNat := fun heq => hq ⟨hst.1, BitVec.eq_of_toNat_eq heq, hst.2.1⟩
      rw [deviceByte, (hregs j).1 hst, Memory.read_write (Memory.rising_of_wf (hm j)), if_neg hne, deviceByte]
    · rw [deviceByte, (hregs j).2 hst, deviceByte]

/-- Settles O44: no primitive writes the rest of the state (`kept_sameRest`), a write frame receives nothing, its one data byte
past the register address is stored as `SIM` says, and a read frame stores none (`sameRegs_readFrame`). -/
theorem frameOfRegisterAccess : Obligations.FrameOfRegisterAccess := by
  refine fun s t d r v => ⟨fun h => ?_, fun h => ?_⟩
  · obtain ⟨hcfg, hctx0, hctx1, hport, hsession, hres, -, hguard, huse, hasked, hanswer⟩ := exec_writereg_sameRest h
    obtain ⟨hrx, hheld⟩ := exec_writereg_sameRx h
    exact ⟨hcfg, hctx0, hctx1, hport, hsession, hres, hguard, huse, hasked, hanswer, hrx, hheld,
      fun hm j q hq => exec_writereg_deviceByte h hm hq⟩
  · obtain ⟨⟨hcfg, hctx0, hctx1, hport, hsession, hres, -, hguard, huse, hasked, hanswer⟩, hregs⟩ :=
      exec_readreg_readKept h
    exact ⟨hcfg, hctx0, hctx1, hport, hsession, hres, hguard, huse, hasked, hanswer, hregs.deviceByte⟩

/-! ### The sensor reads -/

/-- A body that reads and then writes context `x` as `C` says: it hangs before that write, or makes it at the end; and what a read
leaves unchanged stands up to there. -/
def ReadsThenWrites (x : CtxIx) (C : Context → Context → Prop) (s : State) (r : Ran) : Prop :=
  (r.done = false ∧ ReadKept s r.state)
    ∨ (r.done = true ∧ ∃ u c, ReadKept s u ∧ C (u.ctx x) c ∧ r.state = u.setCtx x c)

theorem readsThenWrites_readThen {x : CtxIx} {C : Context → Context → Prop} (d r : Byte) (s : State)
    {f : Byte → State → Ran} (hf : ∀ b t, ReadsThenWrites x C t (f b t)) : ReadsThenWrites x C s (readThen d r s f) := by
  have hframe := readKept_readFrame d r s
  obtain ⟨hhung, e⟩ | ⟨-, e⟩ := andThen_cases (readFrame d r s) fun t => f t.rxdata t <;> rw [readThen, e]
  · exact .inl ⟨hhung, hframe⟩
  · obtain ⟨hhung, hkept⟩ | ⟨hdone, u, c, hkept, hw⟩ := hf (readFrame d r s).state.rxdata (readFrame d r s).state
    · exact .inl ⟨hhung, hframe.trans hkept⟩
    · exact .inr ⟨hdone, u, c, hframe.trans hkept, hw⟩

theorem readsThenWrites_setCtx {x : CtxIx} {C : Context → Context → Prop} {s : State} {c : Context} (h : C (s.ctx x) c) :
    ReadsThenWrites x C s { state := s.setCtx x c, done := true } :=
  .inr ⟨rfl, s, c, ⟨.refl s, fun _ => rfl⟩, h, rfl⟩

/-- What `LOADCAL` writes in its context (rule R102). -/
def TripleWritten (c c' : Context) : Prop :=
  ∃ t1 t2 t3, c' = { c with t1 := t1, t2 := t2, t3 := t3, held := { c.held with t1 := true, t2 := true, t3 := true } }

/-- What `READRAW` writes in its context (rule R111). -/
def RawWritten (c c' : Context) : Prop := ∃ v, c' = { c with raw := v, held := { c.held with raw := true } }

theorem readsThenWrites_loadCal (x : CtxIx) (s : State) : ReadsThenWrites x TripleWritten s (loadCalBody x s) := by
  unfold loadCalBody
  refine readsThenWrites_readThen _ _ _ fun _ _ => ?_
  refine readsThenWrites_readThen _ _ _ fun _ _ => ?_
  refine readsThenWrites_readThen _ _ _ fun _ _ => ?_
  refine readsThenWrites_readThen _ _ _ fun _ _ => ?_
  refine readsThenWrites_readThen _ _ _ fun _ _ => ?_
  exact readsThenWrites_readThen _ _ _ fun _ _ => readsThenWrites_setCtx ⟨_, _, _, rfl⟩

theorem readsThenWrites_readRaw (x : CtxIx) (s : State) : ReadsThenWrites x RawWritten s (readRawBody x s) := by
  unfold readRawBody
  refine readsThenWrites_readThen _ _ _ fun _ _ => ?_
  refine readsThenWrites_readThen _ _ _ fun _ _ => ?_
  exact readsThenWrites_readThen _ _ _ fun _ _ => readsThenWrites_setCtx ⟨_, rfl⟩

/-- A sensor read that hangs keeps what its frames keep; one that finishes does so too, but for its context, written as `C`
says. -/
theorem exec_readsThenWrites {x : CtxIx} {C : Context → Context → Prop} {i : Instr} {s t : State} (h : exec i s = .next t)
    (hbody : ReadsThenWrites x C (accept i s) (bodyOf i (accept i s))) :
    ReadKept s t ∨ (statusBusy t.status = false ∧ ∃ u c, ReadKept s u ∧ C (u.ctx x) c ∧ t = finish (u.setCtx x c)) := by
  rw [exec_next h]
  obtain ⟨hdone, e⟩ | ⟨hhung, e⟩ := runCommand_cases i (bodyOf i) s <;> rw [e]
  · obtain ⟨hhung, -⟩ | ⟨-, u, c, hkept, hc, hw⟩ := hbody
    · simp [hdone] at hhung
    · exact .inr ⟨by simp, u, c, (readKept_accept i s).trans hkept, hc, by rw [hw]⟩
  · obtain ⟨-, hkept⟩ | ⟨hdone, -⟩ := hbody
    · exact .inl ((readKept_accept i s).trans hkept)
    · simp [hhung] at hdone

/-- The state but for the bus and context `x`, and that context as the command left it: whole, or written as `C` says by a command
that finished. -/
def SensorKept (x : CtxIx) (C : Context → Context → Prop) (s t : State) : Prop :=
  t.cfg = s.cfg ∧ (∀ y, y ≠ x → t.ctx y = s.ctx y) ∧ t.port = s.port ∧ t.session = s.session
    ∧ statusReserved t.status = statusReserved s.status ∧ t.guarded = s.guarded ∧ t.unwrittenUse = s.unwrittenUse
    ∧ t.readAsked = s.readAsked ∧ t.readAnswer = s.readAnswer
    ∧ (t.ctx x = s.ctx x ∨ (statusBusy t.status = false ∧ C (s.ctx x) (t.ctx x)))
    ∧ ∀ (j : CtxIx) (q : Byte), deviceByte t j q = deviceByte s j q

theorem exec_sensorKept {x : CtxIx} {C : Context → Context → Prop} {i : Instr} {s t : State} (h : exec i s = .next t)
    (hbody : ReadsThenWrites x C (accept i s) (bodyOf i (accept i s))) : SensorKept x C s t := by
  obtain ⟨hrest, hregs⟩ | ⟨hbusy, u, c, ⟨hrest, hregs⟩, hc, rfl⟩ := exec_readsThenWrites h hbody
  · have hctx := hrest.ctx
    obtain ⟨hcfg, -, -, hport, hsession, hres, -, hguard, huse, hasked, hanswer⟩ := hrest
    exact ⟨hcfg, fun y _ => hctx y, hport, hsession, hres, hguard, huse, hasked, hanswer, .inl (hctx x), hregs.deviceByte⟩
  · have hctx := hrest.ctx
    obtain ⟨hcfg, -, -, hport, hsession, hres, -, hguard, huse, hasked, hanswer⟩ := hrest
    exact ⟨by simpa using hcfg, fun y hy => by simpa [ctx_setCtx_ne _ _ _ _ hy] using hctx y, by simpa using hport,
      by simpa using hsession, by simpa using hres, by simpa using hguard, by simpa using huse, by simpa using hasked,
      by simpa using hanswer, .inr ⟨hbusy, by simpa [hctx] using hc⟩,
      fun j q => by simpa [deviceByte] using hregs.deviceByte j q⟩

/-- Settles O45: what the reads keep stands, and the triple or `RAW` and their marks are written by a command that finishes alone
(`exec_sensorKept`). -/
theorem frameOfSensorReads : Obligations.FrameOfSensorReads := by
  refine fun s t x y hy => ⟨fun h => ?_, fun h => ?_⟩
  · obtain ⟨hcfg, hother, hport, hsession, hres, hguard, huse, hasked, hanswer, hctx, hbyte⟩ :=
      exec_sensorKept h (readsThenWrites_loadCal x _)
    refine ⟨hcfg, hother y hy, hport, hsession, hres, hguard, huse, hasked, hanswer, ?_⟩
    obtain hc | ⟨hbusy, t1, t2, t3, hc⟩ := hctx <;> rw [hc]
    · exact ⟨rfl, rfl, rfl, rfl, rfl, rfl, rfl, fun _ => rfl, hbyte⟩
    · exact ⟨rfl, rfl, rfl, rfl, rfl, rfl, rfl, fun hb => by simp [hbusy] at hb, hbyte⟩
  · obtain ⟨hcfg, hother, hport, hsession, hres, hguard, huse, hasked, hanswer, hctx, hbyte⟩ :=
      exec_sensorKept h (readsThenWrites_readRaw x _)
    refine ⟨hcfg, hother y hy, hport, hsession, hres, hguard, huse, hasked, hanswer, ?_⟩
    obtain hc | ⟨hbusy, v, hc⟩ := hctx <;> rw [hc]
    · exact ⟨rfl, rfl, rfl, rfl, rfl, rfl, rfl, fun _ => rfl, hbyte⟩
    · exact ⟨rfl, rfl, rfl, rfl, rfl, rfl, rfl, fun hb => by simp [hbusy] at hb, hbyte⟩

end Sys2Proof.Machine
end

section
/-! `READREG` and `WRITEREG` under the reference simulated peripheral (rule R36; no claim about the hardware). -/

namespace Sys2Proof.Machine

open Sys2Proof.Safety

/-- Settles O51: `SIM`'s answers to the read frame (`readAnswers_sim`) are the byte and the acks, and no read stores
(`sameRegs_readFrame`). -/
theorem simulatedReadReturnsTheRegister : Obligations.SimulatedReadReturnsTheRegister := by
  intro s j r hc hk hp d
  obtain ⟨e, ha⟩ := readAnswers_sim hk hc j r
  have hexec := exec_readreg_answered (isDeviceAddr_devAddrOf hc j) hp ha
  have hevents : readEvents d r ⟨true, true, true, deviceByte s j r⟩
      = [.s, .w d true, .w r true, .sr, .w (d ||| 0x01#8) true, .r (deviceByte s j r) false, .p] := by
    simp [readEvents]
  exact ⟨_, hexec, rfl, congrArg (s.trace ++ ·) hevents, (exec_readreg_readKept hexec).2.deviceByte⟩

/-- Settles O52: the byte is stored (`exec_writereg_sim`), O51 reads it back, and `exec_writereg_deviceByte` says what the write
leaves unchanged, since no two devices share an address (`addr7_devAddrOf_iff`). -/
theorem simulatedWriteIsReadBack : Obligations.SimulatedWriteIsReadBack := by
  intro s j v hc hne hk hp hm d
  obtain ⟨t, hwrite, htp, hregs⟩ := exec_writereg_sim (r := s.cfg.regCtrl) (v := v) (isDeviceAddr_devAddrOf hc j) hp hk
  have hrest := exec_writereg_sameRest hwrite
  have hcfg : t.cfg = s.cfg := hrest.1
  obtain ⟨u, hread, hbyte, -, -⟩ :=
    simulatedReadReturnsTheRegister t j s.cfg.regCtrl (hcfg ▸ hc) (hrest.envKind.trans hk) htp
  rw [hcfg] at hread
  have hstores : FrameStores s.cfg d s.cfg.regCtrl v j := ⟨rfl, rfl, fun heq => absurd heq.symm hne⟩
  have hstored : deviceByte t j s.cfg.regCtrl = v := by
    rw [deviceByte, (hregs j).1 hstores, Memory.read_write (Memory.rising_of_wf (hm j)), if_pos rfl]
  refine ⟨t, u, hwrite, hread, hbyte.trans hstored, fun k q hkq => ?_⟩
  exact exec_writereg_deviceByte hwrite hm fun ⟨haddr, hq, _⟩ => hkq ⟨(addr7_devAddrOf_iff hc j k).1 haddr, hq⟩

end Sys2Proof.Machine
end
section
/-! The premises on the bus (rules R34, R35): a responsive bus answers every call, a present device is read, and a torn read is
admitted. -/

namespace Sys2Proof.Machine

open Sys2Proof.Safety

/-! ### Responsive -/

/-- Under `Responsive` every call is answered and the premise goes on holding (rule R34). -/
theorem onStart_responsive {e : Env} (h : Responsive e) : ∃ e', e.onStart = some e' ∧ Responsive e' := by
  cases hk : e.kind with
  | unconstrained =>
    obtain ⟨hc, ht⟩ := responsive_taken h hk
    exact ⟨e.taken, by simp [onStart_unconstrained hk, hc], ht⟩
  | simulated => exact ⟨_, onStart_simulated hk, .inl hk⟩

theorem onSend_responsive {e : Env} (h : Responsive e) (c : Cfg) (p : Phase) (b : Byte) :
    ∃ a e', e.onSend c p b = some (a, e') ∧ Responsive e' := by
  cases hk : e.kind with
  | unconstrained =>
    obtain ⟨hc, ht⟩ := responsive_taken h hk
    exact ⟨e.reply.ack, e.taken, by simp [onSend_unconstrained hk, hc], ht⟩
  | simulated => exact ⟨_, _, onSend_simulated hk c p b, .inl ((simSend_kind c p b e).trans hk)⟩

theorem onRecv_responsive {e : Env} (h : Responsive e) (k : Bool) : ∃ b e', e.onRecv k = some (b, e') ∧ Responsive e' := by
  cases hk : e.kind with
  | unconstrained =>
    obtain ⟨hc, ht⟩ := responsive_taken h hk
    exact ⟨e.reply.byte, e.taken, by simp [onRecv_unconstrained hk, hc], ht⟩
  | simulated => exact ⟨_, _, onRecv_simulated hk k, .inl hk⟩

/-- On a responsive bus a part of a command completes and leaves the bus responsive. -/
def Completes (s : State) (r : Ran) : Prop := Responsive s.env → r.done = true ∧ Responsive r.state.env

theorem completes_start (s : State) : Completes s (phaseStart s) := by
  intro h
  obtain ⟨e, he, hr⟩ := onStart_responsive h
  simpa [phaseStart, he] using hr

theorem completes_send (b : Byte) (s : State) : Completes s (phaseSend b s) := by
  intro h
  obtain ⟨a, e, he, hr⟩ := onSend_responsive h s.cfg s.phase b
  simpa [phaseSend, he] using hr

theorem completes_recv (k : Bool) (s : State) : Completes s (phaseRecv k s) := by
  intro h
  obtain ⟨b, e, he, hr⟩ := onRecv_responsive h k
  simpa [phaseRecv, he] using hr

theorem completes_stop (s : State) : Completes s (phaseStop s) := by
  intro h
  obtain ⟨e, he, hr⟩ := onStart_responsive h
  simpa [phaseStop, onStop_eq_onStart, he] using hr

/-- Parts that complete make a whole that does. -/
theorem Completes.andThen {s : State} {r : Ran} {f : State → Ran} (h : Completes s r) (hf : ∀ t, Completes t (f t)) :
    Completes s (r.andThen f) := by
  intro hs
  obtain ⟨hdone, hresp⟩ := h hs
  obtain ⟨hhung, -⟩ | ⟨-, e⟩ := andThen_cases r f
  · simp [hdone] at hhung
  · rw [e]
    exact hf _ hresp

theorem completes_writeFrame (d r v : Byte) (s : State) : Completes s (writeFrame d r v s) :=
  (completes_start s).andThen fun _ => (completes_send _ _).andThen fun _ => (completes_send _ _).andThen fun _ =>
    (completes_send _ _).andThen completes_stop

theorem completes_readFrame (d r : Byte) (s : State) : Completes s (readFrame d r s) :=
  (completes_start s).andThen fun _ => (completes_send _ _).andThen fun _ => (completes_send _ _).andThen fun _ =>
    (completes_start _).andThen fun _ => (completes_send _ _).andThen fun _ => (completes_recv _ _).andThen completes_stop

theorem completes_readThen (d r : Byte) (s : State) {f : Byte → State → Ran} (hf : ∀ b t, Completes t (f b t)) :
    Completes s (readThen d r s f) :=
  (completes_readFrame d r s).andThen fun t => hf t.rxdata t

/-- The write at the end of a sensor read asks the bus nothing. -/
theorem completes_of_env {s t : State} (h : t.env = s.env) : Completes s { state := t, done := true } :=
  fun hs => ⟨rfl, h ▸ hs⟩

theorem completes_bodyOf (i : Instr) (s : State) : Completes s (bodyOf i s) := by
  cases i with
  | start => exact completes_start s
  | sendbyte b => exact completes_send b s
  | recvbyte k => exact completes_recv k s
  | stop => exact completes_stop s
  | writereg d r v => exact completes_writeFrame d r v s
  | readreg d r => exact completes_readFrame d r s
  | loadcal x =>
    exact completes_readThen _ _ _ fun _ _ => completes_readThen _ _ _ fun _ _ => completes_readThen _ _ _ fun _ _ =>
      completes_readThen _ _ _ fun _ _ => completes_readThen _ _ _ fun _ _ => completes_readThen _ _ _ fun _ _ =>
        completes_of_env (by simp)
  | readraw x =>
    exact completes_readThen _ _ _ fun _ _ => completes_readThen _ _ _ fun _ _ => completes_readThen _ _ _ fun _ _ =>
      completes_of_env (by simp)
  | compensate x => exact completes_of_env (by simp)
  | addrW a7 => exact completes_send _ s
  | addrR a7 => exact completes_send _ s

/-- Settles O49: every part of every command completes on a responsive bus (`completes_bodyOf`), so the command finishes. -/
theorem responsiveBusNeverHangs : Obligations.ResponsiveBusNeverHangs := by
  intro i s t hs h
  obtain ⟨hdone, hresp⟩ := completes_bodyOf i (accept i s) hs
  rw [exec_next h]
  exact ⟨statusBusy_runCommand_done hdone, by simpa using hresp⟩

/-! ### Present -/

/-- A present device, followed through the seven events of a read frame of one of its registers: it is addressed and
acknowledges, its pointer takes the register address and outlives the repeated start, and the byte of event 5 is what that
register then holds (rules R34, R54). -/
theorem present_readEvents {d r : Byte} {content : Nat → Byte → Byte} {f : ReadReply} (hd : isDeviceAddr d = true)
    (h : Present d content 0 Watch.fresh (readEvents d r f)) :
    f.a1 = true ∧ f.a2 = true ∧ f.a3 = true ∧ f.byte = content 5 r := by
  have hwrite : directionRead d = false := by simpa using directionRead_addrWrite hd
  have hread : directionRead (d ||| 1#8) = true := directionRead_addrRead d
  have haddr : addr7 (d ||| 1#8) = addr7 d := addr7_addrRead d
  simpa [readEvents, Present, presentAnswer, watchNext, Watch.fresh, hwrite, hread, haddr] using h

/-- Settles O25: a `READREG` that finishes has the events, the byte and the last ack of one read frame. -/
theorem presentDeviceIsRead : Obligations.PresentDeviceIsRead := by
  intro s t d r content hd h hbusy hpresent
  obtain ⟨f, e, rfl⟩ := exec_readreg_finished h hbusy
  have hevents : (s.trace ++ readEvents d r f).drop s.trace.length = readEvents d r f := List.drop_left
  obtain ⟨-, -, hack, hbyte⟩ := present_readEvents (f := f) ((isDeviceAddr_iff d).2 hd) (hevents ▸ hpresent)
  exact ⟨hbyte, by simpa [readFrameState] using hack⟩

/-! ### Torn reads -/

/-- The answers that give one read frame the byte `b`: the like answer to each of its seven calls. -/
def frameScript (b : Byte) : List Reply := List.replicate 7 { completes := true, ack := true, byte := b }

/-- A script that begins so answers a read frame, and the rest of it is left for what follows (rules R33, R54; log 3). -/
theorem readAnswers_frameScript {e : Env} {b : Byte} {rest : List Reply} (hk : e.kind = .unconstrained)
    (hs : e.script = frameScript b ++ rest) (c : Cfg) (d r : Byte) :
    ∃ e', readAnswers c d r e = some ({ a1 := true, a2 := true, a3 := true, byte := b }, e')
      ∧ e'.kind = .unconstrained ∧ e'.script = rest := by
  obtain ⟨kind, script, draws, sim0, sim1⟩ := e
  subst hk hs
  exact ⟨⟨.unconstrained, rest, draws + 7, sim0, sim1⟩, rfl, rfl, rfl⟩

/-- `READRAW`'s three frames, each answered (rule R111). -/
theorem readRawBody_answered {s : State} {x : CtxIx} {f1 f2 f3 : ReadReply} {e1 e2 e3 : Env}
    (hd : isDeviceAddr (s.ctx x).devaddr = true) (hp : s.phase = .idle)
    (h1 : readAnswers s.cfg (s.ctx x).devaddr s.cfg.regTemp s.env = some (f1, e1))
    (h2 : readAnswers s.cfg (s.ctx x).devaddr (regPlus s.cfg.regTemp 1) e1 = some (f2, e2))
    (h3 : readAnswers s.cfg (s.ctx x).devaddr (regPlus s.cfg.regTemp 2) e2 = some (f3, e3)) :
    readRawBody x s =
      { state := writeRaw x (raw20 f1.byte f2.byte f3.byte)
          (readFrameState (s.ctx x).devaddr (regPlus s.cfg.regTemp 2) f3 e3
            (readFrameState (s.ctx x).devaddr (regPlus s.cfg.regTemp 1) f2 e2
              (readFrameState (s.ctx x).devaddr s.cfg.regTemp f1 e1 s)))
        done := true } := by
  unfold readRawBody
  refine (readThen_answered hp hd h1).trans ?_
  refine (readThen_answered rfl hd h2).trans ?_
  exact readThen_answered rfl hd h3

/-- `raw20` as a bit string: the low nibble of the extra byte has no place in it (rule R112). -/
theorem raw20_eq_append (msb lsb extra : Byte) : raw20 msb lsb extra = msb ++ lsb ++ extra.extractLsb' 4 4 := by
  apply BitVec.eq_of_getLsbD_eq
  intro i hi
  rw [BitVec.getLsbD_append, BitVec.getLsbD_append]
  interval_cases i <;> simp [raw20]

/-- Three such scripts, one after the other, make `READRAW` assemble their three bytes (rules R35, R111). -/
theorem readRawBody_frameScripts {s : State} {x : CtxIx} {msb lsb extra : Byte} {rest : List Reply}
    (hd : isDeviceAddr (s.ctx x).devaddr = true) (hp : s.phase = .idle) (hk : s.env.kind = .unconstrained)
    (hs : s.env.script = frameScript msb ++ (frameScript lsb ++ (frameScript extra ++ rest))) :
    ∃ u, readRawBody x s = { state := writeRaw x (msb ++ lsb ++ extra.extractLsb' 4 4) u, done := true } := by
  obtain ⟨e1, h1, hk1, hs1⟩ := readAnswers_frameScript hk hs s.cfg (s.ctx x).devaddr s.cfg.regTemp
  obtain ⟨e2, h2, hk2, hs2⟩ := readAnswers_frameScript hk1 hs1 s.cfg (s.ctx x).devaddr (regPlus s.cfg.regTemp 1)
  obtain ⟨e3, h3, -, -⟩ := readAnswers_frameScript hk2 hs2 s.cfg (s.ctx x).devaddr (regPlus s.cfg.regTemp 2)
  rw [readRawBody_answered hd hp h1 h2 h3, raw20_eq_append]
  exact ⟨_, rfl⟩

/-- Settles O28: the script that gives each of the three frames the byte asked for (`readRawBody_frameScripts`). -/
theorem anyThreeBytesCanBeRead : Obligations.AnyThreeBytesCanBeRead := by
  intro s x msb lsb extra hd hp
  obtain ⟨u, hu⟩ := readRawBody_frameScripts (x := x) (rest := [])
    (s := accept (.readraw x) { s with env := { s.env with
      kind := .unconstrained
      script := frameScript msb ++ (frameScript lsb ++ (frameScript extra ++ [])) } })
    ((isDeviceAddr_iff _).2 hd) hp rfl rfl
  exact ⟨_, _, (if_pos hp).trans (congrArg _ (runCommand_done hu)), by simp, by simp [writeRaw_ctx]⟩

end Sys2Proof.Machine
end

section
/-! The decoder against the encoder and the opcode table (rules R51, R55 to R57, R59): what a word decodes to, and which words
decode to nothing. -/

namespace Sys2Proof

open Sys2Proof.Machine

/-! ### Decoder and encoder -/

/-- Settles O1: a command word is given back its fields (`decode_commandWord`), so each row's own check is all that is left; the
address bytes are `decodeWire_write` and `decodeWire_read`. -/
theorem encodedInstructionDecodesBack : Obligations.EncodedInstructionDecodesBack := by
  intro i hi
  cases i with
  | start | stop => exact decode_commandWord _ 0 0 0
  | sendbyte b => exact decode_commandWord _ 0 0 b
  | recvbyte k => exact (decode_commandWord _ 0 0 _).trans (by cases k <;> rfl)
  | writereg d r v => exact (decode_commandWord _ d r v).trans (if_pos hi)
  | readreg d r => exact (decode_commandWord _ d r 0).trans (if_pos hi)
  | loadcal x | readraw x | compensate x => exact (decode_commandWord _ 0 0 _).trans (by revert x; decide)
  | addrW a7 => exact congrArg Except.ok (decodeWire_write a7)
  | addrR a7 => exact congrArg Except.ok (decodeWire_read a7)

/-- A command word decodes just where `Z` is 0 and its other fields are read (rule R57). -/
theorem decode_cw_ok_iff (w : BitVec 32) (i : Instr) :
    decode (.cw w) = .ok i ↔ fieldZ w = 0 ∧ decodeFields (fieldOp w) (fieldA w) (fieldB w) (fieldC w) = .ok i := by
  show decodeCommand w = .ok i ↔ _
  unfold decodeCommand
  split
  · exact (and_iff_right ‹_›).symm
  · exact iff_of_false nofun fun h => ‹¬_› h.1

/-- Fields that are read are those the encoder writes, row by row (rule R56). -/
theorem encode_of_decodeFields {op : BitVec 4} {a b c : Byte} {i : Instr} (h : decodeFields op a b c = .ok i) :
    encode i = .cw (commandWord op a b c) ∧ i.wellFormed = true := by
  obtain ⟨rfl, rfl, rfl, rfl, rfl⟩ | ⟨rfl, rfl, rfl, rfl⟩ | ⟨k, rfl, rfl, rfl, rfl, rfl⟩ | ⟨rfl, rfl, rfl, rfl, rfl⟩
    | ⟨rfl, ha, rfl⟩ | ⟨rfl, rfl, ha, rfl⟩ | ⟨k, rfl, rfl, rfl, rfl, rfl⟩ | ⟨k, rfl, rfl, rfl, rfl, rfl⟩
    | ⟨k, rfl, rfl, rfl, rfl, rfl⟩ := decodeFields_ok h
  all_goals simp [encode, Instr.wellFormed, *]

/-- Settles O2: a command word is its fields (`commandWord_fields`), which are those encoded; an address byte loses no bit
(`encode_decodeWire`). -/
theorem decodedWordEncodesBack : Obligations.DecodedWordEncodesBack := by
  intro p i h
  cases p with
  | cw w =>
    obtain ⟨hz, hf⟩ := (decode_cw_ok_iff w i).1 h
    have he := encode_of_decodeFields hf
    rwa [commandWord_fields hz] at he
  | wire b =>
    obtain rfl : decodeWire b = i := by simpa [decode] using h
    refine ⟨encode_decodeWire b, ?_⟩
    unfold decodeWire
    split <;> rfl

/-- Decoding and encoding are inverse on well-formed instructions (O1, O2). -/
theorem decode_ok_iff (p : PortWord) (i : Instr) : decode p = .ok i ↔ encode i = p ∧ i.wellFormed = true :=
  ⟨decodedWordEncodesBack p i, fun ⟨hp, hi⟩ => hp ▸ encodedInstructionDecodesBack i hi⟩

/-! ### Words by their fields -/

/-- Two command words are the same when their fields are (rule R55). -/
theorem word_ext_iff (v w : BitVec 32) : v = w ↔
    fieldOp v = fieldOp w ∧ fieldZ v = fieldZ w ∧ fieldA v = fieldA w ∧ fieldB v = fieldB w ∧ fieldC v = fieldC w := by
  simp only [← BitVec.toNat_inj, fieldOp_toNat, fieldZ_toNat, fieldA_toNat, fieldB_toNat, fieldC_toNat]
  omega

/-- The word written from fields is the one that has them, with `Z = 0`. -/
theorem commandWord_eq_iff (op : BitVec 4) (a b c : Byte) (w : BitVec 32) : commandWord op a b c = w ↔
    fieldOp w = op ∧ fieldZ w = 0 ∧ fieldA w = a ∧ fieldB w = b ∧ fieldC w = c := by
  rw [eq_comm]
  simp [word_ext_iff]

/-- A mask and match of the opcode table, field by field. -/
theorem mask_iff (w m v : BitVec 32) : w &&& m = v ↔
    fieldOp w &&& fieldOp m = fieldOp v ∧ fieldZ w &&& fieldZ m = fieldZ v ∧ fieldA w &&& fieldA m = fieldA v
      ∧ fieldB w &&& fieldB m = fieldB v ∧ fieldC w &&& fieldC m = fieldC v := by
  simp [word_ext_iff, fieldOp, fieldZ, fieldA, fieldB, fieldC, BitVec.extractLsb'_and]

/-- The masks of the opcode table in one field: the whole of it; all but the one-bit operand of `C`; and bit 0 alone, which a
device operand has clear and which is the direction of an address byte (rules R51, R56, R57). -/
theorem and_0xF (x : BitVec 4) : x &&& 0xF#4 = x := BitVec.and_allOnes
theorem and_0xFF (x : Byte) : x &&& 0xFF#8 = x := BitVec.and_allOnes
theorem and_0xFE_eq_zero_iff : ∀ x : Byte, x &&& 0xFE#8 = 0#8 ↔ x = 0#8 ∨ x = 1#8 := by decide
theorem and_0x01_eq_zero_iff : ∀ x : Byte, x &&& 0x01#8 = 0#8 ↔ x.getLsbD 0 = false := by decide
theorem and_0x01_eq_one_iff : ∀ x : Byte, x &&& 0x01#8 = 1#8 ↔ x.getLsbD 0 = true := by decide

/-- Bit 0 of an address byte alone decides its direction (rule R51). -/
theorem decode_wire_addrW_iff (b : Byte) : (∃ a7, decode (.wire b) = .ok (.addrW a7)) ↔ b.getLsbD 0 = false := by
  cases h : b[0] <;> simp [decode, decodeWire, h]

theorem decode_wire_addrR_iff (b : Byte) : (∃ a7, decode (.wire b) = .ok (.addrR a7)) ↔ b.getLsbD 0 = true := by
  cases h : b[0] <;> simp [decode, decodeWire, h]

/-- Settles O4: for a command word both sides are conditions on its five fields, by `mask_iff` and, the decoder being the
encoder's inverse (`decode_ok_iff`), by `commandWord_eq_iff`; for an address byte, on its direction. -/
theorem opcodeTableRowsDecode : Obligations.OpcodeTableRowsDecode := by
  intro w b
  refine ⟨?_, ?_, ?_, ?_, ?_, ?_, ?_, ?_, ?_, (and_0x01_eq_zero_iff b).trans (decode_wire_addrW_iff b).symm,
    (and_0x01_eq_one_iff b).trans (decode_wire_addrR_iff b).symm⟩
  all_goals
    simp [decode_ok_iff, encode, commandWord_eq_iff, Instr.wellFormed, isDeviceAddr, byteOfBit, byteOfCtx, mask_iff, and_0xF,
      and_0xFF, and_0xFE_eq_zero_iff, and_0x01_eq_zero_iff, fieldOp, fieldZ, fieldA, fieldB, fieldC, and_assoc,
      and_comm, and_left_comm]

/-! ### Reserved words -/

/-- The unions of fields rule R57 speaks of: `A`, `B` and `C`; `A` and `B`; and all of them but `C[0]`, the one-bit operand. -/
theorem extract_abc_eq_zero_iff (w : BitVec 32) : w.extractLsb' 0 24 = 0 ↔ fieldA w = 0 ∧ fieldB w = 0 ∧ fieldC w = 0 := by
  simp only [← BitVec.toNat_inj, fieldA_toNat, fieldB_toNat, fieldC_toNat, BitVec.extractLsb'_toNat,
    Nat.shiftRight_eq_div_pow, BitVec.ofNat_eq_ofNat, BitVec.toNat_ofNat]
  omega

theorem extract_ab_eq_zero_iff (w : BitVec 32) : w.extractLsb' 8 16 = 0 ↔ fieldA w = 0 ∧ fieldB w = 0 := by
  simp only [← BitVec.toNat_inj, fieldA_toNat, fieldB_toNat, BitVec.extractLsb'_toNat,
    Nat.shiftRight_eq_div_pow, BitVec.ofNat_eq_ofNat, BitVec.toNat_ofNat]
  omega

theorem extract_above_bit_eq_zero_iff (w : BitVec 32) : w.extractLsb' 1 23 = 0 ↔
    fieldA w = 0 ∧ fieldB w = 0 ∧ (fieldC w = 0 ∨ fieldC w = 1) := by
  simp only [← BitVec.toNat_inj, fieldA_toNat, fieldB_toNat, fieldC_toNat, BitVec.extractLsb'_toNat,
    Nat.shiftRight_eq_div_pow, BitVec.ofNat_eq_ofNat, BitVec.toNat_ofNat]
  omega

theorem fieldA_odd_iff (w : BitVec 32) : isDeviceAddr (fieldA w) = false ↔ w.getLsbD 16 = true := by
  simp [isDeviceAddr, fieldA]

/-- A word that is not refused is read, and the other way round. -/
theorem exists_error_iff (x : Except Reserved Instr) : (∃ why, x = .error why) ↔ ¬ ∃ i, x = .ok i := by
  cases x <;> simp

theorem byteOfBit_eq_zero_or_one (k : Bool) : byteOfBit k = 0#8 ∨ byteOfBit k = 1#8 := by cases k <;> decide

/-- The fields that are read (rule R56): one of the nine opcodes, and in its row zero where the table shows 0 and an even device
operand. -/
theorem decodeFields_ok_iff (op : BitVec 4) (a b c : Byte) : (∃ i, decodeFields op a b c = .ok i) ↔
    ((op = 1 ∨ op = 4) ∧ a = 0 ∧ b = 0 ∧ c = 0)
    ∨ (op = 2 ∧ a = 0 ∧ b = 0)
    ∨ ((op = 3 ∨ op = 7 ∨ op = 8 ∨ op = 9) ∧ a = 0 ∧ b = 0 ∧ (c = 0 ∨ c = 1))
    ∨ (op = 5 ∧ isDeviceAddr a = true)
    ∨ (op = 6 ∧ c = 0 ∧ isDeviceAddr a = true) := by
  constructor
  · rintro ⟨i, h⟩
    obtain h | h | ⟨k, h⟩ | h | h | h | ⟨k, h⟩ | ⟨k, h⟩ | ⟨k, h⟩ := decodeFields_ok h <;> simp [h, byteOfBit_eq_zero_or_one]
  · rintro (h | h | h | h | h)
    · obtain ⟨rfl | rfl, rfl, rfl, rfl⟩ := h <;> exact ⟨_, rfl⟩
    · obtain ⟨rfl, rfl, rfl⟩ := h
      exact ⟨_, rfl⟩
    · obtain ⟨rfl | rfl | rfl | rfl, rfl, rfl, rfl | rfl⟩ := h <;> exact ⟨_, rfl⟩
    · obtain ⟨rfl, ha⟩ := h
      exact ⟨_, if_pos ha⟩
    · obtain ⟨rfl, rfl, ha⟩ := h
      exact ⟨_, if_pos ha⟩

/-- The opcodes: those of rule R57 and the nine of rule R56. -/
theorem opcode_cases (op : BitVec 4) : 0xA ≤ op.toNat ∨ op = 0 ∨ op = 1 ∨ op = 2 ∨ op = 3 ∨ op = 4 ∨ op = 5 ∨ op = 6 ∨ op = 7
    ∨ op = 8 ∨ op = 9 := by bv_omega

/-- The fields that are reserved, opcode by opcode (rule R57). -/
theorem decodeFields_error_iff (op : BitVec 4) (a b c : Byte) : (∃ why, decodeFields op a b c = .error why) ↔
    op = 0 ∨ 0xA ≤ op.toNat
    ∨ ((op = 1 ∨ op = 4) ∧ ¬ (a = 0 ∧ b = 0 ∧ c = 0))
    ∨ (op = 2 ∧ ¬ (a = 0 ∧ b = 0))
    ∨ ((op = 3 ∨ 7 ≤ op.toNat) ∧ ¬ (a = 0 ∧ b = 0 ∧ (c = 0 ∨ c = 1)))
    ∨ ((op = 5 ∨ op = 6) ∧ isDeviceAddr a = false)
    ∨ (op = 6 ∧ ¬ c = 0) := by
  rw [exists_error_iff, decodeFields_ok_iff]
  obtain h | rfl | rfl | rfl | rfl | rfl | rfl | rfl | rfl | rfl | rfl := opcode_cases op
  · have hne (k : BitVec 4) (hk : k.toNat < 0xA) : op ≠ k := by rintro rfl; omega
    simp [h, hne]
  all_goals simp [imp_iff_or_not]

/-- Settles O3: the parts of the word the statement names are fields or unions of fields, and those are reserved just as
`decodeFields_error_iff` says; a step decodes the word before it runs anything. -/
theorem reservedWordsAreRefused : Obligations.ReservedWordsAreRefused := by
  intro w
  constructor
  · have hz : (∃ why, decode (.cw w) = .error why) ↔
        ¬ fieldZ w = 0 ∨ ∃ why, decodeFields (fieldOp w) (fieldA w) (fieldB w) (fieldC w) = .error why := by
      simp only [exists_error_iff, decode_cw_ok_iff, exists_and_left, not_and_or]
    rw [hz, decodeFields_error_iff]
    simp only [ne_eq, extract_abc_eq_zero_iff, extract_ab_eq_zero_iff, extract_above_bit_eq_zero_iff, ← fieldA_odd_iff]
    exact or_left_comm.trans (or_congr_right or_left_comm)
  · intro s why hcfg hbusy hport hdec
    simp [step, hcfg, hbusy, hport, hdec]

/-! ### Fixed words -/

/-- Settles O5: ten command words and two address bytes, decoded. -/
theorem wordsOfTheVectorsDecode : Obligations.WordsOfTheVectorsDecode := by
  unfold Obligations.WordsOfTheVectorsDecode
  decide

end Sys2Proof
end

section
/-! Commands on their way and finished: the state a register access finishes in (rules R91, R92), and a command the host issues
(rules R55, R61). -/

namespace Sys2Proof.Machine

open Sys2Proof.Safety

/-- Where `BUSY`, `ACK` and `OWNED` stand after a frame that has run and finished: each as it was written last. -/
theorem status_finished (v : BitVec 8) (a : Bool) :
    setBusy (setOwned (setAck (setBusy v true) a) false) false = setOwned (setAck (setBusy v false) a) false := by
  apply status_ext <;> simp

/-- Settles O22: the state `exec_readreg_answered` names, its `STATUS` and its events written out. -/
theorem readregCompletes : Obligations.ReadregCompletes := by
  intro s d r f e hd hp ha
  rw [exec_readreg_answered ((isDeviceAddr_iff d).2 hd) hp ha]
  simp [finish, readFrameState, readEvents, accept, status_finished, hp]

/-- Settles O21: the state `exec_writereg_answered` names, its `STATUS` and its events written out. -/
theorem writeregCompletes : Obligations.WriteregCompletes := by
  intro s d r v f e hd hp ha
  rw [exec_writereg_answered ((isDeviceAddr_iff d).2 hd) hp ha]
  simp [finish, writeFrameState, writeEvents, accept, status_finished, hp]

/-- A step of an idle block with a decodable word at its port takes the word and runs it (rules R55, R61). -/
theorem step_word {s : State} {p : PortWord} {i : Instr} (hc : cfgWellFormed s.cfg = true) (hb : statusBusy s.status = false)
    (hp : s.port = some p) (hd : decode p = .ok i) : step s = exec i { s with port := none } := by
  simp [step, hc, hb, hp, hd]

/-- A command the host has come to is issued: the host goes on and its word stands at the port (log 12). -/
theorem hostStep_issue {s : State} {i : Instr} (hrun : s.session.running = true)
    (hact : (hostProgram s)[s.session.pc]? = some (.issue i)) :
    hostStep s = .next { s with session := nextAct s.session, port := some (encode i) } := by
  simp [hostStep, hrun, hact, afterAct, readsHeld, numberRead, sessionAct, offeredBy]

/-- Settles O57: the host's step puts the word on the port, where the next step finds it, and O1 says what it decodes to. -/
theorem issuedCommandRunsNext : Obligations.IssuedCommandRunsNext := by
  intro s i hc hb hp hasked hrun hact hi
  refine ⟨_, (step_host hc hb hp hasked).trans (hostStep_issue hrun hact), rfl, rfl, rfl, rfl, rfl, ?_⟩
  exact step_word hc hb rfl (encodedInstructionDecodesBack i hi)

end Sys2Proof.Machine
end

section
/-! The four hand-issued bus primitives and the address bytes (rules R70 to R76): the state a completed one leaves, the state one
that is never answered leaves, and what stands through either. -/

namespace Sys2Proof.Machine

open Sys2Proof.Safety

/-! ### The cells of the table of rule R71 -/

theorem startLegal_iff (p : Phase) : startLegal p = true ↔ p = .idle ∨ p = .tx ∨ p = .rxend := by
  simp [startLegal, or_assoc]

theorem sendLegal_iff (p : Phase) : sendLegal p = true ↔ p = .started ∨ p = .tx := by simp [sendLegal]

theorem recvLegal_iff (p : Phase) : recvLegal p = true ↔ p = .rx := by simp [recvLegal]

theorem stopLegal_iff (p : Phase) : stopLegal p = true ↔ p = .tx ∨ p = .rxend := by simp [stopLegal]

/-! A hand-issued primitive runs in a cell that is not empty (rule R71), but for a `SIM` with no answer (rule R36). -/

theorem exec_start {s : State} (hp : s.phase = .idle ∨ s.phase = .tx ∨ s.phase = .rxend) :
    exec .start s = .next (runCommand .start phaseStart s) :=
  if_pos ((startLegal_iff _).2 hp)

theorem exec_sendbyte {s : State} {b : Byte} (hp : s.phase = .started ∨ s.phase = .tx)
    (hr : s.env.refusesSend s.phase = false) :
    exec (.sendbyte b) s = .next (runCommand (.sendbyte b) (phaseSend b) s) :=
  (if_pos ((sendLegal_iff _).2 hp)).trans (if_neg (by simp [hr]))

theorem exec_recvbyte {s : State} {k : Bool} (hp : s.phase = .rx) (hr : s.env.refusesRecv = false) :
    exec (.recvbyte k) s = .next (runCommand (.recvbyte k) (phaseRecv k) s) :=
  (if_pos ((recvLegal_iff _).2 hp)).trans (if_neg (by simp [hr]))

theorem exec_stop {s : State} (hp : s.phase = .tx ∨ s.phase = .rxend) :
    exec .stop s = .next (runCommand .stop phaseStop s) :=
  if_pos ((stopLegal_iff _).2 hp)

/-- An empty cell is refused (rules R71, R166). -/
theorem exec_illegalPhase {i : Instr} {s : State} (h : specRefusal i s = some .illegalPhase) :
    exec i s = .refused .illegalPhase :=
  exec_of_specRefusal h nofun

/-! ### Completed, or never answered -/

/-- A write of `BUSY` commutes with the write of another field (rule R16). -/
theorem setBusy_setOwned (v : BitVec 8) (o b : Bool) : setBusy (setOwned v o) b = setOwned (setBusy v b) o := by
  apply status_ext <;> simp

theorem setBusy_setAck (v : BitVec 8) (a b : Bool) : setBusy (setAck v a) b = setAck (setBusy v b) a := by
  apply status_ext <;> simp

/-- The state after a completed `START` (rule R72), the environment gone on to `e`. -/
def startedState (e : Env) (s : State) : State :=
  { s with
    env := e
    trace := s.trace ++ [if s.phase = .idle then .s else .sr]
    phase := .started
    status := setOwned (setBusy s.status false) true
    seq := none }

/-- The state after a byte sent and its ack bit sampled (rule R73). -/
def sentState (b : Byte) (a : Bool) (e : Env) (s : State) : State :=
  { s with
    env := e
    trace := s.trace ++ [.w b a]
    phase := phaseAfterSend s.phase b
    status := setAck (setBusy s.status false) a
    ackHeld := true
    seq := none }

/-- The state after a byte received (rule R74). -/
def receivedState (k : Bool) (b : Byte) (e : Env) (s : State) : State :=
  { s with
    env := e
    trace := s.trace ++ [.r b k]
    phase := if k then .rx else .rxend
    rxdata := b
    rxHeld := true
    status := setBusy s.status false
    seq := none }

/-- The state after a completed `STOP` (rule R75). -/
def stoppedState (e : Env) (s : State) : State :=
  { s with
    env := e
    trace := s.trace ++ [.p]
    phase := .idle
    status := setOwned (setBusy s.status false) false
    seq := none }

/-! A primitive as a whole command `i` (a hand-issued one or an address byte): answered, it finishes in the state above; never
answered, it stays where it was accepted (rule R70). -/

theorem runCommand_start_answered (i : Instr) {s : State} {e : Env} (h : s.env.onStart = some e) :
    runCommand i phaseStart s = startedState e s := by
  by_cases hp : s.phase = .idle <;>
    simp [runCommand, phaseStart, h, finish, advance, accept, startedState, setBusy_setOwned, hp]

theorem runCommand_start_unanswered (i : Instr) {s : State} (h : s.env.onStart = none) :
    runCommand i phaseStart s = accept i s := by
  simp [runCommand, phaseStart, h]

theorem runCommand_send_answered (i : Instr) {b : Byte} {s : State} {a : Bool} {e : Env}
    (h : s.env.onSend s.cfg s.phase b = some (a, e)) : runCommand i (phaseSend b) s = sentState b a e s := by
  simp [runCommand, phaseSend, h, finish, advance, accept, sentState, setBusy_setAck]

theorem runCommand_send_unanswered (i : Instr) {b : Byte} {s : State} (h : s.env.onSend s.cfg s.phase b = none) :
    runCommand i (phaseSend b) s = accept i s := by
  simp [runCommand, phaseSend, h]

theorem runCommand_recv_answered (i : Instr) {k : Bool} {s : State} {b : Byte} {e : Env} (h : s.env.onRecv k = some (b, e)) :
    runCommand i (phaseRecv k) s = receivedState k b e s := by
  simp [runCommand, phaseRecv, h, finish, advance, accept, receivedState]

theorem runCommand_recv_unanswered (i : Instr) {k : Bool} {s : State} (h : s.env.onRecv k = none) :
    runCommand i (phaseRecv k) s = accept i s := by
  simp [runCommand, phaseRecv, h]

theorem runCommand_stop_answered (i : Instr) {s : State} {e : Env} (h : s.env.onStop = some e) :
    runCommand i phaseStop s = stoppedState e s := by
  simp [runCommand, phaseStop, h, finish, advance, accept, stoppedState, setBusy_setOwned]

theorem runCommand_stop_unanswered (i : Instr) {s : State} (h : s.env.onStop = none) :
    runCommand i phaseStop s = accept i s := by
  simp [runCommand, phaseStop, h]

/-! ### The obligations on a primitive that completes, and on one that hangs -/

/-- Settles O14: the state is `startedState`. -/
theorem startCompletes : Obligations.StartCompletes := by
  intro s e hp he
  rw [exec_start hp, runCommand_start_answered _ he, startedState]

/-- Where a byte may be sent, `PHASE` after it is the direction's in `STARTED` and `TX` in `TX` (rules R71, R73). -/
theorem phaseAfterSend_legal {p : Phase} (hp : p = .started ∨ p = .tx) (b : Byte) :
    phaseAfterSend p b = if p = .started then (if b.getLsbD 0 then .rx else .tx) else .tx := by
  obtain rfl | rfl := hp <;> rfl

/-- Settles O15: the state is `sentState`, its `PHASE` written out by `phaseAfterSend_legal`. -/
theorem sendbyteCompletes : Obligations.SendbyteCompletes := by
  intro s b a e hp hr he
  rw [exec_sendbyte hp hr, runCommand_send_answered _ he, sentState, phaseAfterSend_legal hp]

/-- Settles O16: the state is `receivedState`. -/
theorem recvbyteCompletes : Obligations.RecvbyteCompletes := by
  intro s k b e hp hr he
  rw [exec_recvbyte hp hr, runCommand_recv_answered _ he, receivedState]

/-- Settles O17: the state is `stoppedState`. -/
theorem stopCompletes : Obligations.StopCompletes := by
  intro s e hp he
  rw [exec_stop hp, runCommand_stop_answered _ he, stoppedState]

/-- `SIM` answers every call (rule R36), so one never answered is a call of the unconstrained environment, which refuses none. -/
theorem refusesSend_of_unanswered {e : Env} {c : Cfg} {p : Phase} {b : Byte} (h : e.onSend c p b = none) :
    e.refusesSend p = false := by
  cases hk : e.kind with
  | unconstrained => simp [Env.refusesSend, hk]
  | simulated => simp [onSend_simulated hk] at h

theorem refusesRecv_of_unanswered {e : Env} {k : Bool} (h : e.onRecv k = none) : e.refusesRecv = false := by
  cases hk : e.kind with
  | unconstrained => simp [Env.refusesRecv, hk]
  | simulated => simp [onRecv_simulated hk] at h

/-- Settles O20: a primitive never answered stays where it was accepted, and acceptance writes `BUSY` and `SEQ` alone. -/
theorem unansweredPrimitiveHangs : Obligations.UnansweredPrimitiveHangs := by
  intro s
  refine ⟨fun hp hn => ?_, fun b hp hn => ?_, fun k hp hn => ?_, fun hp hn => ?_⟩
  · rw [exec_start hp, runCommand_start_unanswered _ hn, accept]
  · rw [exec_sendbyte hp (refusesSend_of_unanswered hn), runCommand_send_unanswered _ hn, accept]
  · rw [exec_recvbyte hp (refusesRecv_of_unanswered hn), runCommand_recv_unanswered _ hn, accept]
  · rw [exec_stop hp, runCommand_stop_unanswered _ hn, accept]

/-! ### The table of rule R71 -/

/-! A primitive in a cell that is not empty hangs with `BUSY` at 1, or completes as the cell says. -/

theorem start_cell {s : State} (hp : s.phase = .idle ∨ s.phase = .tx ∨ s.phase = .rxend) :
    ∃ t, exec .start s = .next t ∧ (statusBusy t.status = false → t.phase = .started
      ∧ t.trace = s.trace ++ [if s.phase = .idle then .s else .sr]) := by
  refine ⟨_, exec_start hp, ?_⟩
  cases he : s.env.onStart with
  | none => simp [runCommand_start_unanswered _ he]
  | some e => simp [runCommand_start_answered _ he, startedState]

theorem sendbyte_cell {s : State} {b : Byte} (hp : s.phase = .started ∨ s.phase = .tx)
    (hr : s.env.refusesSend s.phase = false) :
    ∃ t, exec (.sendbyte b) s = .next t ∧ (statusBusy t.status = false →
      (t.phase = if s.phase = .tx then .tx else if b.getLsbD 0 then .rx else .tx) ∧ ∃ a, t.trace = s.trace ++ [.w b a]) := by
  refine ⟨_, exec_sendbyte hp hr, ?_⟩
  cases he : s.env.onSend s.cfg s.phase b with
  | none => simp [runCommand_send_unanswered _ he]
  | some x =>
    rw [runCommand_send_answered _ he]
    refine fun _ => ⟨?_, x.1, rfl⟩
    obtain h | h := hp <;> simp [sentState, h, phaseAfterSend_started, directionRead]

theorem recvbyte_cell {s : State} {k : Bool} (hp : s.phase = .rx) (hr : s.env.refusesRecv = false) :
    ∃ t, exec (.recvbyte k) s = .next t ∧ (statusBusy t.status = false →
      (t.phase = if k then .rx else .rxend) ∧ ∃ b, t.trace = s.trace ++ [.r b k]) := by
  refine ⟨_, exec_recvbyte hp hr, ?_⟩
  cases he : s.env.onRecv k with
  | none => simp [runCommand_recv_unanswered _ he]
  | some x =>
    rw [runCommand_recv_answered _ he]
    exact fun _ => ⟨rfl, x.1, rfl⟩

theorem stop_cell {s : State} (hp : s.phase = .tx ∨ s.phase = .rxend) :
    ∃ t, exec .stop s = .next t ∧ (statusBusy t.status = false → t.phase = .idle ∧ t.trace = s.trace ++ [.p]) := by
  refine ⟨_, exec_stop hp, ?_⟩
  cases he : s.env.onStop with
  | none => simp [runCommand_stop_unanswered _ he]
  | some e => simp [runCommand_stop_answered _ he, stoppedState]

/-- Settles O19: an empty cell is one the spec refuses, and each other column of the table is a lemma above. -/
theorem phaseTableIsKept : Obligations.PhaseTableIsKept := by
  intro s
  refine ⟨fun hp => exec_illegalPhase ?_, fun b hp => exec_illegalPhase ?_, fun k hp => exec_illegalPhase ?_,
    fun hp => exec_illegalPhase ?_, start_cell, fun _ => sendbyte_cell, fun _ => recvbyte_cell, stop_cell⟩
  · obtain h | h := hp <;> simp [specRefusal, h, startLegal]
  · obtain h | h | h := hp <;> simp [specRefusal, h, sendLegal]
  · obtain h | h | h | h := hp <;> simp [specRefusal, h, recvLegal]
  · obtain h | h | h := hp <;> simp [specRefusal, h, stopLegal]

/-! ### Frames -/

/-- `STATUS.ACK` and its mark stand. -/
def SameAck (s t : State) : Prop := statusAck t.status = statusAck s.status ∧ t.ackHeld = s.ackHeld

/-- A start writes neither `RXDATA`, nor `ACK`, nor a register of a device (rules R36, R72). -/
theorem start_frame (i : Instr) (s : State) :
    SameRx s (runCommand i phaseStart s) ∧ SameAck s (runCommand i phaseStart s) ∧ SameRegs s (runCommand i phaseStart s) := by
  cases he : s.env.onStart with
  | none =>
    rw [runCommand_start_unanswered i he]
    exact ⟨.refl s, ⟨statusAck_setBusy _ _, rfl⟩, fun _ => rfl⟩
  | some e =>
    rw [runCommand_start_answered i he]
    exact ⟨.refl s, ⟨by simp [startedState], rfl⟩, onStart_regs he⟩

/-- A stop writes neither `RXDATA`, nor `ACK`, nor a register of a device (rules R36, R75). -/
theorem stop_frame (i : Instr) (s : State) :
    SameRx s (runCommand i phaseStop s) ∧ SameAck s (runCommand i phaseStop s) ∧ SameRegs s (runCommand i phaseStop s) := by
  cases he : s.env.onStop with
  | none =>
    rw [runCommand_stop_unanswered i he]
    exact ⟨.refl s, ⟨statusAck_setBusy _ _, rfl⟩, fun _ => rfl⟩
  | some e =>
    rw [runCommand_stop_answered i he]
    exact ⟨.refl s, ⟨by simp [stoppedState], rfl⟩, onStart_regs he⟩

/-- A byte received writes neither `ACK`, nor `OWNED`, nor a register of a device (rules R36, R74). -/
theorem recv_frame (i : Instr) (k : Bool) (s : State) :
    SameAck s (runCommand i (phaseRecv k) s) ∧ statusOwned (runCommand i (phaseRecv k) s).status = statusOwned s.status
      ∧ SameRegs s (runCommand i (phaseRecv k) s) := by
  cases he : s.env.onRecv k with
  | none =>
    rw [runCommand_recv_unanswered i he]
    exact ⟨⟨statusAck_setBusy _ _, rfl⟩, statusOwned_setBusy _ _, fun _ => rfl⟩
  | some x =>
    rw [runCommand_recv_answered i he]
    exact ⟨⟨statusAck_setBusy _ _, rfl⟩, statusOwned_setBusy _ _, onRecv_regs he⟩

/-- A byte sent writes neither `RXDATA` nor `OWNED` (rule R73). -/
theorem send_frame (i : Instr) (b : Byte) (s : State) :
    SameRx s (runCommand i (phaseSend b) s)
      ∧ statusOwned (runCommand i (phaseSend b) s).status = statusOwned s.status := by
  cases he : s.env.onSend s.cfg s.phase b with
  | none =>
    rw [runCommand_send_unanswered i he]
    exact ⟨.refl s, statusOwned_setBusy _ _⟩
  | some x =>
    rw [runCommand_send_answered i he]
    exact ⟨.refl s, by simp [sentState]⟩

/-- A byte sent is stored by a simulated device in a data phase alone, and at the register its pointer names (rule R36). -/
theorem deviceByte_send (i : Instr) {b : Byte} {s : State} (hm : MemInv s) {j : CtxIx} {r : Byte}
    (hr : s.env.kind = .simulated → s.phase ≠ .started → simStores s.cfg (s.env.sim j) b = true → r ≠ (s.env.sim j).ptr) :
    deviceByte (runCommand i (phaseSend b) s) j r = deviceByte s j r := by
  cases he : s.env.onSend s.cfg s.phase b with
  | none => rw [runCommand_send_unanswered i he]; rfl
  | some x =>
    rw [runCommand_send_answered i he, deviceByte, sentState, onSend_regs he j]
    split
    case isTrue h =>
      obtain ⟨hk, hp, hst⟩ := h
      have hne : r.toNat ≠ (s.env.sim j).ptr.toNat := fun heq => hr hk hp hst (BitVec.eq_of_toNat_eq heq)
      rw [Memory.read_write (Memory.rising_of_wf (hm j)), if_neg hne, deviceByte]
    case isFalse => rfl

/-- What no primitive writes stands through a hand-issued primitive and an address byte (rules R72 to R75). -/
theorem exec_primitive_sameRest {i : Instr} {s t : State} (h : exec i s = .next t)
    (hi : ∃ b k a7, i = .start ∨ i = .sendbyte b ∨ i = .recvbyte k ∨ i = .stop ∨ i = .addrW a7 ∨ i = .addrR a7) :
    SameRest s t := by
  refine exec_rel (P := SameRest) SameRest.trans h (sameRest_accept i s) ?_ sameRest_finish
  obtain ⟨b, k, a7, rfl | rfl | rfl | rfl | rfl | rfl⟩ := hi
  · exact kept_sameRest.start _
  · exact kept_sameRest.send b _
  · exact kept_sameRest.recv k _
  · exact kept_sameRest.stop _
  · exact kept_sameRest.send _ _
  · exact kept_sameRest.send _ _

/-- A byte is sent by hand in `STARTED` and `TX` alone (rules R71, R73). -/
theorem exec_sendbyte_legal {b : Byte} {s t : State} (h : exec (.sendbyte b) s = .next t) :
    s.phase = .started ∨ s.phase = .tx := by
  have hl := exec_next_legal h
  exact (sendLegal_iff _).1 (by simpa [specRefusal] using hl)

/-- An address byte is sent in `STARTED` alone (rule R51). -/
theorem exec_address_legal {i : Instr} {a7 : BitVec 7} {s t : State} (h : exec i s = .next t)
    (hi : i = .addrW a7 ∨ i = .addrR a7) : s.phase = .started := by
  have hl := exec_next_legal h
  obtain rfl | rfl := hi <;> simpa [specRefusal] using hl

/-- Settles O43: what no primitive writes stands (`exec_primitive_sameRest`), and the rest is the frame of each primitive; a data
byte is sent in `TX`, an address byte in `STARTED`, where nothing is stored. -/
theorem frameOfPrimitives : Obligations.FrameOfPrimitives := by
  intro i s t h hi
  obtain ⟨hcfg, hctx0, hctx1, hport, hsession, hres, -, hguard, huse, hasked, hanswer⟩ := exec_primitive_sameRest h hi
  refine ⟨hcfg, hctx0, hctx1, hport, hsession, hres, hguard, huse, hasked, hanswer, ?_⟩
  obtain rfl := exec_next h
  have haddress : ∀ a7, i = .addrW a7 ∨ i = .addrR a7 → s.phase = .started := fun _ => exec_address_legal h
  obtain ⟨b, k, a7, rfl | rfl | rfl | rfl | rfl | rfl⟩ := hi
  · obtain ⟨hrx, hack, hregs⟩ := start_frame .start s
    exact ⟨fun _ => hrx, fun _ => hack, fun hne => absurd rfl hne, fun _ j r _ => hregs.deviceByte j r⟩
  · obtain ⟨hrx, howned⟩ := send_frame (.sendbyte b) b s
    refine ⟨fun _ => hrx, by simp, fun _ _ => howned, fun hm j r hr => deviceByte_send _ hm fun hk hp => ?_⟩
    exact hr b rfl hk ((exec_sendbyte_legal h).resolve_left hp)
  · obtain ⟨hack, howned, hregs⟩ := recv_frame (.recvbyte k) k s
    exact ⟨fun hne => absurd rfl (hne k), fun _ => hack, fun _ _ => howned, fun _ j r _ => hregs.deviceByte j r⟩
  · obtain ⟨hrx, hack, hregs⟩ := stop_frame .stop s
    exact ⟨fun _ => hrx, fun _ => hack, fun _ hne => absurd rfl hne, fun _ j r _ => hregs.deviceByte j r⟩
  · obtain ⟨hrx, howned⟩ := send_frame (.addrW a7) (addrByte a7 false) s
    exact ⟨fun _ => hrx, by simp, fun _ _ => howned,
      fun hm j r _ => deviceByte_send _ hm fun _ hp => absurd (haddress a7 (.inl rfl)) hp⟩
  · obtain ⟨hrx, howned⟩ := send_frame (.addrR a7) (addrByte a7 true) s
    exact ⟨fun _ => hrx, by simp, fun _ _ => howned,
      fun hm j r _ => deviceByte_send _ hm fun _ hp => absurd (haddress a7 (.inr rfl)) hp⟩

end Sys2Proof.Machine
end

section
/-! A composite command against its primitives issued by hand (rules R90 to R92): each primitive does inside the command what it
does as a command of its own, but for `BUSY` and `SEQ`. -/

namespace Sys2Proof.Machine

open Sys2Proof.Safety

/-! ### A primitive inside a command -/

/-- The state as a command in flight at `q` sees it: `BUSY` is 1 and `SEQ` is there (rules R16, R19). -/
def inFlight (q : Seq) (s : State) : State := { s with status := setBusy s.status true, seq := some q }

@[simp] theorem inFlight_cfg (q : Seq) (s : State) : (inFlight q s).cfg = s.cfg := rfl
@[simp] theorem inFlight_phase (q : Seq) (s : State) : (inFlight q s).phase = s.phase := rfl
@[simp] theorem inFlight_env (q : Seq) (s : State) : (inFlight q s).env = s.env := rfl

/-- Acceptance puts the state in flight at the command's first primitive (rule R19). -/
theorem accept_eq_inFlight (i : Instr) (s : State) : accept i s = inFlight { cmd := i, k := 0 } s := rfl

/-- `SEQ` one primitive on (rule R19). -/
def Seq.succ (q : Seq) : Seq := { q with k := q.k + 1 }

theorem phaseStart_inFlight_answered {s : State} {e : Env} (h : s.env.onStart = some e) (q : Seq) :
    phaseStart (inFlight q s) = { state := inFlight q.succ (startedState e s), done := true } := by
  by_cases hp : s.phase = .idle <;>
    simp [phaseStart, h, advance, inFlight, startedState, Seq.succ, setBusy_setOwned, hp]

theorem phaseSend_inFlight_answered {b : Byte} {s : State} {a : Bool} {e : Env}
    (h : s.env.onSend s.cfg s.phase b = some (a, e)) (q : Seq) :
    phaseSend b (inFlight q s) = { state := inFlight q.succ (sentState b a e s), done := true } := by
  simp [phaseSend, h, advance, inFlight, sentState, Seq.succ, setBusy_setAck]

theorem phaseRecv_inFlight_answered {k : Bool} {s : State} {b : Byte} {e : Env} (h : s.env.onRecv k = some (b, e)) (q : Seq) :
    phaseRecv k (inFlight q s) = { state := inFlight q.succ (receivedState k b e s), done := true } := by
  simp [phaseRecv, h, advance, inFlight, receivedState, Seq.succ]

theorem phaseStop_inFlight_answered {s : State} {e : Env} (h : s.env.onStop = some e) (q : Seq) :
    phaseStop (inFlight q s) = { state := inFlight q.succ (stoppedState e s), done := true } := by
  simp [phaseStop, h, advance, inFlight, stoppedState, Seq.succ, setBusy_setOwned]

/-- What the last primitive by hand leaves is what the command finishes in (rule R70). -/
theorem finish_inFlight_stoppedState (q : Seq) (e : Env) (s : State) :
    finish (inFlight q (stoppedState e s)) = stoppedState e s := by
  simp [finish, inFlight, stoppedState, setBusy_setOwned]

/-! ### A sequence of primitives -/

/-- From `s`, the commands issued by hand all complete just when the body they are the primitives of completes in flight, and in
the state that body then finishes in (rule R90). -/
def ByHand (is : List Instr) (body : State → Ran) (s : State) : Prop :=
  ∀ (q : Seq) (t : State),
    execAll is s = some t ↔ (body (inFlight q s)).done = true ∧ finish (body (inFlight q s)).state = t

/-- A first primitive that completes both by hand and in flight, in states that correspond: the rest decides. -/
theorem byHand_answered {i : Instr} {is : List Instr} {p f : State → Ran} {s u : State} (hx : exec i s = .next u)
    (hb : statusBusy u.status = false) (hp : ∀ q, p (inFlight q s) = { state := inFlight q.succ u, done := true })
    (h : ByHand is f u) : ByHand (i :: is) (fun v => (p v).andThen f) s := by
  intro q t
  simpa [execAll, hx, hb, hp] using h q.succ t

/-- A first primitive that hangs both by hand and in flight: neither side completes (rule R163). -/
theorem byHand_unanswered {i : Instr} {is : List Instr} {p f : State → Ran} {s : State}
    (hx : exec i s = .next (accept i s)) (hp : ∀ q, (p (inFlight q s)).done = false) :
    ByHand (i :: is) (fun v => (p v).andThen f) s := by
  intro q t
  simp [execAll, hx, Ran.andThen, hp]

theorem byHand_start {is : List Instr} {f : State → Ran} {s : State}
    (hp : s.phase = .idle ∨ s.phase = .tx ∨ s.phase = .rxend)
    (h : ∀ e, s.env.onStart = some e → ByHand is f (startedState e s)) :
    ByHand (.start :: is) (fun v => (phaseStart v).andThen f) s := by
  cases he : s.env.onStart with
  | none =>
    refine byHand_unanswered ?_ fun q => by simp [phaseStart, he]
    rw [exec_start hp, runCommand_start_unanswered _ he]
  | some e =>
    refine byHand_answered ?_ (by simp [startedState]) (phaseStart_inFlight_answered he) (h e he)
    rw [exec_start hp, runCommand_start_answered _ he]

theorem byHand_send {b : Byte} {is : List Instr} {f : State → Ran} {s : State} (hp : s.phase = .started ∨ s.phase = .tx)
    (hr : s.env.refusesSend s.phase = false)
    (h : ∀ a e, s.env.onSend s.cfg s.phase b = some (a, e) → ByHand is f (sentState b a e s)) :
    ByHand (.sendbyte b :: is) (fun v => (phaseSend b v).andThen f) s := by
  cases he : s.env.onSend s.cfg s.phase b with
  | none =>
    refine byHand_unanswered ?_ fun q => by simp [phaseSend, he]
    rw [exec_sendbyte hp hr, runCommand_send_unanswered _ he]
  | some x =>
    refine byHand_answered ?_ (by simp [sentState]) (phaseSend_inFlight_answered he) (h x.1 x.2 he)
    rw [exec_sendbyte hp hr, runCommand_send_answered _ he]

theorem byHand_recv {k : Bool} {is : List Instr} {f : State → Ran} {s : State} (hp : s.phase = .rx)
    (hr : s.env.refusesRecv = false)
    (h : ∀ b e, s.env.onRecv k = some (b, e) → ByHand is f (receivedState k b e s)) :
    ByHand (.recvbyte k :: is) (fun v => (phaseRecv k v).andThen f) s := by
  cases he : s.env.onRecv k with
  | none =>
    refine byHand_unanswered ?_ fun q => by simp [phaseRecv, he]
    rw [exec_recvbyte hp hr, runCommand_recv_unanswered _ he]
  | some x =>
    refine byHand_answered ?_ (by simp [receivedState]) (phaseRecv_inFlight_answered he) (h x.1 x.2 he)
    rw [exec_recvbyte hp hr, runCommand_recv_answered _ he]

/-- The stop is the last primitive, and what it leaves is finished. -/
theorem byHand_stop {s : State} (hp : s.phase = .tx ∨ s.phase = .rxend) : ByHand [.stop] phaseStop s := by
  intro q t
  cases he : s.env.onStop with
  | none => simp [execAll, exec_stop hp, runCommand_stop_unanswered _ he, phaseStop, he]
  | some e =>
    have hb : statusBusy (stoppedState e s).status = false := by simp [stoppedState]
    simp [execAll, exec_stop hp, runCommand_stop_answered _ he, hb, phaseStop_inFlight_answered he,
      finish_inFlight_stoppedState]

/-! ### `SIM` has an answer to every call of a frame

A hand-issued primitive is refused where `SIM` has no answer (rule R36), and a composite command never is, so the two agree only
because no frame asks `SIM` for such an answer. -/

/-- Under `SIM` each device is deselected or in the state `x`. -/
def SimOffOr (x : Sel) (e : Env) : Prop := e.kind = .simulated → ∀ j, (e.sim j).sel = .off ∨ (e.sim j).sel = x

theorem simOffOr_onStart {e e' : Env} (h : e.onStart = some e') (x : Sel) : SimOffOr x e' := by
  intro hk j
  obtain ⟨e'', h', -, hsim⟩ := onStart_sim ((onStart_kind h).symm.trans hk)
  obtain rfl : e' = e'' := Option.some.inj (h.symm.trans h')
  exact .inl (congrArg SimDevice.sel (hsim j))

/-- An address byte after a start selects a device for its direction. -/
theorem simOffOr_address {e e' : Env} {c : Cfg} {b : Byte} {a : Bool} (hs : SimOffOr .off e)
    (h : e.onSend c .started b = some (a, e')) : SimOffOr (if directionRead b then .rd else .wrPtr) e' := by
  intro hk j
  have hk : e.kind = .simulated := (onSend_kind h).symm.trans hk
  have hoff : (e.sim j).sel = .off := or_self_iff.1 (hs hk j)
  obtain ⟨a', e'', h', -, hsim, -⟩ := onSend_address_sim hk c b
  obtain ⟨rfl, rfl⟩ : a = a' ∧ e' = e'' := by simpa [h'] using h.symm
  rw [hsim j, simAddress]
  split
  · exact .inr rfl
  · exact .inl hoff

/-- The register-address byte leaves a selected device waiting for data. -/
theorem simOffOr_register {e e' : Env} {c : Cfg} {b : Byte} {a : Bool} (hs : SimOffOr .wrPtr e)
    (h : e.onSend c .tx b = some (a, e')) : SimOffOr .wrData e' := by
  intro hk j
  have hk : e.kind = .simulated := (onSend_kind h).symm.trans hk
  obtain ⟨a', e'', h', -, hsim, -⟩ := onSend_data_sim hk c b
  obtain ⟨rfl, rfl⟩ : a = a' ∧ e' = e'' := by simpa [h'] using h.symm
  rw [hsim j]
  obtain hsel | hsel := hs hk j
  · exact .inl (by simp [simData, hsel])
  · exact .inr (by simp [simData, hsel])

@[simp] theorem refusesSend_started (e : Env) : e.refusesSend .started = false := by
  simp [Env.refusesSend, simSendSilent]

theorem refusesSend_of_simOffOr {e : Env} {x : Sel} (h : SimOffOr x e) (hx : x = .wrPtr ∨ x = .wrData) (p : Phase) :
    e.refusesSend p = false := by
  by_cases hk : e.kind = .simulated
  · have hsel : ∀ j, (e.sim j).sel ≠ .wrDone ∧ (e.sim j).sel ≠ .rd ∧ (e.sim j).sel ≠ .rdDone := by
      intro j
      obtain hj | hj := h hk j <;> obtain rfl | rfl := hx <;> simp [hj]
    have h0 := hsel 0
    have h1 := hsel 1
    simp_all [Env.refusesSend, simSendSilent]
  · simp [Env.refusesSend, hk]

theorem refusesRecv_of_simOffOr {e : Env} (h : SimOffOr .rd e) : e.refusesRecv = false := by
  by_cases hk : e.kind = .simulated
  · have hsel : ∀ j, (e.sim j).sel ≠ .rdDone := by
      intro j
      obtain hj | hj := h hk j <;> simp [hj]
    have h0 := hsel 0
    have h1 := hsel 1
    simp_all [Env.refusesRecv, simRecvSilent]
  · simp [Env.refusesRecv, hk]

/-! ### The two frames -/

/-- What both frames begin with: a start from an idle bus, the write address and the register address (rules R53, R54). -/
theorem byHand_registerAddress {d r : Byte} {is : List Instr} {f : State → Ran} {s : State} (hd : isDeviceAddr d = true)
    (hp : s.phase = .idle) (h : ∀ u, u.phase = .tx → SimOffOr .wrData u.env → ByHand is f u) :
    ByHand (.start :: .sendbyte (addrWrite d) :: .sendbyte r :: is)
      (fun v => (phaseStart v).andThen fun v => (phaseSend (addrWrite d) v).andThen fun v => (phaseSend r v).andThen f) s := by
  refine byHand_start (.inl hp) fun e1 h1 => ?_
  refine byHand_send (.inl rfl) (refusesSend_started e1) fun a1 e2 h2 => ?_
  have htx : phaseAfterSend .started (addrWrite d) = .tx := by
    rw [phaseAfterSend_started, directionRead_addrWrite hd]; rfl
  have hptr : SimOffOr .wrPtr e2 := by
    simpa [-addrWrite_eq, directionRead_addrWrite hd] using simOffOr_address (simOffOr_onStart h1 _) h2
  refine byHand_send (.inr htx) (refusesSend_of_simOffOr hptr (.inl rfl) _) fun a2 e3 h3 => ?_
  have h3' : e2.onSend s.cfg .tx r = some (a2, e3) := htx ▸ h3
  exact h _ ((congrArg (phaseAfterSend · r) htx).trans (phaseAfterSend_tx r)) (simOffOr_register hptr h3')

theorem byHand_writeFrame {d r v : Byte} {s : State} (hd : isDeviceAddr d = true) (hp : s.phase = .idle) :
    ByHand [.start, .sendbyte (addrWrite d), .sendbyte r, .sendbyte v, .stop] (writeFrame d r v) s := by
  refine byHand_registerAddress hd hp fun u hu hdata => ?_
  refine byHand_send (.inr hu) (refusesSend_of_simOffOr hdata (.inr rfl) _) fun a e _ => ?_
  exact byHand_stop (.inl ((congrArg (phaseAfterSend · v) hu).trans (phaseAfterSend_tx v)))

theorem byHand_readFrame {d r : Byte} {s : State} (hd : isDeviceAddr d = true) (hp : s.phase = .idle) :
    ByHand [.start, .sendbyte (addrWrite d), .sendbyte r, .start, .sendbyte (addrRead d), .recvbyte false, .stop]
      (readFrame d r) s := by
  refine byHand_registerAddress hd hp fun u hu _ => ?_
  refine byHand_start (.inr (.inl hu)) fun e4 h4 => ?_
  refine byHand_send (.inl rfl) (refusesSend_started e4) fun a e5 h5 => ?_
  have hrx : phaseAfterSend .started (addrRead d) = .rx := by
    rw [phaseAfterSend_started, directionRead_addrRead]; rfl
  have hread : SimOffOr .rd e5 := by simpa using simOffOr_address (simOffOr_onStart h4 _) h5
  exact byHand_recv hrx (refusesRecv_of_simOffOr hread) fun b e6 _ => byHand_stop (.inr rfl)

/-- A composite command that is accepted completes just when its primitives by hand do, and in the same state (rule R90). -/
theorem byHand_exec {i : Instr} {is : List Instr} {s : State} (hx : exec i s = .next (runCommand i (bodyOf i) s))
    (h : ByHand is (bodyOf i) s) (t : State) :
    (exec i s = .next t ∧ statusBusy t.status = false) ↔ execAll is s = some t := by
  rw [h { cmd := i, k := 0 } t, ← accept_eq_inFlight, hx]
  obtain ⟨hdone, hrun⟩ | ⟨hdone, hrun⟩ := runCommand_cases i (bodyOf i) s
  · have hb := statusBusy_runCommand_done hdone
    rw [hrun] at hb ⊢
    simp only [hdone, true_and, Host.Outcome.next.injEq]
    exact and_iff_left_of_imp fun ht => ht ▸ hb
  · have hb := statusBusy_runCommand_hung hdone
    simp only [hdone, Bool.false_eq_true, false_and, iff_false, Host.Outcome.next.injEq]
    rintro ⟨rfl, hnot⟩
    simp [hb] at hnot

/-- Settles O23: the read frame inside the command against its seven primitives by hand. -/
theorem readregIsItsSevenPrimitives : Obligations.ReadregIsItsSevenPrimitives := by
  intro s t d r hd hp
  rw [← isDeviceAddr_iff] at hd
  exact byHand_exec (by simp [exec, execReadreg, execComposite, bodyOf, hd, hp]) (byHand_readFrame hd hp) t

/-- Settles O24: the write frame inside the command against its five primitives by hand. -/
theorem writeregIsItsFivePrimitives : Obligations.WriteregIsItsFivePrimitives := by
  intro s t d r v hd hp
  rw [← isDeviceAddr_iff] at hd
  exact byHand_exec (by simp [exec, execWritereg, execComposite, bodyOf, hd, hp]) (byHand_writeFrame hd hp) t

end Sys2Proof.Machine
end

section
/-! The sensor reads on an answered bus (rules R93, R102, R111): their read frames one after the other, and the state they finish
in. -/

namespace Sys2Proof.Machine

open Sys2Proof.Safety

/-- The state after one or more read frames with the events `l`, `k` primitives in all: the last frame's answers were `f`, and the
environment has gone on to `e` (rules R54, R93). -/
def readsState (l : List BusEvent) (k : Nat) (f : ReadReply) (e : Env) (s : State) : State :=
  { s with
    env := e
    trace := s.trace ++ l
    phase := .idle
    status := setOwned (setAck s.status f.a3) false
    rxdata := f.byte
    rxHeld := true
    ackHeld := true
    seq := s.seq.map fun q => { q with k := q.k + k } }

@[simp] theorem readsState_cfg (l : List BusEvent) (k : Nat) (f : ReadReply) (e : Env) (s : State) :
    (readsState l k f e s).cfg = s.cfg := rfl

theorem readFrameState_eq_readsState (d r : Byte) (f : ReadReply) (e : Env) (s : State) :
    readFrameState d r f e s = readsState (readEvents d r f) 7 f e s := rfl

/-- One read frame more: its events come after those so far, and `RXDATA` and `ACK` are its own. -/
theorem readFrameState_readsState (d r : Byte) (f g : ReadReply) (e e' : Env) (l : List BusEvent) (k : Nat) (s : State) :
    readFrameState d r f e (readsState l k g e' s) = readsState (l ++ readEvents d r f) (k + 7) f e s := by
  have hstatus :
      setOwned (setAck (setOwned (setAck s.status g.a3) false) f.a3) false = setOwned (setAck s.status f.a3) false := by
    apply status_ext <;> simp
  simp [readFrameState, readsState, hstatus, Function.comp_def, Nat.add_assoc]

/-- The context a sensor read writes at its end and the finish of the command, over its read frames: an idle bus before it is idle
after it (rules R90, R102, R111). -/
theorem finish_setCtx_readsState {s : State} (hp : s.phase = .idle) (i : Instr) (x : CtxIx) (c : Context) (l : List BusEvent)
    (k : Nat) (f : ReadReply) (e : Env) :
    finish ((readsState l k f e (accept i s)).setCtx x c) =
      { s.setCtx x c with
        env := e
        trace := s.trace ++ l
        rxdata := f.byte
        rxHeld := true
        status := setOwned (setAck (setBusy s.status false) f.a3) false
        ackHeld := true
        seq := none } := by
  match x with
  | 0 => simp [finish, readsState, accept, State.setCtx, status_finished, hp]
  | 1 => simp [finish, readsState, accept, State.setCtx, status_finished, hp]

/-- `word16` as a bit string (rule R100). -/
theorem word16_eq_append (low high : Byte) : word16 low high = high ++ low := by
  apply BitVec.eq_of_getLsbD_eq
  intro i hi
  rw [BitVec.getLsbD_append]
  interval_cases i <;> simp [word16]

/-- `LOADCAL`'s six frames, each answered (rule R102). -/
theorem loadCalBody_answered {s : State} {x : CtxIx} {f1 f2 f3 f4 f5 f6 : ReadReply} {e1 e2 e3 e4 e5 e6 : Env}
    (hd : isDeviceAddr (s.ctx x).devaddr = true) (hp : s.phase = .idle)
    (h1 : readAnswers s.cfg (s.ctx x).devaddr s.cfg.regT1 s.env = some (f1, e1))
    (h2 : readAnswers s.cfg (s.ctx x).devaddr (regPlus s.cfg.regT1 1) e1 = some (f2, e2))
    (h3 : readAnswers s.cfg (s.ctx x).devaddr s.cfg.regT2 e2 = some (f3, e3))
    (h4 : readAnswers s.cfg (s.ctx x).devaddr (regPlus s.cfg.regT2 1) e3 = some (f4, e4))
    (h5 : readAnswers s.cfg (s.ctx x).devaddr s.cfg.regT3 e4 = some (f5, e5))
    (h6 : readAnswers s.cfg (s.ctx x).devaddr (regPlus s.cfg.regT3 1) e5 = some (f6, e6)) :
    let d := (s.ctx x).devaddr
    loadCalBody x s =
      { state := writeTriple x (word16 f1.byte f2.byte) (word16 f3.byte f4.byte) (word16 f5.byte f6.byte)
          (readsState (readEvents d s.cfg.regT1 f1 ++ readEvents d (regPlus s.cfg.regT1 1) f2
            ++ readEvents d s.cfg.regT2 f3 ++ readEvents d (regPlus s.cfg.regT2 1) f4
            ++ readEvents d s.cfg.regT3 f5 ++ readEvents d (regPlus s.cfg.regT3 1) f6) 42 f6 e6 s)
        done := true } := by
  unfold loadCalBody
  refine (readThen_answered hp hd h1).trans ?_
  refine (readThen_answered rfl hd h2).trans ?_
  refine (readThen_answered rfl hd h3).trans ?_
  refine (readThen_answered rfl hd h4).trans ?_
  refine (readThen_answered rfl hd h5).trans ?_
  refine (readThen_answered rfl hd h6).trans ?_
  simp only [readFrameState_eq_readsState _ _ f1, readFrameState_readsState, readsState_cfg, Nat.reduceAdd]

/-- Settles O26: the six frames (`loadCalBody_answered`), the write of the triple and the finish
(`finish_setCtx_readsState`). -/
theorem loadcalCompletes : Obligations.LoadcalCompletes := by
  intro s x f1 f2 f3 f4 f5 f6 e1 e2 e3 e4 e5 e6 c d hd hp h1 h2 h3 h4 h5 h6
  have hbody := loadCalBody_answered (s := accept (.loadcal x) s) ((isDeviceAddr_iff _).2 hd) hp h1 h2 h3 h4 h5 h6
  simp only [word16_eq_append] at hbody
  refine (if_pos hp).trans (congrArg _ ((runCommand_done hbody).trans ?_))
  exact finish_setCtx_readsState hp ..

/-- Settles O27: the three frames (`readRawBody_answered`), the write of `RAW` and the finish (`finish_setCtx_readsState`). -/
theorem readrawCompletes : Obligations.ReadrawCompletes := by
  intro s x f1 f2 f3 e1 e2 e3 c d hd hp h1 h2 h3
  have hbody := readRawBody_answered (s := accept (.readraw x) s) ((isDeviceAddr_iff _).2 hd) hp h1 h2 h3
  simp only [raw20_eq_append, readFrameState_eq_readsState _ _ f1, readFrameState_readsState] at hbody
  refine (if_pos hp).trans (congrArg _ ((runCommand_done hbody).trans ?_))
  exact finish_setCtx_readsState hp ..

end Sys2Proof.Machine
end

section
/-! The calibration words (rules R100, R101, R103) and the worked raw count (rule R114): the two combinations of bytes as
numbers, and the readings of a word. -/

namespace Sys2Proof.Machine

/-- `word16` as a number: as a bit string `high` stands eight places up, so nothing of it meets `low` (rule R100). -/
theorem word16_toNat (low high : Byte) : (word16 low high).toNat = low.toNat + 256 * high.toNat := by
  rw [word16_eq_append, BitVec.toNat_append, ← Nat.shiftLeft_add_eq_or_of_lt low.isLt, Nat.shiftLeft_eq]
  omega

/-- Settles O29: the number is `word16_toNat`, the bit string `word16_eq_append`. -/
theorem calibrationWordCombinesBytes : Obligations.CalibrationWordCombinesBytes :=
  fun low high => ⟨word16_toNat low high, word16_eq_append low high⟩

/-- Settles O30: the formula is the definition of `asS16`, which is the two's complement reading (`asS16_eq_toInt`), whose range
and inverse are the library's; the three registers are clauses of `readContext`. -/
theorem calibrationWordReadsSigned : Obligations.CalibrationWordReadsSigned := by
  intro w c
  have hsigned := asS16_eq_toInt w
  have hbits : BitVec.ofInt 16 (asS16 w) = w := by rw [hsigned, BitVec.ofInt_toInt]
  have hlow : -32768 ≤ asS16 w := hsigned ▸ w.le_toInt
  have hhigh : asS16 w ≤ 32767 := hsigned ▸ Int.le_of_lt_add_one w.toInt_lt
  exact ⟨rfl, hsigned, hlow, hhigh, hbits, rfl, rfl, rfl⟩

/-- Settles O32: the two words are sums (`word16_toNat`), of which only the second is past 32767 and so read as negative; the raw
count is its digits in a row (`raw20_eq_append`). -/
theorem workedByteExamples : Obligations.WorkedByteExamples := by
  have hpositive : (word16 0x10#8 0x6B#8).toNat = 27408 := word16_toNat _ _
  have hnegative : (word16 0x18#8 0xFC#8).toNat = 64536 := word16_toNat _ _
  have hraw : (raw20 0x5A#8 0x3C#8 0xD0#8).toNat = 369613 := by
    rw [raw20_eq_append]
    decide
  refine ⟨hpositive, ?_, hnegative, ?_, hraw⟩
  · simp [asS16, hpositive]
  · simp [asS16, hnegative]

end Sys2Proof.Machine
end

section
/-! The raw count (rule R112): its three digits as a number. -/

namespace Sys2Proof.Machine

/-- Bits set side by side do not overlap, so their number is a sum. -/
theorem toNat_append_eq_add {m n : Nat} (high : BitVec m) (low : BitVec n) :
    (high ++ low).toNat = high.toNat * 2 ^ n + low.toNat := by
  rw [BitVec.toNat_append, ← Nat.shiftLeft_add_eq_or_of_lt low.isLt, Nat.shiftLeft_eq]

/-- The high nibble of a byte as a number. -/
theorem highNibble_toNat (b : Byte) : (b.extractLsb' 4 4).toNat = b.toNat / 16 := by
  have hlt : b.toNat / 16 < 16 := Nat.div_lt_of_lt_mul b.isLt
  rw [BitVec.extractLsb'_toNat, Nat.shiftRight_eq_div_pow]
  exact Nat.mod_eq_of_lt hlt

/-- `raw20` as a number: the OR of its three parts is their sum (rule R112). -/
theorem raw20_toNat (msb lsb extra : Byte) :
    (raw20 msb lsb extra).toNat = 4096 * msb.toNat + 16 * lsb.toNat + extra.toNat / 16 := by
  have hsum : (raw20 msb lsb extra).toNat = (msb.toNat * 2 ^ 8 + lsb.toNat) * 2 ^ 4 + extra.toNat / 16 := by
    rw [raw20_eq_append, toNat_append_eq_add, toNat_append_eq_add, highNibble_toNat]
  omega

/-- Settles O31: the number is `raw20_toNat`, the bit string `raw20_eq_append`, in which the extra byte stands by its high nibble
alone. -/
theorem rawCountAssemblesBytes : Obligations.RawCountAssemblesBytes := by
  intro msb lsb extra
  refine ⟨raw20_toNat msb lsb extra, raw20_eq_append msb lsb extra, fun other hnibble => ?_⟩
  rw [raw20_eq_append, raw20_eq_append, hnibble]

end Sys2Proof.Machine
end

section
/-! `COMPENSATE` as a function of its operands: what it writes and what it leaves (rules R124, R129), and that no command reads
`TFINE` (rule R131). -/

namespace Sys2Proof.Machine

/-! ### What COMPENSATE writes -/

/-- The state `COMPENSATE x` ends in, whenever it is not refused (rule R124). -/
theorem exec_compensate_next {s t : State} {x : CtxIx} (h : exec (.compensate x) s = .next t) :
    t = { s.setCtx x (compensated s.cfg.fpfmt (s.ctx x)) with
      status := setBusy s.status false
      seq := none
      unwrittenUse := s.unwrittenUse || !compensable (s.ctx x) } :=
  (exec_next h).trans (compensateUnguarded_eq x s)

/-- Context `x` after `COMPENSATE x` (rule R124). -/
theorem exec_compensate_ctx {s t : State} {x : CtxIx} (h : exec (.compensate x) s = .next t) :
    t.ctx x = compensated s.cfg.fpfmt (s.ctx x) := by
  rw [exec_compensate_next h]
  exact ctx_setCtx_self s x _

/-- Settles O34: both results are components of one application of `comp` (`exec_compensate_ctx`), and its arguments are the
hypotheses' sides. -/
theorem compensationIsPure : Obligations.CompensationIsPure := by
  intro s t s' t' x y hfmt hraw h1 h2 h3 hs ht
  rw [exec_compensate_ctx hs, exec_compensate_ctx ht]
  simp only [compensated, hfmt, hraw, h1, h2, h3, and_self]

/-- Settles O46: the state after is written out in `exec_compensate_next`, and each clause reads one field of it. -/
theorem frameOfCompensate : Obligations.FrameOfCompensate := by
  intro s t x y hne h
  have hx : t.ctx x = compensated s.cfg.fpfmt (s.ctx x) := exec_compensate_ctx h
  have hy : t.ctx y = s.ctx y := by
    rw [exec_compensate_next h]
    exact ctx_setCtx_ne s x y _ hne
  rw [hx, hy, exec_compensate_next h]
  simp +contextual [compensated]

/-! ### No command reads TFINE -/

/-- The same state but for the two fine temperatures. -/
def State.withTfine (s : State) (v0 v1 : BitVec 32) : State :=
  { s with ctx0 := { s.ctx0 with tfine := v0 }, ctx1 := { s.ctx1 with tfine := v1 } }

/-- Two runs of a command's part alike but for `TFINE`. -/
def SameRun (r r' : Ran) : Prop := ∃ w0 w1, r' = { state := r.state.withTfine w0 w1, done := r.done }

/-- A context read past a change of the fine temperatures: every other register as it was. -/
theorem ctx_withTfine (s : State) (v0 v1 : BitVec 32) (x : CtxIx) :
    ∃ v, (s.withTfine v0 v1).ctx x = { s.ctx x with tfine := v } := by
  match x with
  | 0 => exact ⟨v0, rfl⟩
  | 1 => exact ⟨v1, rfl⟩

/-- Writing a context past a change of the fine temperatures, up to the fine temperature written. -/
theorem setCtx_withTfine (s : State) (v0 v1 v : BitVec 32) (x : CtxIx) (c : Context) :
    ∃ w0 w1, (s.withTfine v0 v1).setCtx x { c with tfine := v } = (s.setCtx x c).withTfine w0 w1 := by
  match x with
  | 0 => exact ⟨v, v1, rfl⟩
  | 1 => exact ⟨v0, v, rfl⟩

theorem sameRun_start (s : State) (v0 v1 : BitVec 32) : SameRun (phaseStart s) (phaseStart (s.withTfine v0 v1)) := by
  have hcall : (s.withTfine v0 v1).env.onStart = s.env.onStart := rfl
  refine ⟨v0, v1, ?_⟩
  unfold phaseStart
  rw [hcall]
  cases s.env.onStart <;> rfl

theorem sameRun_send (b : Byte) (s : State) (v0 v1 : BitVec 32) :
    SameRun (phaseSend b s) (phaseSend b (s.withTfine v0 v1)) := by
  have hcall : (s.withTfine v0 v1).env.onSend (s.withTfine v0 v1).cfg (s.withTfine v0 v1).phase b
    = s.env.onSend s.cfg s.phase b := rfl
  refine ⟨v0, v1, ?_⟩
  unfold phaseSend
  rw [hcall]
  cases s.env.onSend s.cfg s.phase b <;> rfl

theorem sameRun_recv (k : Bool) (s : State) (v0 v1 : BitVec 32) :
    SameRun (phaseRecv k s) (phaseRecv k (s.withTfine v0 v1)) := by
  have hcall : (s.withTfine v0 v1).env.onRecv k = s.env.onRecv k := rfl
  refine ⟨v0, v1, ?_⟩
  unfold phaseRecv
  rw [hcall]
  cases s.env.onRecv k <;> rfl

theorem sameRun_stop (s : State) (v0 v1 : BitVec 32) : SameRun (phaseStop s) (phaseStop (s.withTfine v0 v1)) := by
  have hcall : (s.withTfine v0 v1).env.onStop = s.env.onStop := rfl
  refine ⟨v0, v1, ?_⟩
  unfold phaseStop
  rw [hcall]
  cases s.env.onStop <;> rfl

/-- Parts alike but for `TFINE` make a whole that is. -/
theorem SameRun.andThen {r r' : Ran} {f : State → Ran} (h : SameRun r r')
    (hf : ∀ t w0 w1, SameRun (f t) (f (t.withTfine w0 w1))) : SameRun (r.andThen f) (r'.andThen f) := by
  obtain ⟨w0, w1, rfl⟩ := h
  unfold Ran.andThen
  cases hdone : r.done
  · exact ⟨w0, w1, by simp [hdone]⟩
  · exact hf r.state w0 w1

theorem sameRun_writeFrame (d r v : Byte) (s : State) (v0 v1 : BitVec 32) :
    SameRun (writeFrame d r v s) (writeFrame d r v (s.withTfine v0 v1)) :=
  (sameRun_start s v0 v1).andThen fun t w0 w1 => (sameRun_send _ t w0 w1).andThen fun t w0 w1 =>
  (sameRun_send _ t w0 w1).andThen fun t w0 w1 => (sameRun_send _ t w0 w1).andThen sameRun_stop

theorem sameRun_readFrame (d r : Byte) (s : State) (v0 v1 : BitVec 32) :
    SameRun (readFrame d r s) (readFrame d r (s.withTfine v0 v1)) :=
  (sameRun_start s v0 v1).andThen fun t w0 w1 => (sameRun_send _ t w0 w1).andThen fun t w0 w1 =>
  (sameRun_send _ t w0 w1).andThen fun t w0 w1 => (sameRun_start t w0 w1).andThen fun t w0 w1 =>
  (sameRun_send _ t w0 w1).andThen fun t w0 w1 => (sameRun_recv _ t w0 w1).andThen sameRun_stop

/-- One read of a longer command: `RXDATA` is not changed with `TFINE`, so both runs go on with the same byte. -/
theorem sameRun_readThen (d r : Byte) (s : State) (v0 v1 : BitVec 32) {f : Byte → State → Ran}
    (hf : ∀ b t w0 w1, SameRun (f b t) (f b (t.withTfine w0 w1))) :
    SameRun (readThen d r s f) (readThen d r (s.withTfine v0 v1) f) :=
  (sameRun_readFrame d r s v0 v1).andThen fun t => hf t.rxdata t

/-- A write of a context alike in both runs but for the fine temperature. -/
theorem sameRun_setCtx (s : State) (v0 v1 v : BitVec 32) (x : CtxIx) (c : Context) :
    SameRun { state := s.setCtx x c, done := true }
      { state := (s.withTfine v0 v1).setCtx x { c with tfine := v }, done := true } := by
  obtain ⟨w0, w1, h⟩ := setCtx_withTfine s v0 v1 v x c
  exact ⟨w0, w1, congrArg (Ran.mk · true) h⟩

theorem sameRun_writeTriple (x : CtxIx) (t1 t2 t3 : BitVec 16) (s : State) (v0 v1 : BitVec 32) :
    SameRun { state := writeTriple x t1 t2 t3 s, done := true }
      { state := writeTriple x t1 t2 t3 (s.withTfine v0 v1), done := true } := by
  obtain ⟨v, hv⟩ := ctx_withTfine s v0 v1 x
  unfold writeTriple
  rw [hv]
  exact sameRun_setCtx s v0 v1 v x _

theorem sameRun_writeRaw (x : CtxIx) (raw : BitVec 20) (s : State) (v0 v1 : BitVec 32) :
    SameRun { state := writeRaw x raw s, done := true }
      { state := writeRaw x raw (s.withTfine v0 v1), done := true } := by
  obtain ⟨v, hv⟩ := ctx_withTfine s v0 v1 x
  unfold writeRaw
  rw [hv]
  exact sameRun_setCtx s v0 v1 v x _

/-- `DEVADDR` of a context is not changed with `TFINE`. -/
theorem devaddr_withTfine (s : State) (v0 v1 : BitVec 32) (x : CtxIx) :
    ((s.withTfine v0 v1).ctx x).devaddr = (s.ctx x).devaddr := by
  obtain ⟨v, hv⟩ := ctx_withTfine s v0 v1 x
  rw [hv]

theorem sameRun_loadCal (x : CtxIx) (s : State) (v0 v1 : BitVec 32) :
    SameRun (loadCalBody x s) (loadCalBody x (s.withTfine v0 v1)) := by
  unfold loadCalBody
  rw [devaddr_withTfine]
  exact sameRun_readThen _ _ s v0 v1 fun _ t w0 w1 => sameRun_readThen _ _ t w0 w1 fun _ t w0 w1 =>
    sameRun_readThen _ _ t w0 w1 fun _ t w0 w1 => sameRun_readThen _ _ t w0 w1 fun _ t w0 w1 =>
    sameRun_readThen _ _ t w0 w1 fun _ t w0 w1 => sameRun_readThen _ _ t w0 w1 fun _ t w0 w1 =>
    sameRun_writeTriple x _ _ _ t w0 w1

theorem sameRun_readRaw (x : CtxIx) (s : State) (v0 v1 : BitVec 32) :
    SameRun (readRawBody x s) (readRawBody x (s.withTfine v0 v1)) := by
  unfold readRawBody
  rw [devaddr_withTfine]
  exact sameRun_readThen _ _ s v0 v1 fun _ t w0 w1 => sameRun_readThen _ _ t w0 w1 fun _ t w0 w1 =>
    sameRun_readThen _ _ t w0 w1 fun _ t w0 w1 => sameRun_writeRaw x _ t w0 w1

/-- `COMPENSATE` overwrites the fine temperature that differs. -/
theorem sameRun_compBody (x : CtxIx) (s : State) (v0 v1 : BitVec 32) :
    SameRun (compBody x s) (compBody x (s.withTfine v0 v1)) := by
  obtain ⟨v, hv⟩ := ctx_withTfine s v0 v1 x
  obtain ⟨w0, w1, h⟩ := setCtx_withTfine s v0 v1 _ x (compensated s.cfg.fpfmt (s.ctx x))
  refine ⟨w0, w1, ?_⟩
  unfold compBody
  rw [hv]
  exact congrArg (fun t => Ran.mk (t.used (compensable (s.ctx x))) true) h

/-- The body of every command runs alike whatever `TFINE` holds (rule R131). -/
theorem sameRun_bodyOf (i : Instr) (s : State) (v0 v1 : BitVec 32) :
    SameRun (bodyOf i s) (bodyOf i (s.withTfine v0 v1)) := by
  cases i with
  | start => exact sameRun_start s v0 v1
  | sendbyte b => exact sameRun_send b s v0 v1
  | recvbyte k => exact sameRun_recv k s v0 v1
  | stop => exact sameRun_stop s v0 v1
  | writereg d r v => exact sameRun_writeFrame d r v s v0 v1
  | readreg d r => exact sameRun_readFrame d r s v0 v1
  | loadcal x => exact sameRun_loadCal x s v0 v1
  | readraw x => exact sameRun_readRaw x s v0 v1
  | compensate x => exact sameRun_compBody x s v0 v1
  | addrW a7 => exact sameRun_send _ s v0 v1
  | addrR a7 => exact sameRun_send _ s v0 v1

/-- A whole command ends alike whatever `TFINE` holds. -/
theorem runCommand_withTfine (i : Instr) (s : State) (v0 v1 : BitVec 32) :
    ∃ w0 w1, runCommand i (bodyOf i) (s.withTfine v0 v1) = (runCommand i (bodyOf i) s).withTfine w0 w1 := by
  obtain ⟨w0, w1, h⟩ := sameRun_bodyOf i (accept i s) v0 v1
  have haccept : accept i (s.withTfine v0 v1) = (accept i s).withTfine v0 v1 := rfl
  refine ⟨w0, w1, ?_⟩
  rw [← haccept] at h
  rcases runCommand_cases i (bodyOf i) s with ⟨hdone, e⟩ | ⟨hdone, e⟩ <;> rw [hdone] at h <;> rw [e]
  · exact runCommand_done h
  · exact runCommand_stuck h

/-- Two answers of a command alike but for `TFINE`. -/
def SameAnswer (o o' : Host.Outcome State Fault Refusal) : Prop :=
  (∀ t, o = .next t → ∃ w0 w1, o' = .next (t.withTfine w0 w1)) ∧ ∀ r, o = .refused r → o' = .refused r

theorem sameAnswer_refused (r : Refusal) : SameAnswer (.refused r) (.refused r) := ⟨(fun _ h => nomatch h), fun _ => id⟩

theorem sameAnswer_run (i : Instr) (s : State) (v0 v1 : BitVec 32) :
    SameAnswer (.next (runCommand i (bodyOf i) s)) (.next (runCommand i (bodyOf i) (s.withTfine v0 v1))) := by
  obtain ⟨w0, w1, h⟩ := runCommand_withTfine i s v0 v1
  refine ⟨fun t ht => ⟨w0, w1, ?_⟩, fun _ h => nomatch h⟩
  cases ht
  rw [h]

/-- One check before a command, passed or failed by both. -/
theorem SameAnswer.check {c : Prop} [Decidable c] {a a' b b' : Host.Outcome State Fault Refusal} (ha : SameAnswer a a')
    (hb : SameAnswer b b') : SameAnswer (if c then a else b) (if c then a' else b') := by
  split
  · exact ha
  · exact hb

/-- Every command answers alike whatever `TFINE` holds: no check reads it, and no body does (rule R131). -/
theorem exec_withTfine (i : Instr) (s : State) (v0 v1 : BitVec 32) :
    SameAnswer (exec i s) (exec i (s.withTfine v0 v1)) := by
  have hrun := sameAnswer_run i s v0 v1
  have hrefused := sameAnswer_refused
  cases i with
  | start | stop | loadcal | readraw | addrW | addrR => exact hrun.check (hrefused _)
  | sendbyte | recvbyte => exact ((hrefused _).check hrun).check (hrefused _)
  | writereg | readreg => exact (hrun.check (hrefused _)).check (hrefused _)
  | compensate x =>
    obtain ⟨v, hv⟩ := ctx_withTfine s v0 v1 x
    change SameAnswer (execCompensate x s) (execCompensate x (s.withTfine v0 v1))
    unfold execCompensate
    rw [hv]
    exact hrun.check (hrefused _)

/-- Settles O42: the answers by `exec_withTfine`, what `COMPENSATE` writes by `exec_compensate_ctx`. -/
theorem fineTemperatureIsNeverRead : Obligations.FineTemperatureIsNeverRead := by
  intro i s v0 v1
  obtain ⟨hnext, hrefused⟩ := exec_withTfine i s v0 v1
  refine ⟨hnext, hrefused, fun x t h => ?_⟩
  rw [exec_compensate_ctx h]
  rfl

end Sys2Proof.Machine
end

section
/-! The exact results of the operations of rule R121, and their rounding where the format represents the result or a bound of it
(rules R122, R126). -/

namespace Sys2Proof.Machine

/-! ### Signs and magnitudes -/

theorem signedValue_not (neg : Bool) (q : Rat) : signedValue (!neg) q = -signedValue neg q := by
  cases neg <;> simp [signedValue]

theorem abs_signedValue (neg : Bool) {mag : Rat} (h : 0 ≤ mag) : |signedValue neg mag| = mag := by
  cases neg <;> simp [signedValue, abs_of_nonneg h]

theorem signedValue_mul (a b : Bool) (p q : Rat) : signedValue (a != b) (p * q) = signedValue a p * signedValue b q := by
  cases a <;> cases b <;> simp [signedValue]

theorem signedValue_div (a b : Bool) (p q : Rat) : signedValue (a != b) (p / q) = signedValue a p / signedValue b q := by
  cases a <;> cases b <;> simp [signedValue, neg_div, div_neg]

/-- The sign of a sum `r` of operands with the signs `a` and `b`: that of its value, and for a zero that of both operands, or
plus (rule R128). -/
def sumSign (a b : Bool) (r : Rat) : Bool := if r = 0 then a && b else decide (r < 0)

theorem signedValue_decide (r : Rat) : signedValue (decide (r < 0)) |r| = r := by
  rcases lt_or_ge r 0 with h | h
  · simp [signedValue, h, abs_of_neg]
  · simp [signedValue, not_lt.2 h, abs_of_nonneg h]

theorem signedValue_sumSign (a b : Bool) (r : Rat) : signedValue (sumSign a b r) |r| = r := by
  unfold sumSign
  split
  · simp [*, signedValue]
  · exact signedValue_decide r

/-! ### The operations on finite operands -/

/-- A magnitude rounded once, with a sign (rule R121). -/
def rounded (f : FpFormat) (neg : Bool) (q : Rat) : Fp := fpOfPattern f (signed f neg (roundPattern f q))

theorem packDatum_fin (f : FpFormat) (free : BitVec 64) (neg : Bool) (q : Rat) :
    packDatum f free (.fin neg q) = rounded f neg q := rfl

theorem add_fin (a b : Bool) (p q : Rat) : (Datum.fin a p).add (.fin b q)
    = .fin (sumSign a b (signedValue a p + signedValue b q)) |signedValue a p + signedValue b q| := by
  simp only [Datum.add, sumSign]
  split
  · simp [*]
  · congr 1
    split
    · exact (abs_of_neg ‹_›).symm
    · exact (abs_of_nonneg (not_lt.1 ‹_›)).symm

section
variable (f : FpFormat) {x y : Fp} {a b : Bool} {p q : Rat}

theorem fadd_fin (hx : fpDatum x = .fin a p) (hy : fpDatum y = .fin b q) :
    fadd f x y = rounded f (sumSign a b (signedValue a p + signedValue b q)) |signedValue a p + signedValue b q| := by
  rw [fadd, hx, hy, add_fin, packDatum_fin]

theorem fsub_fin (hx : fpDatum x = .fin a p) (hy : fpDatum y = .fin b q) :
    fsub f x y = rounded f (sumSign a (!b) (signedValue a p - signedValue b q)) |signedValue a p - signedValue b q| := by
  rw [fsub, hx, hy, Datum.neg, add_fin, packDatum_fin, signedValue_not, sub_eq_add_neg]

theorem fmul_fin (hx : fpDatum x = .fin a p) (hy : fpDatum y = .fin b q) : fmul f x y = rounded f (a != b) (p * q) := by
  rw [fmul, hx, hy, Datum.mul, packDatum_fin]

theorem fdiv_fin (hx : fpDatum x = .fin a p) (hy : fpDatum y = .fin b q) (hq : q ≠ 0) :
    fdiv f x y = rounded f (a != b) (p / q) := by
  rw [fdiv, hx, hy, Datum.div, if_neg hq, packDatum_fin]

end

/-! ### Values -/

/-- `x` is finite and its value is `r`, a zero of either sign having the value 0. -/
def Denotes (x : Fp) (r : Rat) : Prop := ∃ neg mag, fpDatum x = .fin neg mag ∧ 0 ≤ mag ∧ signedValue neg mag = r

/-- `x` is the exact result `r` rounded once (rule R121). -/
def RoundsTo (f : FpFormat) (r : Rat) (x : Fp) : Prop := ∃ neg, x = rounded f neg |r| ∧ signedValue neg |r| = r

section
variable {f : FpFormat} {x y : Fp} {u v : Rat}

theorem roundsTo_fadd (hx : Denotes x u) (hy : Denotes y v) : RoundsTo f (u + v) (fadd f x y) := by
  obtain ⟨a, p, hx, -, rfl⟩ := hx
  obtain ⟨b, q, hy, -, rfl⟩ := hy
  exact ⟨_, fadd_fin f hx hy, signedValue_sumSign _ _ _⟩

theorem roundsTo_fsub (hx : Denotes x u) (hy : Denotes y v) : RoundsTo f (u - v) (fsub f x y) := by
  obtain ⟨a, p, hx, -, rfl⟩ := hx
  obtain ⟨b, q, hy, -, rfl⟩ := hy
  exact ⟨_, fsub_fin f hx hy, signedValue_sumSign _ _ _⟩

theorem roundsTo_fmul (hx : Denotes x u) (hy : Denotes y v) : RoundsTo f (u * v) (fmul f x y) := by
  obtain ⟨a, p, hx, hp, rfl⟩ := hx
  obtain ⟨b, q, hy, hq, rfl⟩ := hy
  rw [← signedValue_mul]
  refine ⟨a != b, ?_, ?_⟩ <;> rw [abs_signedValue _ (mul_nonneg hp hq)]
  exact fmul_fin f hx hy

theorem roundsTo_fdiv (hx : Denotes x u) (hy : Denotes y v) (hv : v ≠ 0) : RoundsTo f (u / v) (fdiv f x y) := by
  obtain ⟨a, p, hx, hp, rfl⟩ := hx
  obtain ⟨b, q, hy, hq, rfl⟩ := hy
  have hq0 : q ≠ 0 := by
    rintro rfl
    simp [signedValue] at hv
  rw [← signedValue_div]
  refine ⟨a != b, ?_, ?_⟩ <;> rw [abs_signedValue _ (div_nonneg hp hq)]
  exact fdiv_fin f hx hy hq0

end

/-! ### What the formats represent -/

/-- Both formats represent every fraction of 24 bits over a power of two that is not too great (rule R122). -/
theorem exists_pattern_fraction (f : FpFormat) {m k : Nat} (hm : m < 2 ^ 24) (hk : k ≤ 149) :
    ∃ n < fpInfPattern f, magOfPattern f n = m / 2 ^ k := by
  have hbits : m < 2 * fpBinade f := hm.trans_le (by cases f <;> decide)
  have hexp : fpMinExp f ≤ -(k : Int) := by cases f <;> simp only [fpMinExp] <;> omega
  have hquot : (m : Rat) * pow2 (-(k : Int)) = m / 2 ^ k := by rw [pow2_eq, zpow_neg, zpow_natCast, div_eq_mul_inv]
  have hinf : (m : Rat) * pow2 (-(k : Int)) < magOfPattern f (fpInfPattern f) := by
    calc (m : Rat) * pow2 (-(k : Int)) ≤ m / 1 := by
          rw [hquot]
          exact div_le_div_of_nonneg_left (by positivity) one_pos (one_le_pow₀ one_le_two)
      _ < 2 ^ 24 := by rw [div_one]; exact_mod_cast hm
      _ < magOfPattern f (fpInfPattern f) := by cases f <;> decide +kernel
  exact hquot ▸ exists_pattern f hbits hexp hinf

section
variable {f : FpFormat} {x : Fp} {r : Rat} {m k : Nat}

/-- A result the formats represent is exact. -/
theorem RoundsTo.exact (h : RoundsTo f r x) (hr : |r| = m / 2 ^ k) (hm : m < 2 ^ 24) (hk : k ≤ 149) : Denotes x r := by
  obtain ⟨neg, rfl, hsign⟩ := h
  obtain ⟨n, hn, hmag⟩ := exists_pattern_fraction f hm hk
  refine ⟨neg, |r|, ?_, abs_nonneg r, hsign⟩
  rw [hr, ← hmag]
  exact fpDatum_packDatum_exact f 0 neg hn

/-- A result within a bound the formats represent is finite and within that bound after rounding. -/
theorem RoundsTo.bounded (h : RoundsTo f r x) (hr : |r| ≤ m / 2 ^ k) (hm : m < 2 ^ 24) (hk : k ≤ 149) :
    ∃ w, Denotes x w ∧ |w| ≤ m / 2 ^ k := by
  obtain ⟨neg, rfl, -⟩ := h
  obtain ⟨n, hn, hmag⟩ := exists_pattern_fraction f hm hk
  rw [← hmag] at hr ⊢
  obtain ⟨mag, hdatum, hnonneg, hle⟩ := fpDatum_packDatum_bounded f 0 neg (abs_nonneg r) hr hn
  exact ⟨signedValue neg mag, ⟨neg, mag, hdatum, hnonneg, rfl⟩, by rwa [abs_signedValue neg hnonneg]⟩

end

/-! ### Conversions -/

/-- Settles O35: the magnitude of an integer is a fraction over 1. -/
theorem operandsConvertExactly : Obligations.OperandsConvertExactly := by
  intro f n hn
  obtain ⟨k, hk, hmag⟩ := exists_pattern_fraction f (m := n.natAbs) (k := 0) (by omega) (by omega)
  rw [pow_zero, div_one] at hmag
  rw [ofInt, ← hmag]
  exact fpDatum_packDatum_exact f 0 _ hk

theorem denotes_ofInt (f : FpFormat) {n : Int} (hn : n.natAbs < 2 ^ 20) : Denotes (ofInt f n) n :=
  ⟨_, _, operandsConvertExactly f n hn, by positivity, by simpa using signedValue_decide (n : Rat)⟩

end Sys2Proof.Machine
end

section
/-! The polynomial of rule R123 on operands in range: where it is exact, how large its steps are, and its floor (rules R125,
R126). -/

namespace Sys2Proof.Machine

/-! ### The floor -/

/-- Settles O39: `floor_i32` is the floor as an `s32`, which holds it. -/
theorem floorIsTowardMinusInfinity : Obligations.FloorIsTowardMinusInfinity := by
  intro x neg mag hx hlow hhigh
  have hfloor : floorI32 x = BitVec.ofInt 32 ⌊signedValue neg mag⌋ := by
    simp only [floorI32, hx]
    exact if_pos ⟨hlow, hhigh⟩
  rw [hfloor, BitVec.toInt_ofInt]
  exact Int.bmod_eq_of_le (by omega) (by omega)

/-! ### The quotients and their differences -/

/-- A value read off a finite datum. -/
def fpValue (x : Fp) : Option Rat :=
  match fpDatum x with
  | .fin neg mag => some (signedValue neg mag)
  | .inf _ => none
  | .nan => none

theorem Denotes.value {x : Fp} {r : Rat} (h : Denotes x r) : fpValue x = some r := by
  obtain ⟨neg, mag, hx, -, rfl⟩ := h
  simp only [fpValue, hx]

/-- Division by a power of two is exact (rule R126). -/
theorem denotes_quotient (f : FpFormat) {n c k : Nat} (hn : n < 2 ^ 20) (hc : c = 2 ^ k) (hk : k < 20) :
    Denotes (fdiv f (ofInt f n) (ofInt f c)) (n / c) := by
  have hlt : c < 2 ^ 20 := hc ▸ Nat.pow_lt_pow_right (by omega) hk
  have hne : (c : Rat) ≠ 0 := by
    rw [hc]
    positivity
  refine (roundsTo_fdiv (denotes_ofInt f (by omega)) (denotes_ofInt f (by omega)) (by exact_mod_cast hne)).exact
    (m := n) (k := k) ?_ (by omega) (by omega)
  rw [abs_of_nonneg (by positivity), hc]
  push_cast
  rfl

section
variable (f : FpFormat) (raw : BitVec 20) (t1 : BitVec 16)

theorem denotes_a : Denotes (fdiv f (ofInt f raw.toNat) (ofInt f 16384)) (raw.toNat / 16384) := by
  exact_mod_cast denotes_quotient f (c := 16384) (k := 14) raw.isLt (by decide) (by decide)

theorem denotes_b : Denotes (fdiv f (ofInt f t1.toNat) (ofInt f 1024)) (t1.toNat / 1024) := by
  exact_mod_cast denotes_quotient f (c := 1024) (k := 10) (t1.isLt.trans (by decide)) (by decide) (by decide)

theorem denotes_c : Denotes (fdiv f (ofInt f raw.toNat) (ofInt f 131072)) (raw.toNat / 131072) := by
  exact_mod_cast denotes_quotient f (c := 131072) (k := 17) raw.isLt (by decide) (by decide)

theorem denotes_e : Denotes (fdiv f (ofInt f t1.toNat) (ofInt f 8192)) (t1.toNat / 8192) := by
  exact_mod_cast denotes_quotient f (c := 8192) (k := 13) (t1.isLt.trans (by decide)) (by decide) (by decide)

/-- `d` counted in steps of `2^-14`, which are `g` in steps of `2^-17` (rule R126). -/
def diffSteps : Int := raw.toNat - 16 * t1.toNat

theorem natAbs_diffSteps_lt : (diffSteps raw t1).natAbs < 2 ^ 20 := by
  have hraw := raw.isLt
  have ht1 := t1.isLt
  unfold diffSteps
  omega

theorem abs_diffSteps_div (k : Nat) : |(diffSteps raw t1 : Rat) / 2 ^ k| = ((diffSteps raw t1).natAbs : Nat) / 2 ^ k := by
  rw [abs_div, abs_of_pos (by positivity : (0 : Rat) < 2 ^ k), Nat.cast_natAbs, Int.cast_abs]

theorem abs_diffSteps_div_le (k : Nat) : |(diffSteps raw t1 : Rat) / 2 ^ k| ≤ 1048575 / 2 ^ k := by
  have hlt := natAbs_diffSteps_lt raw t1
  have hle : (((diffSteps raw t1).natAbs : Nat) : Rat) ≤ 1048575 := by exact_mod_cast Nat.le_of_lt_succ hlt
  rw [abs_diffSteps_div]
  gcongr

theorem a_sub_b_eq : (raw.toNat : Rat) / 16384 - t1.toNat / 1024 = diffSteps raw t1 / 2 ^ 14 := by
  unfold diffSteps
  push_cast
  ring

theorem c_sub_e_eq : (raw.toNat : Rat) / 131072 - t1.toNat / 8192 = diffSteps raw t1 / 2 ^ 17 := by
  unfold diffSteps
  push_cast
  ring

theorem denotes_d : Denotes (fsub f (fdiv f (ofInt f raw.toNat) (ofInt f 16384)) (fdiv f (ofInt f t1.toNat) (ofInt f 1024)))
    (diffSteps raw t1 / 2 ^ 14) := by
  have hround := roundsTo_fsub (f := f) (denotes_a f raw) (denotes_b f t1)
  rw [a_sub_b_eq] at hround
  exact hround.exact (abs_diffSteps_div raw t1 14) ((natAbs_diffSteps_lt raw t1).trans (by decide)) (by decide)

theorem denotes_g : Denotes (fsub f (fdiv f (ofInt f raw.toNat) (ofInt f 131072)) (fdiv f (ofInt f t1.toNat) (ofInt f 8192)))
    (diffSteps raw t1 / 2 ^ 17) := by
  have hround := roundsTo_fsub (f := f) (denotes_c f raw) (denotes_e f t1)
  rw [c_sub_e_eq] at hround
  exact hround.exact (abs_diffSteps_div raw t1 17) ((natAbs_diffSteps_lt raw t1).trans (by decide)) (by decide)

end

/-- Settles O37: the quotients by `denotes_quotient`, and the differences as the same number of steps, each of `g` an eighth of
one of `d`. -/
theorem differencesAreExact : Obligations.DifferencesAreExact := by
  intro f raw t1
  have hd := (denotes_d f raw t1).value
  have hg := (denotes_g f raw t1).value
  have heighth : (diffSteps raw t1 : Rat) / 2 ^ 17 = diffSteps raw t1 / 2 ^ 14 / 8 := by ring
  rw [← a_sub_b_eq] at hd heighth
  rw [heighth] at hg
  exact ⟨(denotes_a f raw).value, (denotes_b f t1).value, (denotes_c f raw).value, (denotes_e f t1).value, hd, hg⟩

/-! ### Ranges -/

/-- A signed calibration word converts exactly, and is at most `2^15` in magnitude (rules R101, R122). -/
theorem denotes_asS16 (f : FpFormat) (w : BitVec 16) :
    Denotes (ofInt f (asS16 w)) (asS16 w) ∧ |(asS16 w : Rat)| ≤ 2 ^ 15 := by
  have hlow := w.le_toInt
  have hhigh := w.toInt_lt
  rw [← asS16_eq_toInt] at hlow hhigh
  have habs : |asS16 w| ≤ 2 ^ 15 := abs_le.2 ⟨by omega, by omega⟩
  exact ⟨denotes_ofInt f (by omega), by exact_mod_cast habs⟩

/-- A product of bounded values keeps to a bound the formats represent, rounded or not. -/
theorem denotes_fmul_bounded {f : FpFormat} {x y : Fp} {u v a b : Rat} {m k : Nat} (hx : Denotes x u) (hu : |u| ≤ a)
    (hy : Denotes y v) (hv : |v| ≤ b) (hab : a * b ≤ m / 2 ^ k) (hm : m < 2 ^ 24) (hk : k ≤ 149) :
    ∃ w, Denotes (fmul f x y) w ∧ |w| ≤ m / 2 ^ k := by
  refine (roundsTo_fmul hx hy).bounded ?_ hm hk
  calc |u * v| = |u| * |v| := abs_mul u v
    _ ≤ a * b := mul_le_mul hu hv (abs_nonneg v) ((abs_nonneg u).trans hu)
    _ ≤ m / 2 ^ k := hab

/-- The sum is finite and a little below `2^22` in magnitude: with `|d|` at most `(2^20 - 1) / 2^14`, each of the two products
is at most `2 * (2^20 - 1)` (rule R126). -/
theorem denotes_compSum (f : FpFormat) (raw : BitVec 20) (t1 t2 t3 : BitVec 16) :
    ∃ w, Denotes (compSum f raw t1 t2 t3) w ∧ |w| ≤ 4194300 := by
  obtain ⟨ht2, ht2le⟩ := denotes_asS16 f t2
  obtain ⟨ht3, ht3le⟩ := denotes_asS16 f t3
  have hd := denotes_d f raw t1
  have hdle := abs_diffSteps_div_le raw t1 14
  have hg := denotes_g f raw t1
  have hgle := abs_diffSteps_div_le raw t1 17
  obtain ⟨var1, hvar1, hvar1le⟩ := denotes_fmul_bounded (f := f) (m := 2097150) (k := 0) hd hdle ht2 ht2le (by norm_num)
    (by decide) (by decide)
  obtain ⟨sq, hsq, hsqle⟩ := denotes_fmul_bounded (f := f) (m := 1048575) (k := 14) hg hgle hg hgle (by norm_num)
    (by decide) (by decide)
  obtain ⟨var2, hvar2, hvar2le⟩ := denotes_fmul_bounded (f := f) (m := 2097150) (k := 0) hsq hsqle ht3 ht3le (by norm_num)
    (by decide) (by decide)
  have hsum : |var1 + var2| ≤ (4194300 : Nat) / 2 ^ 0 := by
    calc |var1 + var2| ≤ |var1| + |var2| := abs_add_le var1 var2
      _ ≤ (2097150 : Nat) / 2 ^ 0 + (2097150 : Nat) / 2 ^ 0 := add_le_add hvar1le hvar2le
      _ = (4194300 : Nat) / 2 ^ 0 := by norm_num
  obtain ⟨w, hw, hwle⟩ := (roundsTo_fadd (f := f) hvar1 hvar2).bounded hsum (by decide) (by decide)
  exact ⟨w, hw, by simpa using hwle⟩

/-- The temperature is finite, and the bound on the sum over 5120 is one the formats represent, below 819.2 (rule R126). -/
theorem denotes_temp (f : FpFormat) (raw : BitVec 20) (t1 t2 t3 : BitVec 16) :
    ∃ w, Denotes (comp f raw t1 t2 t3).1 w ∧ |w| ≤ (209715 : Nat) / 2 ^ 8 := by
  obtain ⟨s, hs, hsle⟩ := denotes_compSum f raw t1 t2 t3
  have h5120 : Denotes (ofInt f 5120) 5120 := denotes_ofInt f (by decide)
  refine (roundsTo_fdiv hs h5120 (by norm_num)).bounded ?_ (by decide) (by decide)
  rw [abs_div, abs_of_pos (by norm_num : (0 : Rat) < 5120), div_le_iff₀ (by norm_num)]
  exact hsle.trans (by norm_num)

/-- A bound on a value is one on its magnitude. -/
theorem Denotes.magnitude {x : Fp} {r c : Rat} (h : Denotes x r) (hr : |r| ≤ c) :
    ∃ neg mag, fpDatum x = .fin neg mag ∧ signedValue neg mag = r ∧ 0 ≤ mag ∧ mag ≤ c := by
  obtain ⟨neg, mag, hx, hnonneg, rfl⟩ := h
  rw [abs_signedValue neg hnonneg] at hr
  exact ⟨neg, mag, hx, rfl, hnonneg, hr⟩

/-- Settles O38: the ranges by `denotes_compSum` and `denotes_temp`; a sum within `2^22` has a floor that is an `s32`, so O39
gives `TFINE`. -/
theorem compensationStaysInRange : Obligations.CompensationStaysInRange := by
  intro f raw t1 t2 t3
  obtain ⟨s, hs, hsle⟩ := denotes_compSum f raw t1 t2 t3
  obtain ⟨t, ht, htle⟩ := denotes_temp f raw t1 t2 t3
  obtain ⟨neg, mag, hx, hvalue, hnonneg, hle⟩ := hs.magnitude hsle
  obtain ⟨neg', mag', hx', -, hnonneg', hle'⟩ := ht.magnitude htle
  obtain ⟨hlow, hhigh⟩ := abs_le.1 hsle
  rw [← hvalue] at hlow hhigh
  refine ⟨⟨neg, mag, hx, hnonneg, hle.trans (by norm_num), ?_⟩, neg', mag', hx', hnonneg', hle'.trans (by norm_num)⟩
  refine floorIsTowardMinusInfinity _ neg mag hx (Int.le_floor.2 ?_) (Int.floor_lt.2 ?_)
  · exact le_trans (by norm_num) hlow
  · exact lt_of_le_of_lt hhigh (by norm_num)

end Sys2Proof.Machine
end

section
/-! The vectors of rules R128 and R130: fixed operands, evaluated. -/

namespace Sys2Proof.Machine

/-- Settles O40: every operand is a number, so the kernel evaluates the twelve steps in both formats and compares patterns and
rationals; no free value of a NaN is met. -/
theorem referenceExampleSteps : Obligations.ReferenceExampleSteps := by
  unfold Obligations.ReferenceExampleSteps
  decide +kernel

/-- Settles O41: vectors V65 and V67 evaluated in both formats. -/
theorem signedZeroAndSmallNegative : Obligations.SignedZeroAndSmallNegative := by
  unfold Obligations.SignedZeroAndSmallNegative
  decide +kernel

end Sys2Proof.Machine
end

section
/-! Rounding (rule R121): a finite result is nearest, ties to even, and a result is infinity exactly from half a step above the
greatest finite magnitude. -/

namespace Sys2Proof.Machine

/-! ### The nearest integer and the halves -/

theorem nearestEven_le_of_lt_half {x : Rat} {m : Nat} (hx : 0 ≤ x) (h : x < m + 1 / 2) : nearestEven x ≤ m := by
  rcases le_or_gt x m with hm | hm
  · exact nearestEven_le hx hm
  · have hnear := (nearestEven_spec hx m).1
    rw [abs_of_neg (by linarith : (m : Rat) - x < 0)] at hnear
    have hlt : (nearestEven x : Rat) < m + 1 := by linarith [le_abs_self ((nearestEven x : Rat) - x)]
    exact Nat.le_of_lt_succ (by exact_mod_cast hlt)

/-- Half a step below an even integer the tie goes up. -/
theorem le_nearestEven_of_half_le {x : Rat} {m : Nat} (hx : 0 ≤ x) (heven : m % 2 = 0) (h : (m : Rat) - 1 / 2 ≤ x) :
    m ≤ nearestEven x := by
  rcases le_or_gt (m : Rat) x with hm | hm
  · exact le_nearestEven hx hm
  by_contra hlt
  obtain ⟨hnear, htie⟩ := nearestEven_spec hx m
  have hbelow : (nearestEven x : Rat) + 1 ≤ m := by exact_mod_cast Nat.lt_of_not_le hlt
  rw [abs_of_neg (by linarith : (nearestEven x : Rat) - x < 0), abs_of_pos (by linarith : 0 < (m : Rat) - x)] at hnear htie
  have hodd : m = nearestEven x + 1 := by
    have : (m : Rat) = nearestEven x + 1 := by linarith
    exact_mod_cast this
  have := htie (by linarith) (by omega)
  omega

/-! ### The unit in the last place -/

theorem fpBinade_eq_pow2 (f : FpFormat) : (fpBinade f : Rat) = pow2 ((fpPrecision f : Int) - 1) := by
  have hp : ((fpPrecision f : Int) - 1) = ((fpPrecision f - 1 : Nat) : Int) := by cases f <;> decide
  rw [hp, pow2_natCast]
  simp [fpBinade]

/-- In its binade a magnitude has the binade's unit. -/
theorem ulpExp_eq (f : FpFormat) {q : Rat} {e : Int} (he : fpMinExp f ≤ e) (hlow : fpBinade f * pow2 e ≤ q)
    (hhigh : q < 2 * fpBinade f * pow2 e) : ulpExp f q = e := by
  have hlog : log2Floor q = (fpPrecision f : Int) - 1 + e := by
    refine log2Floor_eq ?_ ?_
    · rwa [pow2_add, ← fpBinade_eq_pow2]
    · have htwo : pow2 1 = 2 := by decide +kernel
      rwa [show (fpPrecision f : Int) - 1 + e + 1 = 1 + ((fpPrecision f : Int) - 1) + e by ring, pow2_add, pow2_add, htwo,
        ← fpBinade_eq_pow2]
  unfold ulpExp
  omega

/-- Above its binade a magnitude has a greater unit. -/
theorem lt_ulpExp (f : FpFormat) {q : Rat} {e : Int} (h : 2 * fpBinade f * pow2 e ≤ q) : e < ulpExp f q := by
  have hpos : 0 < 2 * (fpBinade f : Rat) * pow2 e :=
    mul_pos (mul_pos two_pos (by exact_mod_cast fpBinade_pos f)) (pow2_pos e)
  obtain ⟨-, hlt, -⟩ := ulp_bounds f (hpos.trans_le h)
  by_contra hle
  have hmono := pow2_mono (not_lt.1 hle)
  rw [div_lt_iff₀ (pow2_pos _)] at hlt
  push_cast at hlt
  have : 2 * (fpBinade f : Rat) * pow2 (ulpExp f q) ≤ 2 * fpBinade f * pow2 e := by gcongr
  linarith

/-! ### The greatest finite magnitude -/

/-- How many binades up the greatest finite magnitude is. -/
def topBinade : FpFormat → Nat
  | .binary32 => 253
  | .binary64 => 2045

theorem fpInfPattern_eq (f : FpFormat) : fpInfPattern f = topBinade f * fpBinade f + 2 * fpBinade f := by
  cases f <;> decide

/-- The exponent of the unit in the last place of the greatest finite magnitude. -/
def topExp (f : FpFormat) : Int := fpMinExp f + topBinade f

theorem magOfPattern_greatest (f : FpFormat) :
    magOfPattern f (fpInfPattern f - 1) = (2 * fpBinade f - 1) * pow2 (topExp f) := by
  have hpos := fpBinade_pos f
  have hsplit : fpInfPattern f - 1 = topBinade f * fpBinade f + (2 * fpBinade f - 1) := by
    rw [fpInfPattern_eq]
    omega
  rw [hsplit, magOfPattern_binade f (by omega) (fun _ => by omega), Nat.cast_sub (by omega)]
  push_cast
  rfl

/-- Half a step above the greatest finite magnitude. -/
def roundLimit (f : FpFormat) : Rat := (2 * fpBinade f - 1 / 2) * pow2 (topExp f)

/-- Rounding within the top binade, whose unit is `pow2 (topExp f)`. -/
theorem roundPattern_top (f : FpFormat) {q : Rat} (hlow : fpBinade f * pow2 (topExp f) ≤ q)
    (hhigh : q < 2 * fpBinade f * pow2 (topExp f)) :
    roundPattern f q = min (topBinade f * fpBinade f + nearestEven (q / pow2 (topExp f))) (fpInfPattern f) := by
  have hpos : 0 < (fpBinade f : Rat) * pow2 (topExp f) := mul_pos (by exact_mod_cast fpBinade_pos f) (pow2_pos _)
  have hexp := ulpExp_eq f (by simp [topExp]) hlow hhigh
  unfold roundPattern
  rw [if_neg (hpos.trans_le hlow).ne', hexp]
  simp [topExp]

theorem roundPattern_lt_infPattern (f : FpFormat) {q : Rat} (hq : 0 ≤ q) (h : q < roundLimit f) :
    roundPattern f q < fpInfPattern f := by
  have hinf := fpInfPattern_eq f
  have hbin := fpBinade_pos f
  have hbin' : (1 : Rat) ≤ fpBinade f := by exact_mod_cast hbin
  have hpos := pow2_pos (topExp f)
  rcases le_or_gt q (magOfPattern f (fpInfPattern f - 1)) with hle | hgt
  · have := roundPattern_le f hq hle
    omega
  · rw [magOfPattern_greatest] at hgt
    rw [roundLimit] at h
    have hround := roundPattern_top f (q := q) (by nlinarith) (by nlinarith)
    have hnear : nearestEven (q / pow2 (topExp f)) ≤ 2 * fpBinade f - 1 := by
      refine nearestEven_le_of_lt_half (by positivity) ?_
      rw [div_lt_iff₀ hpos, Nat.cast_sub (by omega)]
      push_cast
      linarith
    omega

theorem roundPattern_eq_infPattern (f : FpFormat) {q : Rat} (h : roundLimit f ≤ q) : roundPattern f q = fpInfPattern f := by
  have hinf := fpInfPattern_eq f
  have hbin' : (1 : Rat) ≤ fpBinade f := by exact_mod_cast fpBinade_pos f
  have hpos := pow2_pos (topExp f)
  rw [roundLimit] at h
  have hq : 0 < q := by nlinarith
  rcases lt_or_ge q (2 * fpBinade f * pow2 (topExp f)) with hlt | hge
  · have hnear : 2 * fpBinade f ≤ nearestEven (q / pow2 (topExp f)) := by
      refine le_nearestEven_of_half_le (by positivity) (by omega) ?_
      rw [le_div_iff₀ hpos]
      push_cast
      exact h
    rw [roundPattern_top f (by nlinarith) hlt]
    omega
  · obtain ⟨-, -, hsig⟩ := ulp_bounds f hq
    have hexp := lt_ulpExp f hge
    unfold topExp at hexp
    have hnear := le_nearestEven (div_pos hq (pow2_pos _)).le (hsig (by omega))
    have hbinades : (topBinade f + 1) * fpBinade f ≤ (ulpExp f q - fpMinExp f).toNat * fpBinade f :=
      Nat.mul_le_mul_right _ (by omega)
    unfold roundPattern
    rw [if_neg hq.ne']
    simp only
    rw [Nat.add_mul] at hbinades
    omega

/-! ### The nearest magnitude -/

theorem magOfPattern_injective (f : FpFormat) : Function.Injective (magOfPattern f) :=
  StrictMono.injective fun _ _ => magOfPattern_strictMono f

/-- A magnitude of the format is a multiple of a given unit, or below every magnitude of that unit's binade. -/
theorem magOfPattern_multiple_or_below (f : FpFormat) (c n : Nat) :
    (∃ m : Nat, magOfPattern f n = m * pow2 (fpMinExp f + c))
      ∨ 0 < c ∧ magOfPattern f n < fpBinade f * pow2 (fpMinExp f + c) := by
  obtain ⟨k, r, hr, -, -, hmag⟩ := pattern_split f n
  rw [hmag]
  rcases Nat.lt_or_ge k c with hk | hk
  · refine .inr ⟨by omega, ?_⟩
    calc (r : Rat) * pow2 (fpMinExp f + k) < (2 * fpBinade f : Nat) * pow2 (fpMinExp f + k) := by
          gcongr
          exact pow2_pos _
      _ = fpBinade f * pow2 (fpMinExp f + k + (1 : Nat)) := by
          rw [pow2_add _ ((1 : Nat) : Int), pow2_natCast]
          push_cast
          ring
      _ ≤ fpBinade f * pow2 (fpMinExp f + c) := by
          gcongr
          exact pow2_mono (by omega)
  · refine .inl ⟨r * 2 ^ (k - c), ?_⟩
    rw [show fpMinExp f + (k : Int) = ((k - c : Nat) : Int) + (fpMinExp f + c) by omega, pow2_add, pow2_natCast]
    push_cast
    ring

/-- A distance in units. -/
theorem abs_mul_sub_eq {u : Rat} (hu : 0 < u) (m q : Rat) : |m * u - q| = |m - q / u| * u := by
  rw [← abs_of_pos hu, ← abs_mul, abs_of_pos hu, sub_mul, div_mul_cancel₀ q hu.ne']

/-- A finite result is nearest, and of two equally near it has the even pattern (rule R121). -/
theorem roundPattern_nearest (f : FpFormat) {q : Rat} (hq : 0 ≤ q) (hfin : roundPattern f q < fpInfPattern f) (n : Nat) :
    |magOfPattern f (roundPattern f q) - q| ≤ |magOfPattern f n - q|
      ∧ (|magOfPattern f (roundPattern f q) - q| = |magOfPattern f n - q| → n ≠ roundPattern f q →
          roundPattern f q % 2 = 0) := by
  rcases hq.eq_or_lt with rfl | hq
  · have hzero : roundPattern f 0 = 0 := if_pos rfl
    have hmag : magOfPattern f 0 = 0 := by cases f <;> decide +kernel
    simp [hzero, hmag]
  obtain ⟨hpattern, hmag⟩ := magOfPattern_roundPattern f hq hfin
  obtain ⟨hexp, -, hsig⟩ := ulp_bounds f hq
  obtain ⟨c, hc⟩ : ∃ c : Nat, ulpExp f q = fpMinExp f + c := ⟨(ulpExp f q - fpMinExp f).toNat, by omega⟩
  have hu := pow2_pos (ulpExp f q)
  have hspec := nearestEven_spec (div_pos hq hu).le
  rw [hmag, abs_mul_sub_eq hu]
  rcases magOfPattern_multiple_or_below f c n with ⟨m, hm⟩ | ⟨hc0, hbelow⟩
  · obtain ⟨hnear, htie⟩ := hspec m
    rw [hm, ← hc, abs_mul_sub_eq hu]
    refine ⟨mul_le_mul_of_nonneg_right hnear hu.le, fun heq hne => ?_⟩
    have hm_ne : m ≠ nearestEven (q / pow2 (ulpExp f q)) := by
      rintro rfl
      rw [← hc, ← hmag] at hm
      exact hne (magOfPattern_injective f hm)
    have heven := htie (mul_right_cancel₀ hu.ne' heq) hm_ne
    rw [hpattern, Nat.add_mod, Nat.mul_mod, fpBinade_even, heven]
    simp
  · have hbinade := hsig (by omega)
    rw [le_div_iff₀ hu] at hbinade
    rw [← hc] at hbelow
    have hlt : |(nearestEven (q / pow2 (ulpExp f q)) : Rat) - q / pow2 (ulpExp f q)| * pow2 (ulpExp f q)
        < |magOfPattern f n - q| := by
      calc _ ≤ |(fpBinade f : Rat) - q / pow2 (ulpExp f q)| * pow2 (ulpExp f q) :=
            mul_le_mul_of_nonneg_right (hspec (fpBinade f)).1 hu.le
        _ = q - fpBinade f * pow2 (ulpExp f q) := by
            rw [← abs_mul_sub_eq hu, abs_of_nonpos (by linarith)]
            ring
        _ < q - magOfPattern f n := by linarith
        _ = |magOfPattern f n - q| := by
            rw [abs_of_neg (by linarith)]
            ring
    exact ⟨hlt.le, fun heq => absurd heq hlt.ne⟩

/-! ### The rule -/

theorem fpDatum_infinity (f : FpFormat) (neg : Bool) : fpDatum (fpOfPattern f (signed f neg (fpInfPattern f))) = .inf neg := by
  cases f <;> cases neg <;> decide

theorem roundLimit_binary32 : roundLimit .binary32 = 2 ^ 128 - 2 ^ 103 := by decide +kernel

theorem roundLimit_binary64 : roundLimit .binary64 = 2 ^ 1024 - 2 ^ 970 := by decide +kernel

/-- Settles O36: the operations by their equations on finite operands (`fadd_fin` and the three beside it); below the limit the
result is finite and nearest (`roundPattern_nearest`), from the limit on it is infinity. -/
theorem roundingIsToNearestEven : Obligations.RoundingIsToNearestEven := by
  intro f limit rounded
  have hlimit : limit = roundLimit f := by
    cases f
    · exact roundLimit_binary32.symm
    · exact roundLimit_binary64.symm
  refine ⟨fun x y a b p q hx hy => ⟨fadd_fin f hx hy, fsub_fin f hx hy, fmul_fin f hx hy, fdiv_fin f hx hy⟩,
    fun q hq => ⟨fun hlt => ?_, fun hge neg => ?_⟩⟩
  · have hfin := roundPattern_lt_infPattern f hq (hlimit ▸ hlt)
    exact ⟨hfin, fun neg => fpDatum_fpOfPattern f neg hfin, fun n _ => roundPattern_nearest f hq hfin n⟩
  · change fpDatum (fpOfPattern f (signed f neg (roundPattern f q))) = .inf neg
    rw [roundPattern_eq_infPattern f (hlimit ▸ hge), fpDatum_infinity]

end Sys2Proof.Machine
end

section
/-! The host program (rules R141 to R149): where it stands still, what its comparison and the end of a tick do, and its count of
samples. -/

namespace Sys2Proof.Machine

open Sys2Proof.Safety

/-! ### Standing still -/

/-- A state that steps to itself is where every run from it ends. -/
theorem run_of_step_self {s : State} (h : step s = .next s) (n : Nat) : Host.Core.run core n s = .next s := by
  induction n with
  | zero => rfl
  | succ n ih =>
    have hcore : core.step s = .next s := h
    simpa only [Host.Core.run, hcore] using ih

/-- A hung block waits (rule R163). -/
theorem step_hung {s : State} (hc : cfgWellFormed s.cfg = true) (hb : statusBusy s.status = true) : step s = .next s := by
  simp [step, hc, hb]

/-- A host that has not started, or whose state is terminal, has no action (rules R142, R149). -/
theorem hostStep_still {s : State}
    (h : s.session.running = false ∨ s.session.state = .complete ∨ s.session.state = .fault) : hostStep s = .next s := by
  obtain h | h | h := h <;> simp [hostStep, hostProgram, h]

/-- Settles O10: such a state steps to itself, whether the block hangs or the host is asked. -/
theorem nothingHappensWithoutACommand : Obligations.NothingHappensWithoutACommand := by
  intro s n hc hp hasked hstill
  refine run_of_step_self ?_ n
  cases hb : statusBusy s.status with
  | true => exact step_hung hc hb
  | false => exact (step_host hc hb hp hasked).trans (hostStep_still hstill)

/-! ### Where the actions stand in the program -/

theorem hostProgram_compareIds_iff (s : State) (n : Nat) :
    (hostProgram s)[n]? = some .compareIds ↔ s.session.state = .idle ∧ n = 5 := by
  cases hst : s.session.state with
  | idle => rcases n with _ | _ | _ | _ | _ | _ | n <;> simp [hostProgram, hst, idleProgram]
  | calibrationPending =>
    have hmem : .compareIds ∉ calibrationProgram s := by simp [calibrationProgram]
    simpa [hostProgram, hst] using fun h => hmem (List.mem_of_getElem? h)
  | sampling =>
    have hmem : .compareIds ∉ tickProgram := by decide
    simpa [hostProgram, hst] using fun h => hmem (List.mem_of_getElem? h)
  | complete | fault => simp [hostProgram, hst]

/-- An action that neither the actions of `Idle` nor those of `CalibrationPending` have, and a tick has once, at `k`. -/
theorem hostProgram_tick_iff {a : HostAct} {k : Nat} (hidle : ∀ s, a ∉ idleProgram s)
    (hcal : ∀ s, a ∉ calibrationProgram s) (htick : ∀ n < 10, tickProgram[n]? = some a ↔ n = k) (hk : k < 10) (s : State) (n : Nat) :
    (hostProgram s)[n]? = some a ↔ s.session.state = .sampling ∧ n = k := by
  cases hst : s.session.state with
  | idle => simpa [hostProgram, hst] using fun h => hidle s (List.mem_of_getElem? h)
  | calibrationPending => simpa [hostProgram, hst] using fun h => hcal s (List.mem_of_getElem? h)
  | sampling =>
    simp only [hostProgram, hst, true_and]
    by_cases hn : n < 10
    · exact htick n hn
    · have hnone : tickProgram[n]? = none := List.getElem?_eq_none (by simpa [tickProgram] using hn)
      simp only [hnone, reduceCtorEq, false_iff]
      omega
  | complete | fault => simp [hostProgram, hst]

theorem hostProgram_accumulate_iff (s : State) (n : Nat) :
    (hostProgram s)[n]? = some .accumulate ↔ s.session.state = .sampling ∧ n = 6 :=
  hostProgram_tick_iff (by simp [idleProgram]) (by simp [calibrationProgram]) (by decide) (by decide) s n

theorem hostProgram_progress_iff (s : State) (n : Nat) :
    (hostProgram s)[n]? = some .progress ↔ s.session.state = .sampling ∧ n = 7 :=
  hostProgram_tick_iff (by simp [idleProgram]) (by simp [calibrationProgram]) (by decide) (by decide) s n

theorem hostProgram_nextTick_iff (s : State) (n : Nat) :
    (hostProgram s)[n]? = some .nextTick ↔ s.session.state = .sampling ∧ n = 9 :=
  hostProgram_tick_iff (by simp [idleProgram]) (by simp [calibrationProgram]) (by decide) (by decide) s n

/-! ### The actions -/

/-- The block idle, with nothing offered or asked, and the session running: the host has the next step. -/
def HostsTurn (s : State) : Prop :=
  cfgWellFormed s.cfg = true ∧ statusBusy s.status = false ∧ s.port = none ∧ s.readAsked = none ∧ s.session.running = true

/-- On its turn the host takes the action it has come to; one that reads no register is never refused. -/
theorem step_act {s : State} {a : HostAct} (h : HostsTurn s) (ha : (hostProgram s)[s.session.pc]? = some a)
    (hread : numberRead a = none) :
    step s = .next { s with session := sessionAct s a, port := offeredBy a } := by
  obtain ⟨hc, hb, hp, hasked, hrun⟩ := h
  have hheld : readsHeld s a = true := by simp [readsHeld, hread]
  simp [step_host hc hb hp hasked, hostStep, hrun, ha, hheld, afterAct]

theorem sessionAct_compareIds_match {s : State} (h : idsMatch s.cfg s.session = true) :
    sessionAct s .compareIds = enterState .calibrationPending s.session := if_pos h

theorem sessionAct_compareIds_mismatch {s : State} (h : idsMatch s.cfg s.session = false) :
    sessionAct s .compareIds = enterState .fault (putEvent .wiringFault s.session) := if_neg (by simp [h])

theorem sessionAct_nextTick_more {s : State} (h : s.session.tick + 1 < Config.nTicks) :
    sessionAct s .nextTick = enterState .sampling { s.session with tick := s.session.tick + 1 } := if_pos h

theorem sessionAct_nextTick_last {s : State} (h : s.session.tick + 1 = Config.nTicks) :
    sessionAct s .nextTick = enterState .complete
      (putEvent (.finalAverage (finalAverage s.cfg.fpfmt s.session)) { s.session with tick := Config.nTicks }) := by
  simp [sessionAct, h]

theorem idsMatch_iff (c : Cfg) (h : Session) : idsMatch c h = true ↔ h.id1 = c.expectedId ∧ h.id2 = c.expectedId := by
  simp [idsMatch]

/-- Settles O56: the host has come to `compareIds`. -/
theorem identityCheckDecides : Obligations.IdentityCheckDecides := by
  intro s hc hb hp hasked hrun hst hpc
  have hact := (hostProgram_compareIds_iff s s.session.pc).2 ⟨hst, hpc⟩
  refine ⟨_, step_act ⟨hc, hb, hp, hasked, hrun⟩ hact rfl, rfl, ?_⟩
  have hiff := idsMatch_iff s.cfg s.session
  cases hids : idsMatch s.cfg s.session with
  | true =>
    obtain ⟨h1, h2⟩ := hiff.1 hids
    simp [sessionAct_compareIds_match hids, enterState, h1, h2]
  | false =>
    have hne : ¬ (s.session.id1 = s.cfg.expectedId ∧ s.session.id2 = s.cfg.expectedId) := by simp [← hiff, hids]
    simp only [sessionAct_compareIds_mismatch hids]
    exact ⟨rfl, fun h => absurd h hne, fun _ => ⟨rfl, rfl⟩⟩

/-- Settles O58: the host has come to `accumulate`, which offers no word. -/
theorem tickAccumulatesTheMean : Obligations.TickAccumulatesTheMean := by
  intro s hc hb hp hasked hrun hst hpc
  have hact := (hostProgram_accumulate_iff s s.session.pc).2 ⟨hst, hpc⟩
  rw [step_act ⟨hc, hb, hp, hasked, hrun⟩ hact rfl]
  simp [sessionAct, nextAct, accumulated, offeredBy, hpc, hp]

/-- Settles O59: the host has come to `progress` or to `nextTick`, and the index of the tick decides. -/
theorem tickEndsInProgressOrCompletion : Obligations.TickEndsInProgressOrCompletion := by
  intro s hc hb hp hasked hrun hst
  have hturn : HostsTurn s := ⟨hc, hb, hp, hasked, hrun⟩
  refine ⟨fun hpc => ?_, fun hpc htick => ?_, fun hpc htick => ?_⟩
  · refine ⟨_, step_act hturn ((hostProgram_progress_iff s s.session.pc).2 ⟨hst, hpc⟩) rfl, ?_⟩
    by_cases hten : s.session.tick % 10 = 0 <;> simp [sessionAct, Config.progressEvery, hten, nextAct, putEvent]
  · refine ⟨_, step_act hturn ((hostProgram_nextTick_iff s s.session.pc).2 ⟨hst, hpc⟩) rfl, ?_⟩
    simp [sessionAct_nextTick_more (Nat.succ_lt_succ htick), enterState]
  · refine ⟨_, step_act hturn ((hostProgram_nextTick_iff s s.session.pc).2 ⟨hst, hpc⟩) rfl, ?_⟩
    simp [sessionAct_nextTick_last (congrArg (· + 1) htick), enterState, putEvent, finalAverage]

/-! ### The count of samples -/

/-- The host has gone on to its next action in the same session state and tick, and counted no sample. -/
def GoesOn (h h' : Session) : Prop :=
  h'.state = h.state ∧ h'.pc = h.pc + 1 ∧ h'.tick = h.tick ∧ h'.count = h.count

/-- Every action but the four that count, compare or enter a state or tick just goes on. -/
theorem goesOn_sessionAct (s : State) {a : HostAct} (hids : a ≠ .compareIds) (henter : a ≠ .enterSampling)
    (hacc : a ≠ .accumulate) (hnext : a ≠ .nextTick) : GoesOn s.session (sessionAct s a) := by
  cases a with
  | emit | issue => exact ⟨rfl, rfl, rfl, rfl⟩
  | takeId | takeTemp | progress =>
    simp only [sessionAct]
    split <;> exact ⟨rfl, rfl, rfl, rfl⟩
  | compareIds | enterSampling | accumulate | nextTick => contradiction

/-- Going on keeps the count, but from the action that accumulates (rule R146). -/
theorem sampleInv_of_goesOn {s t : State} (h : GoesOn s.session t.session) (hs : SampleInv s)
    (hpc6 : s.session.state = .sampling → s.session.pc ≠ 6) : SampleInv t := by
  obtain ⟨hstate, hpc, htick, hcount⟩ := h
  unfold SampleInv at hs ⊢
  rw [hstate, hpc, htick, hcount]
  cases hst : s.session.state with
  | sampling =>
    rw [hst] at hs
    obtain ⟨hlt, hcnt⟩ := hs
    refine ⟨hlt, ?_⟩
    have := hpc6 hst
    split at hcnt <;> split <;> omega
  | idle | calibrationPending | complete | fault => rwa [hst] at hs

/-- An action of the host keeps the count: each that does not just go on stands at one place of one program, and the invariant
there says what it counts from (rules R142, R145, R146, R148). -/
theorem sampleInv_afterAct {s : State} {a : HostAct} (hs : SampleInv s) (ha : (hostProgram s)[s.session.pc]? = some a) :
    SampleInv (afterAct s a) := by
  cases a with
  | emit | issue | takeId | takeTemp | progress =>
    refine sampleInv_of_goesOn (goesOn_sessionAct s nofun nofun nofun nofun) hs fun hst hpc => ?_
    have hacc := (hostProgram_accumulate_iff s s.session.pc).2 ⟨hst, hpc⟩
    rw [ha] at hacc
    cases hacc
  | compareIds =>
    obtain ⟨hst, -⟩ := (hostProgram_compareIds_iff s s.session.pc).1 ha
    have hcount : s.session.count = 0 := by simpa [SampleInv, hst] using hs
    cases hids : idsMatch s.cfg s.session with
    | true => simpa [SampleInv, sessionAct_compareIds_match hids, enterState] using hcount
    | false => simpa [SampleInv, sessionAct_compareIds_mismatch hids, enterState, putEvent] using hcount
  | enterSampling => exact ⟨(by decide : 0 < Config.nTicks), rfl⟩
  | accumulate =>
    obtain ⟨hst, hpc⟩ := (hostProgram_accumulate_iff s s.session.pc).1 ha
    simpa [SampleInv, sessionAct, nextAct, accumulated, hst, hpc] using hs
  | nextTick =>
    obtain ⟨hst, hpc⟩ := (hostProgram_nextTick_iff s s.session.pc).1 ha
    obtain ⟨hlt, hcount⟩ : s.session.tick < Config.nTicks ∧ s.session.count = s.session.tick + 1 := by
      simpa [SampleInv, hst, hpc] using hs
    obtain hmore | hlast : s.session.tick + 1 < Config.nTicks ∨ s.session.tick + 1 = Config.nTicks :=
      Nat.lt_or_eq_of_le hlt
    · simpa [SampleInv, sessionAct_nextTick_more hmore, enterState] using ⟨hmore, hcount⟩
    · simpa [SampleInv, sessionAct_nextTick_last hlast, enterState, putEvent] using hcount.trans hlast

theorem sampleInv_of_session {s t : State} (h : t.session = s.session) (hs : SampleInv s) : SampleInv t := by
  unfold SampleInv
  rw [h]
  exact hs

/-- Settles O55: only an action of the host writes the session. -/
theorem sampleCountIsCompletedTicks : Obligations.SampleCountIsCompletedTicks := by
  intro s t hs h
  obtain ⟨-, ⟨-, rfl⟩ | ⟨-, p, i, -, -, hexec⟩ | ⟨-, -, n, -, hread⟩ | ⟨-, -, -, hhost⟩⟩ := step_next h
  · exact hs
  · obtain ⟨-, -, -, -, hsession, -⟩ := exec_ctxKept hexec
    exact sampleInv_of_session hsession hs
  · obtain ⟨v, -, rfl⟩ := readStep_next hread
    exact hs
  · obtain rfl | ⟨a, -, ha, -, rfl⟩ := hostStep_next hhost
    · exact hs
    · exact sampleInv_afterAct hs ha

end Sys2Proof.Machine
end

section
/-! The reset state (rules R24, R180) meets the invariant, the host's count and the backing of rule R166. -/

namespace Sys2Proof.Machine

open Sys2Proof.Safety

theorem busInv_resetOf (c : Cfg) : BusInv (State.resetOf c) := by
  have howned : statusOwned 0 = false := by decide
  have hreserved : statusReserved 0 = 0 := by decide
  have hbusy : statusBusy 0 = false := by decide
  exact ⟨rfl, howned, hreserved, hbusy, nofun⟩

theorem regInv_resetOf (c : Cfg) : RegInv (State.resetOf c) := by
  obtain ⟨hctx, -⟩ := resetStateOfTheTable c
  have htemp : ∀ x, ((State.resetOf c).ctx x).temp.format = c.fpfmt
    | 0 => format_zero _
    | 1 => format_zero _
  refine ⟨fun x => (hctx x).1, htemp, format_zero _, format_zero _, format_zero _, fun x => ?_⟩
  rw [(hctx x).2]
  exact ⟨rfl, rfl, rfl⟩

theorem memInv_resetOf (c : Cfg) : MemInv (State.resetOf c)
  | 0 => rfl
  | 1 => rfl

/-- Settles O13: the three sides of the invariant one by one; the count and the mark are 0 and unset. -/
theorem resetMeetsEveryInvariant : Obligations.ResetMeetsEveryInvariant := fun c =>
  ⟨⟨busInv_resetOf c, regInv_resetOf c, memInv_resetOf c⟩, rfl, rfl⟩

end Sys2Proof.Machine
end

section
/-! Two runs whose buses return different ack bits and bytes (rules R76, R164): every part of a command takes both through the
same phases and stops both at the same one. -/

namespace Sys2Proof.Safety

open Sys2Proof.Machine

/-! ### What two such states agree on -/

theorem SameButReturned.cfg_eq {s t : State} (h : SameButReturned s t) : s.cfg = t.cfg := h.1

theorem SameButReturned.phase_eq {s t : State} (h : SameButReturned s t) : s.phase = t.phase := by
  simp only [SameButReturned] at h
  simp only [h]

theorem SameButReturned.guarded_eq {s t : State} (h : SameButReturned s t) : s.guarded = t.guarded := by
  simp only [SameButReturned] at h
  simp only [h]

/-- Both face a bus of which nothing is assumed (rule R33). -/
theorem SameButReturned.unconstrained {s t : State} (h : SameButReturned s t) :
    s.env.kind = .unconstrained ∧ t.env.kind = .unconstrained := by
  simp only [SameButReturned] at h
  simp only [h, and_self]

/-- Of a context they agree on the device and on the marks of rule R12, and not on the values. -/
theorem SameButReturned.ctx_eq {s t : State} (h : SameButReturned s t) (x : CtxIx) :
    (s.ctx x).devaddr = (t.ctx x).devaddr ∧ (s.ctx x).held = (t.ctx x).held := by
  simp only [SameButReturned] at h
  match x with
  | 0 => simp only [ctx_zero, h, and_self]
  | 1 => simp only [ctx_one, h, and_self]

/-- The two buses complete their next phase, or neither does. -/
theorem SameButReturned.completes_eq {s t : State} (h : SameButReturned s t) :
    s.env.reply.completes = t.env.reply.completes := by
  obtain ⟨-, -, -, -, -, -, -, -, -, -, -, -, -, -, -, -, -, hdraws, hscript⟩ := h
  unfold Env.reply
  cases hs : s.env.script <;> cases ht : t.env.script <;> simp_all

/-! ### The operations of a command in flight -/

theorem SameButReturned.accept {s t : State} (h : SameButReturned s t) (i : Instr) :
    SameButReturned (accept i s) (accept i t) := by
  simp only [SameButReturned] at h
  simp [SameButReturned, h]

theorem SameButReturned.finish {s t : State} (h : SameButReturned s t) : SameButReturned (finish s) (finish t) := by
  simp only [SameButReturned] at h
  simp [SameButReturned, h]

theorem SameButReturned.used {s t : State} (h : SameButReturned s t) (held : Bool) :
    SameButReturned (s.used held) (t.used held) := by
  simp only [SameButReturned] at h
  simp [SameButReturned, h]

/-- Storing what was returned: the values written may differ, the device and the marks may not. -/
theorem SameButReturned.setCtx {s t : State} (h : SameButReturned s t) (x : CtxIx) {c d : Context}
    (hdev : c.devaddr = d.devaddr) (hheld : c.held = d.held) : SameButReturned (s.setCtx x c) (t.setCtx x d) := by
  simp only [SameButReturned] at h
  match x with
  | 0 => simp [SameButReturned, State.setCtx, h, hdev, hheld]
  | 1 => simp [SameButReturned, State.setCtx, h, hdev, hheld]

/-! ### The primitives -/

/-- Two runs of a command's part that completed alike, or hung alike, in states that differ in what was returned alone. -/
def SameProgress (r r' : Ran) : Prop := r.done = r'.done ∧ SameButReturned r.state r'.state

section
variable {s t : State} (h : SameButReturned s t)
include h

theorem sameProgress_start : SameProgress (phaseStart s) (phaseStart t) := by
  obtain ⟨hs, ht⟩ := h.unconstrained
  unfold phaseStart
  rw [onStart_unconstrained hs, onStart_unconstrained ht, h.completes_eq]
  cases t.env.reply.completes
  · exact ⟨rfl, h⟩
  · simp only [SameButReturned] at h
    simp [SameProgress, SameButReturned, h]

/-- The ack bit goes to `STATUS.ACK` and the history alone (rule R76). -/
theorem sameProgress_send (b : Byte) : SameProgress (phaseSend b s) (phaseSend b t) := by
  obtain ⟨hs, ht⟩ := h.unconstrained
  unfold phaseSend
  rw [onSend_unconstrained hs, onSend_unconstrained ht, h.completes_eq]
  cases t.env.reply.completes
  · exact ⟨rfl, h⟩
  · simp only [SameButReturned] at h
    simp [SameProgress, SameButReturned, eventShape, h]

/-- The byte goes to `RXDATA` and the history alone. -/
theorem sameProgress_recv (k : Bool) : SameProgress (phaseRecv k s) (phaseRecv k t) := by
  obtain ⟨hs, ht⟩ := h.unconstrained
  unfold phaseRecv
  rw [onRecv_unconstrained hs, onRecv_unconstrained ht, h.completes_eq]
  cases t.env.reply.completes
  · exact ⟨rfl, h⟩
  · simp only [SameButReturned] at h
    simp [SameProgress, SameButReturned, eventShape, h]

theorem sameProgress_stop : SameProgress (phaseStop s) (phaseStop t) := by
  obtain ⟨hs, ht⟩ := h.unconstrained
  unfold phaseStop
  rw [onStop_eq_onStart, onStop_eq_onStart, onStart_unconstrained hs, onStart_unconstrained ht, h.completes_eq]
  cases t.env.reply.completes
  · exact ⟨rfl, h⟩
  · simp only [SameButReturned] at h
    simp [SameProgress, SameButReturned, h]

end

/-- Parts that progress alike make a whole that does. -/
theorem SameProgress.andThen {r r' : Ran} {f g : State → Ran} (hr : SameProgress r r')
    (hf : ∀ {s t}, SameButReturned s t → SameProgress (f s) (g t)) : SameProgress (r.andThen f) (r'.andThen g) := by
  obtain ⟨hdone, hstate⟩ := hr
  unfold Ran.andThen
  rw [hdone]
  split
  · exact hf hstate
  · exact ⟨hdone, hstate⟩

/-! ### The bodies of the commands -/

section
variable {s t : State} (h : SameButReturned s t)
include h

theorem sameProgress_writeFrame (d r v : Byte) : SameProgress (writeFrame d r v s) (writeFrame d r v t) :=
  (sameProgress_start h).andThen fun h => (sameProgress_send h _).andThen fun h =>
  (sameProgress_send h _).andThen fun h => (sameProgress_send h _).andThen sameProgress_stop

theorem sameProgress_readFrame (d r : Byte) : SameProgress (readFrame d r s) (readFrame d r t) :=
  (sameProgress_start h).andThen fun h => (sameProgress_send h _).andThen fun h =>
  (sameProgress_send h _).andThen fun h => (sameProgress_start h).andThen fun h =>
  (sameProgress_send h _).andThen fun h => (sameProgress_recv h _).andThen sameProgress_stop

/-- One read of a longer command, of the same register in both runs: whichever bytes it returns, what follows progresses
alike. -/
theorem sameProgress_readThen {d d' r r' : Byte} (hd : d = d') (hr : r = r') {f g : Byte → State → Ran}
    (hf : ∀ {s t} b b', SameButReturned s t → SameProgress (f b s) (g b' t)) :
    SameProgress (readThen d r s f) (readThen d' r' t g) := by
  subst hd hr
  exact (sameProgress_readFrame h d r).andThen fun h => hf _ _ h

/-- The write at the end of `LOADCAL` stores the six bytes, whichever they are (rule R102). -/
theorem SameButReturned.writeTriple (x : CtxIx) (t1 t2 t3 u1 u2 u3 : BitVec 16) :
    SameButReturned (writeTriple x t1 t2 t3 s) (writeTriple x u1 u2 u3 t) := by
  obtain ⟨hdev, hheld⟩ := h.ctx_eq x
  exact h.setCtx x hdev (congrArg (fun m : Held => { m with t1 := true, t2 := true, t3 := true }) hheld)

/-- The write at the end of `READRAW` stores the three bytes, whichever they are (rule R111). -/
theorem SameButReturned.writeRaw (x : CtxIx) (v w : BitVec 20) :
    SameButReturned (writeRaw x v s) (writeRaw x w t) := by
  obtain ⟨hdev, hheld⟩ := h.ctx_eq x
  exact h.setCtx x hdev (congrArg (fun m : Held => { m with raw := true }) hheld)

/-- The six registers read are those of `CFG`, on the device of the context. -/
theorem sameProgress_loadCal (x : CtxIx) : SameProgress (loadCalBody x s) (loadCalBody x t) := by
  have hdev := (h.ctx_eq x).1
  exact sameProgress_readThen h hdev (by rw [h.cfg_eq]) fun _ _ h =>
    sameProgress_readThen h hdev (by rw [h.cfg_eq]) fun _ _ h =>
    sameProgress_readThen h hdev (by rw [h.cfg_eq]) fun _ _ h =>
    sameProgress_readThen h hdev (by rw [h.cfg_eq]) fun _ _ h =>
    sameProgress_readThen h hdev (by rw [h.cfg_eq]) fun _ _ h =>
    sameProgress_readThen h hdev (by rw [h.cfg_eq]) fun _ _ h => ⟨rfl, h.writeTriple x _ _ _ _ _ _⟩

theorem sameProgress_readRaw (x : CtxIx) : SameProgress (readRawBody x s) (readRawBody x t) := by
  have hdev := (h.ctx_eq x).1
  exact sameProgress_readThen h hdev (by rw [h.cfg_eq]) fun _ _ h =>
    sameProgress_readThen h hdev (by rw [h.cfg_eq]) fun _ _ h =>
    sameProgress_readThen h hdev (by rw [h.cfg_eq]) fun _ _ h => ⟨rfl, h.writeRaw x _ _⟩

/-- The check of `COMPENSATE` reads the marks of its context and none of the values (rules R12, R124). -/
theorem SameButReturned.compensable_eq (x : CtxIx) : compensable (s.ctx x) = compensable (t.ctx x) := by
  unfold compensable
  rw [(h.ctx_eq x).2]

/-- `COMPENSATE` computes from what was returned and stores the results; its marks do not depend on them (rule R124). -/
theorem sameProgress_compBody (x : CtxIx) : SameProgress (compBody x s) (compBody x t) := by
  obtain ⟨hdev, hheld⟩ := h.ctx_eq x
  refine ⟨rfl, ?_⟩
  unfold compBody
  rw [h.compensable_eq x]
  refine (h.setCtx x ?_ (congrArg (fun m : Held => { m with temp := true, tfine := true }) hheld)).used _
  exact hdev

/-- The body of every command progresses alike, whatever the bus returns (rule R164). -/
theorem sameProgress_bodyOf (i : Instr) : SameProgress (bodyOf i s) (bodyOf i t) := by
  cases i with
  | start => exact sameProgress_start h
  | sendbyte b => exact sameProgress_send h b
  | recvbyte k => exact sameProgress_recv h k
  | stop => exact sameProgress_stop h
  | writereg d r v => exact sameProgress_writeFrame h d r v
  | readreg d r => exact sameProgress_readFrame h d r
  | loadcal x => exact sameProgress_loadCal h x
  | readraw x => exact sameProgress_readRaw h x
  | compensate x => exact sameProgress_compBody h x
  | addrW a7 => exact sameProgress_send h _
  | addrR a7 => exact sameProgress_send h _

theorem SameButReturned.runCommand (i : Instr) :
    SameButReturned (runCommand i (bodyOf i) s) (runCommand i (bodyOf i) t) := by
  obtain ⟨hdone, hstate⟩ := sameProgress_bodyOf (h.accept i) i
  unfold Machine.runCommand
  simp only [hdone]
  split
  · exact hstate.finish
  · exact hstate

/-! ### The answer to a command -/

/-- No check of the spec reads anything the bus returned: each reads an operand, `PHASE` or the marks. -/
theorem SameButReturned.specRefusal_eq (i : Instr) : specRefusal i s = specRefusal i t := by
  cases i with
  | compensate x => simp only [specRefusal, h.compensable_eq x]
  | _ => simp only [specRefusal, h.phase_eq]

/-- A command that runs in one of the states runs in the other: what lets it run is what the spec refuses, and the guard
(rules R12, R166). -/
theorem SameButReturned.exec_runs {i : Instr} {s' : State} (hs : exec i s = .next s') : ∃ t', exec i t = .next t' := by
  have hlegal := exec_next_legal hs
  rw [h.specRefusal_eq, h.guarded_eq] at hlegal
  obtain hnone | ⟨hunwritten, hguard⟩ := hlegal
  · exact Machine.exec_runs hnone h.unconstrained.2
  · obtain ⟨t', ht, -⟩ := exec_unwritten_unguarded hunwritten hguard
    exact ⟨t', ht⟩

/-- A command refused in one of the states is refused in the other, for the same reason. -/
theorem SameButReturned.exec_refused {i : Instr} {r : Refusal} (hs : exec i s = .refused r) : exec i t = .refused r := by
  obtain ⟨hspec, hguard⟩ | ⟨-, hsim⟩ := Machine.exec_refused hs
  · rw [h.specRefusal_eq] at hspec
    rw [h.guarded_eq] at hguard
    exact exec_of_specRefusal hspec hguard
  · rw [h.unconstrained.1] at hsim
    cases hsim

end

/-- Settles O50: a command runs in both states or is refused in both (`exec_runs`, `exec_refused`), and where it runs its body
progresses alike in both (`sameProgress_bodyOf`). -/
theorem nothingReturnedIsConsulted : Obligations.NothingReturnedIsConsulted := by
  intro i s t h
  refine ⟨fun s' hs => ?_, fun r => h.exec_refused⟩
  obtain ⟨t', ht⟩ := h.exec_runs hs
  refine ⟨t', ht, ?_⟩
  rw [exec_next hs, exec_next ht]
  exact h.runCommand i

end Sys2Proof.Safety
end

section
/-! The command side of the step (rules R51, R55, R163): a word offered or placed runs next, a hung block takes none, and an
address byte after a start fixes the direction. With them the model's own values at reset (rule R24). -/

namespace Sys2Proof.Machine

/-! ### The step -/

/-- Settles O9: a hung block steps to itself (`step_hung`), so every run from it ends where it began (`run_of_step_self`). -/
theorem hungBlockWaitsForEver : Obligations.HungBlockWaitsForEver :=
  fun _ n hc hb => run_of_step_self (step_hung hc hb) n

/-- Settles O6: the step at an offered word is `step_word`. -/
theorem stepRunsTheDecodedInstruction : Obligations.StepRunsTheDecodedInstruction :=
  fun _ _ _ hc hb hp hd => step_word hc hb hp hd

/-- The bits of a table row read as an instruction are those of a word at the command side that decodes to it. -/
theorem exists_portWord_of_decodeTableWord {nbits w : Nat} {i : Instr} (h : decodeTableWord nbits w = some i) :
    ∃ p, portWordOf nbits w = some p ∧ decode p = .ok i := by
  unfold decodeTableWord at h
  split at h
  · cases h
  · next p hword =>
    split at h
    · next j hdecode =>
      cases h
      exact ⟨p, hword, hdecode⟩
    · cases h

/-- Bits of a width the table has are placed at the port, and nothing else changes (log 5). -/
theorem withFetchWord_of_portWord {s : State} {nbits w : Nat} {p : PortWord} (h : portWordOf nbits w = some p) :
    s.withFetchWord nbits w = { s with port := some p } := by
  simp [State.withFetchWord, h]

/-- Settles O7: the bits are a word that decodes (`exists_portWord_of_decodeTableWord`), it is placed at the port, and the step
takes it from there (`step_word`). -/
theorem placedTableWordRunsNext : Obligations.PlacedTableWordRunsNext := by
  intro s nbits w i hc hb hi
  obtain ⟨p, hword, hdecode⟩ := exists_portWord_of_decodeTableWord hi
  rw [withFetchWord_of_portWord hword]
  exact step_word (s := { s with port := some p }) hc hb rfl hdecode

/-! ### Reset -/

/-- A context at reset, whichever is asked for (rule R24). -/
theorem ctx_resetOf (c : Cfg) (x : CtxIx) : (State.resetOf c).ctx x = Context.reset c (devAddrOf c x) := by
  match x with
  | 0 => rfl
  | 1 => rfl

/-- Both simulated devices are fresh at reset (log 7). -/
theorem sim_resetOf (c : Cfg) (x : CtxIx) : (State.resetOf c).env.sim x = SimDevice.fresh := by
  match x with
  | 0 => rfl
  | 1 => rfl

/-- Settles O12: the context and the device asked for are `ctx_resetOf` and `sim_resetOf`, and each other clause reads one field
of the reset state. -/
theorem resetValuesTheModelChose : Obligations.ResetValuesTheModelChose := by
  intro c x
  have hack : statusAck (State.resetOf c).status = false := by
    change statusAck 0 = false
    decide
  rw [ctx_resetOf, sim_resetOf]
  exact ⟨rfl, rfl, rfl, rfl, rfl, rfl, rfl, hack, rfl, rfl, rfl, rfl, rfl, rfl, rfl, rfl, rfl, rfl, rfl, rfl, rfl, rfl, rfl⟩

/-! ### Address bytes -/

/-- The direction of an address byte is the one it was built with (rule R51). -/
@[simp] theorem directionRead_addrByte (a7 : BitVec 7) (read : Bool) : directionRead (addrByte a7 read) = read := by
  cases read <;> exact BitVec.getLsbD_append

/-- A command `i` whose body sends an address byte after a start, its call answered: `PHASE` is the byte's direction (rules R51,
R73). -/
theorem runCommand_address_answered (i : Instr) {s : State} {a7 : BitVec 7} {read a : Bool} {e : Env}
    (hp : s.phase = .started) (he : s.env.onSend s.cfg .started (addrByte a7 read) = some (a, e)) :
    runCommand i (phaseSend (addrByte a7 read)) s = { s with
      env := e
      trace := s.trace ++ [.w (addrByte a7 read) a]
      phase := if read then .rx else .tx
      status := setAck (setBusy s.status false) a
      ackHeld := true
      seq := none } := by
  rw [runCommand_send_answered i (by rw [hp]; exact he), sentState, hp, phaseAfterSend_started, directionRead_addrByte]

/-- Settles O18: in `STARTED` an address byte is run, and `runCommand_address_answered` is the state it leaves for each
direction. -/
theorem addressBytesComplete : Obligations.AddressBytesComplete := by
  intro s a7 a e hp
  constructor
  · intro he
    have hrun : exec (.addrW a7) s = .next (runCommand (.addrW a7) (phaseSend (addrByte a7 false)) s) := if_pos hp
    exact hrun.trans (congrArg _ (runCommand_address_answered (.addrW a7) (read := false) hp he))
  · intro he
    have hrun : exec (.addrR a7) s = .next (runCommand (.addrR a7) (phaseSend (addrByte a7 true)) s) := if_pos hp
    exact hrun.trans (congrArg _ (runCommand_address_answered (.addrR a7) (read := true) hp he))

end Sys2Proof.Machine
end
